-- ==== Sys2Proof/Word.lean ====
section
/-! DEFINITION. The fixed-width words of the HFC core (00_scope.md R7, R38). Every number is unsigned. -/

namespace Sys2Proof

/-- A host data word, a count and a node weight: `HW_W = CNT_W = WGT_W = 32` bits (R7). -/
abbrev Word := BitVec 32

/-- A host word address: `HA_W = 12` bits (R7). -/
abbrev Addr := BitVec 12

/-- A Symbol: `SYM_W = 8` bits (R7). -/
abbrev Sym := BitVec 8

/-- A node index: `IDX_W = 9` bits, slots `0..510` and `NIL` (R7, R38). -/
abbrev Idx := BitVec 9

/-- A bit sequence in time order: the head is the first bit, the one nearest the tree's root (R38). -/
abbrev Bits := List Bool

end Sys2Proof
end

