-- ==== Sys2Proof/Config.lean ====
section
/-! DEFINITION. What an implementation of the HFC core fixes (00_scope.md R7), and the free values. -/

namespace Sys2Proof.Config

/-- `NSYM`: the number of symbol values (R7). -/
abbrev nsym : Nat := 256

/-- `NNODE`: the number of node slots, `2 * NSYM - 1` (R7). -/
abbrev nnode : Nat := 511

/-- `NIL`: the index that means "no child"; it names no slot (R7). -/
abbrev nil : Idx := 0x1FF#9

/-- `LEN_MAX`: the greatest code length in bits, `NSYM - 1` (R7). -/
abbrev lenMax : Nat := 255

/-- The first internal slot; merge `j` of a BUILD writes slot `256 + j` (10_state.md R16). -/
abbrev firstInternal : Idx := 256#9

/-- `ONEBIT`: the code of the only symbol of a single-leaf tree, the spec's default `1`
(R7; 42_code_table.md R122). -/
def onebit : Bool := true

/-- `TIE`: whether slot `i` is taken before slot `j` when their weights are equal: the spec's default,
ascending slot index (R7; 41_tree_builder.md R106). -/
def tie (i j : Idx) : Bool := decide (i < j)

/-- The free value of an unspecified host read (10_state.md R35, 20_memory.md R47: any 32-bit word, a draw
per read). Draw `n` returns `freeWord n`; it has no body, so nothing can be proved of it (assumption 5). -/
opaque freeWord : Nat → Word

end Sys2Proof.Config
end

