-- ==== Sys2Proof/Syntax.lean ====
section
/-! DEFINITION. The six host commands, the HFC core's instruction set (30_encoding.md R71, 00_scope.md R2),
and the fields of a command word (R70). -/

namespace Sys2Proof

/-- The commands, one constructor per row of opcode_table.json. None has an operand: every operand is
implicit (30_encoding.md R70, R73). -/
inductive Instr where
  /-- CLR, 0x00000001: job control (45_job_control.md R156). -/
  | clr
  /-- COUNT, 0x00000002: the Frequency Counter (40_frequency_counter.md R90). -/
  | count
  /-- BUILD, 0x00000003: the Tree Builder (41_tree_builder.md R100). -/
  | build
  /-- DERIVE, 0x00000004: the Code Table Deriver (42_code_table.md R120). -/
  | derive
  /-- ENCODE, 0x00000005: the Encoder (43_encoder.md R130). -/
  | encode
  /-- DECODE, 0x00000006: the Decoder (44_decoder.md R140). -/
  | decode
  deriving DecidableEq, Repr

/-- The two fields of a command word (30_encoding.md R70). -/
structure CommandWord where
  /-- `opc`, bits `[3:0]`: the opcode. -/
  opc : BitVec 4
  /-- `zero`, bits `[31:4]`: must be 0. -/
  zero : BitVec 28
  deriving DecidableEq, Repr

/-- Why a command word is illegal (30_encoding.md R72). -/
inductive Illegal where
  /-- A bit of `[31:4]` is set. -/
  | nonzeroField
  /-- `[31:4]` is 0 and the opcode is 0x0 or 0x7 to 0xF. -/
  | unusedOpcode
  deriving DecidableEq, Repr

end Sys2Proof
end

