-- ==== Sys2Proof/WellFormed.lean ====
section
/-! DEFINITION. When a command word is well formed (30_encoding.md R70, R72). A term of `Instr` has no
field, so each of the six is well formed; the checks are on the word's two fields. -/

namespace Sys2Proof

/-- Bits `[31:4]` are 0 (R70). -/
def CommandWord.zeroOk (c : CommandWord) : Bool := c.zero == 0

/-- The opcode is one of the six of the opcode map (R71). -/
def CommandWord.opcOk (c : CommandWord) : Bool := decide (1 ≤ c.opc.toNat) && decide (c.opc.toNat ≤ 6)

/-- The word is one of the six command words (R71, R72). -/
def CommandWord.wf (c : CommandWord) : Bool := c.zeroOk && c.opcOk

/-- Every command is well formed: it has no operand field that could be out of range (R70). -/
def Instr.wf : Instr → Bool
  | .clr => true
  | .count => true
  | .build => true
  | .derive => true
  | .encode => true
  | .decode => true

end Sys2Proof
end

