-- ==== Sys2Proof/Decode.lean ====
section
/-! DEFINITION. Decoding a command word, total on 32-bit words (30_encoding.md R84), and the encoder. -/

namespace Sys2Proof

/-- The fields of a command word: `opc` is `[3:0]`, `zero` is `[31:4]` (30_encoding.md R70). -/
def splitWord (w : Word) : CommandWord := { opc := w.extractLsb' 0 4, zero := w.extractLsb' 4 28 }

/-- The word of two fields: the inverse of `splitWord` (R70). -/
def joinWord (c : CommandWord) : Word := c.zero ++ c.opc

/-- The command of an opcode (30_encoding.md R71); none for 0x0 and 0x7 to 0xF (R72). -/
def instrOfOpcode (opc : BitVec 4) : Option Instr :=
  match opc.toNat with
  | 1 => some .clr
  | 2 => some .count
  | 3 => some .build
  | 4 => some .derive
  | 5 => some .encode
  | 6 => some .decode
  | _ => none

/-- The decoder of command words: one of the six commands, or illegal with the reason
(30_encoding.md R84, R72). -/
def decode (w : Word) : Except Illegal Instr :=
  if (splitWord w).zero = 0 then
    match instrOfOpcode (splitWord w).opc with
    | some i => .ok i
    | none => .error .unusedOpcode
  else .error .nonzeroField

/-- The opcode of a command (30_encoding.md R71). -/
def opcodeOf : Instr → BitVec 4
  | .clr => 0x1
  | .count => 0x2
  | .build => 0x3
  | .derive => 0x4
  | .encode => 0x5
  | .decode => 0x6

/-- The command word of a command (30_encoding.md R70, R71). -/
def encode (i : Instr) : Word := joinWord { opc := opcodeOf i, zero := 0 }

/-- What the decoder reads from a command whose bits are `w`, of which the table gives `nbits`; bits from
`nbits` up are 0. A command is one 32-bit word, so the table's numbering is the word's own (R83). -/
def decodeTableWord (nbits w : Nat) : Option Instr :=
  match decode (BitVec.ofNat 32 (w % 2 ^ nbits)) with
  | .ok i => some i
  | .error _ => none

end Sys2Proof
end

