-- ==== Sys2Proof/Machine/State.lean ====
section
/-! DEFINITION. The state of the HFC core (10_state.md), of the four streams and of the host bus, as plain
data; the reasons to stop; the state after reset (10_state.md R34). -/

namespace Sys2Proof.Machine

/-- One slot of the node store (10_state.md R14). -/
structure Slot where
  /-- The weight. -/
  w : Word
  /-- 1 for a leaf, 0 for an internal node. -/
  leaf : Bool
  /-- The leaf's symbol; 0 in an internal node. -/
  sym : Sym
  /-- The left child; NIL in a leaf. -/
  l : Idx
  /-- The right child; NIL in a leaf. -/
  r : Idx
  deriving DecidableEq, Repr

/-- An input item as it crosses the pins: the pair (`kind`, `data`) (30_encoding.md R74). -/
structure RawItem (n : Nat) where
  kind : BitVec 2
  data : BitVec n
  deriving DecidableEq, Repr

/-- An input item as the core reads it (20_memory.md R51). -/
inductive InItem (n : Nat) where
  /-- One symbol or one bit. -/
  | data (v : BitVec n)
  /-- END: the sequence is over. -/
  | endItem
  /-- ERROR: the source failed. -/
  | errorItem
  deriving DecidableEq, Repr

/-- An output item (20_memory.md R51, 30_encoding.md R75). -/
inductive OutItem (n : Nat) where
  /-- One symbol or one bit. -/
  | data (v : BitVec n)
  /-- END: flush and close. -/
  | endItem
  deriving DecidableEq, Repr

/-- How a command that has its END still to put will end: `finish()` (45_job_control.md R154) or
`raise Fault(code, info)` (60_exceptions.md R163). -/
inductive Ending where
  | finish
  | fault (code : BitVec 4) (info : Word)
  deriving DecidableEq, Repr

/-- Where the running command stands: the transfer it waits for (20_memory.md R52, R53). The model's own
field: 10_state.md R11 says that BUSY, OP, CUR and the scratch state tell the position (assumption 1). -/
inductive Phase where
  /-- No command runs. -/
  | idle
  /-- CLR, BUILD or DERIVE is accepted; `n` more moves pass before the move of its effect
  (45_job_control.md R153). -/
  | working (n : Nat)
  /-- Waiting in `take(P)` (20_memory.md R52). -/
  | take
  /-- ENCODE offers `DATA(CODE[ESYM].c[EBIT])` on BIT_OUT (43_encoder.md R138). -/
  | emitBit
  /-- DECODE offers `DATA(v)` on SYM_OUT (44_decoder.md R143). -/
  | emitSym (v : Sym)
  /-- ENCODE or DECODE offers `END` on its output; then the command ends as `e` says
  (60_exceptions.md R165). -/
  | close (e : Ending)
  deriving DecidableEq, Repr

/-- A move in the schedule: the core's, or one of the outside world's (00_scope.md R6). DESIGN CHOICE (log entry 25):
there is no move by which the host empties or restarts a source; 60_exceptions.md R166 and 70_reset_and_hazards.md R203
ask it of the host and leave the means open. -/
inductive Move where
  /-- The core's sequencer moves. -/
  | core
  /-- The host completes a read of word address `a` (20_memory.md R42). -/
  | hRead (a : Addr)
  /-- The host completes a write of `v` to word address `a` (20_memory.md R43). -/
  | hWrite (a : Addr) (v : Word)
  /-- The symbol source has one more item to offer (20_memory.md R50). -/
  | symOffer (it : RawItem 8)
  /-- The bit source has one more item to offer. -/
  | bitOffer (it : RawItem 1)
  /-- The bit sink drives `bo_ready` (20_memory.md R41). -/
  | bitReady (b : Bool)
  /-- The symbol sink drives `so_ready`. -/
  | symReady (b : Bool)
  /-- From now on CLR, BUILD and DERIVE stay busy for `n` moves before their effect (45_job_control.md R153). -/
  | pace (n : Nat)
  /-- `rst = 1` at a clock edge (70_reset_and_hazards.md R190). -/
  | reset
  deriving DecidableEq, Repr

/-- The scratch view of BUILD: the node store and the priority collection (10_state.md R31). -/
structure Store where
  node : Vector Slot Config.nnode
  act : Vector Bool Config.nnode
  next : Idx
  deriving DecidableEq, Repr

/-- The scratch view of DERIVE: the code table and the stack of its walk (10_state.md R32). -/
structure Walk where
  code : Vector Bits Config.nsym
  stack : List (Idx × Bits)
  deriving DecidableEq, Repr

/-- The whole state. -/
structure State where
  /-- FREQ (10_state.md R12). -/
  freq : Vector Word Config.nsym
  /-- NODE (R14). -/
  node : Vector Slot Config.nnode
  /-- ROOT.valid (R17). -/
  rootValid : Bool
  /-- ROOT.idx (R17). -/
  rootIdx : Idx
  /-- NLEAF, `0..256` (R17). -/
  nleaf : BitVec 9
  /-- CODE: one bit sequence of at most 255 bits per symbol; `[]` is "no code" (R19, R20). -/
  code : Vector Bits Config.nsym
  /-- CUR, the Decoder's cursor (R22). Outside DECODE its value is unspecified; DESIGN CHOICE: it keeps the last
  one (assumption 7). -/
  cur : Idx
  /-- BUSY (R23). -/
  busy : Bool
  /-- DONE (R23). -/
  done : Bool
  /-- OP (R23). -/
  op : BitVec 4
  /-- ERRCODE (R24). -/
  errcode : BitVec 4
  /-- ERRINFO (R24). -/
  errinfo : Word
  /-- MIDPATH (R25). -/
  midpath : Bool
  /-- WIGN (R26). -/
  wign : Bool
  /-- ACT, scratch of BUILD (R31). -/
  act : Vector Bool Config.nnode
  /-- NEXT, scratch of BUILD (R31). -/
  nextSlot : Idx
  /-- The stack of DERIVE's walk (R32). -/
  stack : List (Idx × Bits)
  /-- ESYM, scratch of ENCODE (R33). -/
  esym : Sym
  /-- EBIT, scratch of ENCODE (R33). -/
  ebit : BitVec 8
  /-- The model's own: the position inside the running command. -/
  phase : Phase
  /-- The items the symbol source offers on SYM_IN, head first (20_memory.md R50). Only a command takes items away
  (log entry 25). -/
  symIn : List (RawItem 8)
  /-- The items the bit source offers on BIT_IN, head first. Only a command takes items away (log entry 25). -/
  bitIn : List (RawItem 1)
  /-- The items the bit sink has taken from BIT_OUT, oldest first (00_scope.md R6). -/
  bitOut : List (OutItem 1)
  /-- The items the symbol sink has taken from SYM_OUT, oldest first. -/
  symOut : List (OutItem 8)
  /-- The input `bo_ready` (20_memory.md R40). -/
  boReady : Bool
  /-- The input `so_ready`. -/
  soReady : Bool
  /-- The model's own: the schedule still to come; an empty list leaves every move to the core. -/
  script : List Move
  /-- The completed host reads with the word each returned, oldest first (20_memory.md R41, R42). -/
  hReads : List (Addr × Word)
  /-- The model's own: how many moves a CLR, BUILD or DERIVE stays busy before its effect
  (45_job_control.md R153). -/
  busyPeriod : Nat
  /-- The model's own: how many unspecified words have been drawn; `Config.freeWord draws` is the next. -/
  draws : Nat
  deriving DecidableEq, Repr

/-- Why the machine stops. The hardware's own faults are no stops: they are recorded in ERRCODE and ERRINFO
by a next state (60_exceptions.md R163). Each of these is for states that no run reaches. -/
inductive Fault where
  /-- Raised by DERIVE and DECODE when a link or the root names index 511, which is no slot: the spec gives
  no value to read there. Safe: the model stops (assumption 13). -/
  | slotMissing
  /-- Raised by DERIVE when its walk goes deeper than `LEN_MAX` levels: the store holds no tree and the
  spec's walk need not end. Safe: the model stops (assumption 12). -/
  | walkTooDeep
  /-- Raised by the core's move when BUSY = 1 but OP and the position are those of no accepted command.
  Safe: the model stops (assumption 14). -/
  | sequencerLost
  deriving DecidableEq, Repr

/-- Why the model gives an instruction no meaning. -/
inductive Refusal where
  /-- Answered by exec's arm of an instruction that has no meaning yet. Safe: the model stops. -/
  | notModelled (mnemonic : String)
  deriving DecidableEq, Repr

/-- The outcome of a move. -/
abbrev Outcome := Host.Outcome State Fault Refusal

/-- The value the model gives a node slot at reset, where the spec gives none (assumption 6). -/
def Slot.blank : Slot := { w := 0, leaf := false, sym := 0, l := 0, r := 0 }

/-- The machine right after reset (10_state.md R34, 70_reset_and_hazards.md R190): the empty job, nothing
offered by the sources, nothing taken by the sinks, no schedule. -/
def State.reset : State where
  freq := Vector.replicate _ 0
  node := Vector.replicate _ Slot.blank
  rootValid := false
  rootIdx := Config.nil
  nleaf := 0
  code := Vector.replicate _ []
  cur := 0
  busy := false
  done := false
  op := 0
  errcode := 0
  errinfo := 0
  midpath := false
  wign := false
  act := Vector.replicate _ false
  nextSlot := 0
  stack := []
  esym := 0
  ebit := 0
  phase := .idle
  symIn := []
  bitIn := []
  bitOut := []
  symOut := []
  boReady := true
  soReady := true
  script := []
  hReads := []
  busyPeriod := 0
  draws := 0

end Sys2Proof.Machine
end

