-- ==== Sys2Proof/Machine/Operands.lean ====
section
/-! DEFINITION. The operand forms: table entries by symbol and by node index, stream items
(30_encoding.md R74, R75), host word addresses (20_memory.md R44), and the table words the host reads
(30_encoding.md R76 to R80). -/

namespace Sys2Proof.Machine

/-! Table entries. -/

/-- Entry `x` of a table indexed by symbol (10_state.md R12, R19). -/
def symEntry {α : Type} (t : Vector α Config.nsym) (x : Sym) : α := t[x.toNat]'x.isLt

/-- The table with entry `x` replaced. -/
def setSymEntry {α : Type} (t : Vector α Config.nsym) (x : Sym) (v : α) : Vector α Config.nsym :=
  t.set x.toNat v x.isLt

/-- Slot `i` of the node store; none for `NIL`, which names no slot (10_state.md R14, 00_scope.md R7). -/
def slotAt (node : Vector Slot Config.nnode) (i : Idx) : Option Slot := node[i.toNat]?

/-- Whether slot `j` is reached from slot `i` through at most `fuel - 1` links of internal slots
(10_state.md R17). -/
def reaches (node : Vector Slot Config.nnode) : Nat → Idx → Idx → Bool
  | 0, _, _ => false
  | fuel + 1, i, j =>
    match slotAt node i with
    | none => false
    | some n => i == j || (!n.leaf && (reaches node fuel n.l j || reaches node fuel n.r j))

/-- Whether slot `j` is live: a tree exists and `j` is reachable from the root (10_state.md R17). A tree of
256 leaves has at most 256 levels. -/
def State.live (s : State) (j : Idx) : Bool := s.rootValid && reaches s.node (Config.lenMax + 1) s.rootIdx j

/-! Stream items. -/

/-- The item of a pair (`kind`, `data`); kind `0b11` is treated as ERROR, and the data of an item that is
not DATA is ignored (30_encoding.md R74). -/
def readItem {n : Nat} (it : RawItem n) : InItem n :=
  match it.kind.toNat with
  | 0 => .data it.data
  | 1 => .endItem
  | _ => .errorItem

/-- The pair (`kind`, `data`) by which an output item crosses the pins (30_encoding.md R75). -/
def OutItem.pins {n : Nat} : OutItem n → BitVec 1 × BitVec n
  | .data v => (0, v)
  | .endItem => (1, 0)

/-! Host word addresses. -/

/-- What a host word address names (20_memory.md R44). -/
inductive Register where
  | cmd
  | status
  | errinfo
  | treeinfo
  | freq (x : Sym)
  | codelen (x : Sym)
  | nodeW (i : Idx)
  | nodeL (i : Idx)
  | codebits (x : Sym) (j : BitVec 3)
  | unmapped
  deriving DecidableEq, Repr

/-- The address map (20_memory.md R44, R46). -/
def registerAt (a : Addr) : Register :=
  if a = 0x000#12 then .cmd
  else if a = 0x001#12 then .status
  else if a = 0x002#12 then .errinfo
  else if a = 0x003#12 then .treeinfo
  else if a < 0x100#12 then .unmapped
  else if a < 0x200#12 then .freq (a.extractLsb' 0 8)
  else if a < 0x300#12 then .codelen (a.extractLsb' 0 8)
  else if a < 0x400#12 then .unmapped
  else if a < 0x7FE#12 then
    if a.getLsbD 0 then .nodeL (a.extractLsb' 1 9) else .nodeW (a.extractLsb' 1 9)
  else if a < 0x800#12 then .unmapped
  else .codebits (a.extractLsb' 3 8) (a.extractLsb' 0 3)

/-! Table words. -/

/-- The word CODELEN shows of a code: its length in `[7:0]`, the rest 0 (30_encoding.md R77). -/
def codelenWord (c : Bits) : Word := (BitVec.ofNat 8 c.length).setWidth 32

/-- Word `j` of CODEBITS of a code: bit `t` is the code's bit `32 j + t`, and 0 past the code's end
(30_encoding.md R78). -/
def codebitsWord (c : Bits) (j : BitVec 3) : Word :=
  BitVec.ofFnLE fun t : Fin 32 => c.getD (32 * j.toNat + t.val) false

/-- The word NODE_L shows of a slot: `leaf`, five zeros, `r`, `l`, `sym` (30_encoding.md R80). -/
def nodeLWord (n : Slot) : Word := BitVec.ofBool n.leaf ++ 0#5 ++ n.r ++ n.l ++ n.sym

end Sys2Proof.Machine
end

