-- ==== Sys2Proof/Machine/Flags.lean ====
section
/-! DEFINITION. The status flags as the host reads them: STATUS (10_state.md R27), TREEINFO (R29), and the
stream outputs (20_memory.md R52, R53, R55). -/

namespace Sys2Proof.Machine

/-- ERR: 1 if and only if ERRCODE is not 0; a copy, not state (10_state.md R27). -/
def State.err (s : State) : Bool := s.errcode != 0

/-- The word STATUS shows: `[31:16]` 0, OP, ERRCODE, `[7:6]` 0, WIGN, MIDPATH, TREE, ERR, DONE, BUSY
(10_state.md R27). -/
def statusWord (s : State) : Word :=
  0#16 ++ s.op ++ s.errcode ++ 0#2 ++ BitVec.ofBool s.wign ++ BitVec.ofBool s.midpath ++
    BitVec.ofBool s.rootValid ++ BitVec.ofBool s.err ++ BitVec.ofBool s.done ++ BitVec.ofBool s.busy

/-- The word TREEINFO shows: VALID, six zeros, NLEAF, seven zeros, ROOT (10_state.md R29). -/
def treeinfoWord (s : State) : Word :=
  BitVec.ofBool s.rootValid ++ 0#6 ++ s.nleaf ++ 0#7 ++ s.rootIdx

/-- `si_ready`: COUNT or ENCODE waits in `take(SYM_IN)` (20_memory.md R50, R52, R55). -/
def State.siReady (s : State) : Bool :=
  s.busy && s.phase == .take && (s.op == opcodeOf .count || s.op == opcodeOf .encode)

/-- `bi_ready`: DECODE waits in `take(BIT_IN)` (20_memory.md R50, R52, R55). -/
def State.biReady (s : State) : Bool := s.busy && s.phase == .take && s.op == opcodeOf .decode

/-- Bit EBIT of the code of ESYM, the bit ENCODE offers next (43_encoder.md R138). -/
def State.codeBit (s : State) : Bool := (symEntry s.code s.esym).getD s.ebit.toNat false

/-- The item the core offers on BIT_OUT; none while `bo_valid = 0` (20_memory.md R53, R55). -/
def State.boOffer (s : State) : Option (OutItem 1) :=
  if s.busy && s.op == opcodeOf .encode then
    match s.phase with
    | .emitBit => some (.data (BitVec.ofBool s.codeBit))
    | .close _ => some .endItem
    | _ => none
  else none

/-- The item the core offers on SYM_OUT; none while `so_valid = 0` (20_memory.md R53, R55). -/
def State.soOffer (s : State) : Option (OutItem 8) :=
  if s.busy && s.op == opcodeOf .decode then
    match s.phase with
    | .emitSym v => some (.data v)
    | .close _ => some .endItem
    | _ => none
  else none

end Sys2Proof.Machine
end

