-- ==== Sys2Proof/Machine/Ops.lean ====
section
/-! DEFINITION. The operations every command is written over: acceptance, the normal end, fault entry and
return, ignored writes, `take` and `put`, the empty tables, the busy period. -/

namespace Sys2Proof.Machine

/-! Fault codes (60_exceptions.md R160). -/

def eIllCmd : BitVec 4 := 1
def eCntOvf : BitVec 4 := 2
def eWgtOvf : BitVec 4 := 3
def eNoCode : BitVec 4 := 4
def eIo : BitVec 4 := 5

/-- The greatest count, `2^32 - 1` (40_frequency_counter.md R92). -/
def countMax : Word := 0xFFFFFFFF

/-! Start and end of a command. -/

/-- Acceptance of a command word with opcode `opc`: BUSY, DONE, OP and nothing else
(45_job_control.md R155). -/
def accept (opc : BitVec 4) (s : State) : State := { s with busy := true, done := false, op := opc }

/-- `finish()`: the normal end of a command (45_job_control.md R154). DESIGN CHOICE: CUR and the scratch state, whose
values are unspecified from here on, keep them (10_state.md R22; assumptions 7 and 8). -/
def finish (s : State) : State := { s with busy := false, done := true, phase := .idle }

/-- `raise Fault(code, info)`: fault entry. The fault is recorded and the command ends; there is no handler,
no saved counter and no mode change (60_exceptions.md R163). DESIGN CHOICE: CUR and the scratch state keep their
values, as in `finish` (assumptions 7 and 8). -/
def raiseFault (code : BitVec 4) (info : Word) (s : State) : State :=
  { s with errcode := code, errinfo := info, busy := false, done := true, phase := .idle }

/-- The end of a command whose END the sink has taken (60_exceptions.md R165). -/
def endCommand (e : Ending) (s : State) : State :=
  match e with
  | .finish => finish s
  | .fault code info => raiseFault code info s

/-- An ignored host write sets WIGN and changes nothing else (20_memory.md R43, 60_exceptions.md R173). -/
def ignoreWrite (s : State) : State := { s with wign := true }

/-! The empty tables. -/

/-- The empty Frequency Mapping (10_state.md R13). -/
def emptyFreq : Vector Word Config.nsym := Vector.replicate _ 0

/-- The empty Code Table (10_state.md R19). -/
def emptyCode : Vector Bits Config.nsym := Vector.replicate _ []

/-- No tree (10_state.md R17). -/
def discardTree (s : State) : State := { s with rootValid := false, rootIdx := Config.nil, nleaf := 0 }

/-- The return from a fault, and the empty job: everything CLR clears (45_job_control.md R156,
60_exceptions.md R168). DESIGN CHOICE: CUR and the scratch state, whose values are unspecified here, keep them
(10_state.md R22; assumptions 7 and 8). -/
def clearJob (s : State) : State :=
  { discardTree s with
    freq := emptyFreq, code := emptyCode, errcode := 0, errinfo := 0, midpath := false, wign := false }

/-- What reset leaves: every element of the core at its reset value (10_state.md R34, 70_reset_and_hazards.md
R190). The sources, the sinks and the schedule are outside the core and keep theirs (R192). -/
def resetCore (s : State) : State :=
  { State.reset with
    symIn := s.symIn, bitIn := s.bitIn, bitOut := s.bitOut, symOut := s.symOut, boReady := s.boReady,
    soReady := s.soReady, script := s.script, hReads := s.hReads, busyPeriod := s.busyPeriod,
    draws := s.draws }

/-! Stream transfers. -/

/-- `take(SYM_IN)`, then `k` of the item. With no item on offer the core waits (20_memory.md R52). -/
def takeSym (s : State) (k : InItem 8 → State → Outcome) : Outcome :=
  match s.symIn with
  | [] => .next s
  | it :: rest => k (readItem it) { s with symIn := rest }

/-- `take(BIT_IN)`, then `k` of the item. With no item on offer the core waits (20_memory.md R52). -/
def takeBit (s : State) (k : InItem 1 → State → Outcome) : Outcome :=
  match s.bitIn with
  | [] => .next s
  | it :: rest => k (readItem it) { s with bitIn := rest }

/-- `put(BIT_OUT, item)`, then `k`. While the sink is not ready the core keeps the item on offer
(20_memory.md R53). -/
def putBit (item : OutItem 1) (s : State) (k : State → State) : Outcome :=
  if s.boReady then .next (k { s with bitOut := s.bitOut ++ [item] }) else .next s

/-- `put(SYM_OUT, item)`, then `k`. While the sink is not ready the core keeps the item on offer
(20_memory.md R53). -/
def putSym (item : OutItem 8) (s : State) (k : State → State) : Outcome :=
  if s.soReady then .next (k { s with symOut := s.symOut ++ [item] }) else .next s

/-! The shapes of a command's move. -/

/-- One move of a command that has its whole effect in one move (CLR, BUILD, DERIVE). When BUSY = 0 the
command is accepted; its effect comes with the acceptance, or `busyPeriod` moves later
(45_job_control.md R153). -/
def atomicMove (opc : BitVec 4) (effect : State → Outcome) (s : State) : Outcome :=
  if s.busy then
    match s.phase with
    | .working 0 => effect s
    | .working (n + 1) => .next { s with phase := .working n }
    | _ => .fault .sequencerLost
  else
    match s.busyPeriod with
    | 0 => effect (accept opc s)
    | n + 1 => .next { accept opc s with phase := .working n }

/-- One move of a command that moves items (COUNT, ENCODE, DECODE): its acceptance with `start` when
BUSY = 0, else its next transfer (45_job_control.md R153). -/
def streamMove (opc : BitVec 4) (start : State → State) (transfer : State → Outcome) (s : State) : Outcome :=
  if s.busy then transfer s else .next (start (accept opc s))

end Sys2Proof.Machine
end

