-- ==== Sys2Proof/Machine/Builder.lean ====
section
/-! DEFINITION. The Tree Builder: BUILD (41_tree_builder.md R100 to R112). -/

namespace Sys2Proof.Machine

/-- The sum of all 256 counts, computed without wrap-around (R102). -/
def freqSum (freq : Vector Word Config.nsym) : Nat := (freq.toList.map BitVec.toNat).sum

/-- The number of symbols with a count that is not 0: `k`, the number of leaves (R103). -/
def leafCount (freq : Vector Word Config.nsym) : Nat := freq.toList.countP (· != 0)

/-- The leaf of the symbol of slot `i` (R103; 10_state.md R15). -/
def leafSlot (i : Nat) (w : Word) : Slot :=
  { w := w, leaf := true, sym := BitVec.ofNat 8 i, l := Config.nil, r := Config.nil }

/-- The slots from index `i` on, with a leaf for every symbol whose count is not 0; the others keep their
contents (R103). -/
def putLeaves : Nat → List Word → List Slot → List Slot
  | i, w :: ws, old :: rest => (if w = 0 then old else leafSlot i w) :: putLeaves (i + 1) ws rest
  | _, _, rest => rest

theorem putLeaves_length (i : Nat) (ws : List Word) (ns : List Slot) :
    (putLeaves i ws ns).length = ns.length := by
  induction ws generalizing i ns with
  | nil => cases ns <;> rfl
  | cons w ws ih => cases ns <;> simp [putLeaves, ih]

/-- Sub-step 3: the leaf of symbol `s` goes to slot `s`, and the collection holds exactly these leaves
(R103). -/
def makeLeaves (freq : Vector Word Config.nsym) (node : Vector Slot Config.nnode) : Store where
  node := ⟨(putLeaves 0 freq.toList node.toList).toArray, by
    rw [List.size_toArray, putLeaves_length, Vector.length_toList]⟩
  act := ⟨(freq.toList.map (· != 0) ++ List.replicate 255 false).toArray, by
    rw [List.size_toArray, List.length_append, List.length_map, Vector.length_toList, List.length_replicate]⟩
  next := Config.firstInternal

/-- The order of the collection: by weight, then by `TIE` (R106; 00_scope.md R38). -/
def keyBefore (w₁ : Word) (i₁ : Idx) (w₂ : Word) (i₂ : Idx) : Bool :=
  decide (w₁ < w₂) || (w₁ == w₂ && Config.tie i₁ i₂)

/-- The member of the collection with the least key and its weight, among the slots from index `i` on. -/
def leastFrom : Nat → List (Bool × Slot) → Option (Idx × Word)
  | _, [] => none
  | i, (false, _) :: rest => leastFrom (i + 1) rest
  | i, (true, n) :: rest =>
    match leastFrom (i + 1) rest with
    | none => some (BitVec.ofNat 9 i, n.w)
    | some (j, w) => if keyBefore n.w (BitVec.ofNat 9 i) w j then some (BitVec.ofNat 9 i, n.w) else some (j, w)

/-- `argmin` over the collection of the key `(w, i)`: index and weight; none when it is empty (R100). -/
def Store.least (b : Store) : Option (Idx × Word) := leastFrom 0 (b.act.toList.zip b.node.toList)

/-- `ACT[i] <- 0`. -/
def Store.remove (b : Store) (i : Idx) : Store := { b with act := b.act.setIfInBounds i.toNat false }

/-- The internal node over `m₁` and `m₂`, first removed left (R104; 10_state.md R16). -/
def joinSlot (m₁ : Idx) (w₁ : Word) (m₂ : Idx) (w₂ : Word) : Slot :=
  { w := w₁ + w₂, leaf := false, sym := 0, l := m₁, r := m₂ }

/-- Slot NEXT gets the new node, which enters the collection; NEXT advances (R104). -/
def Store.insertNext (b : Store) (n : Slot) : Store :=
  { node := b.node.setIfInBounds b.next.toNat n
    act := b.act.setIfInBounds b.next.toNat true
    next := b.next + 1 }

/-- One merge: the two least nodes become the children of a new one; none when fewer than two are left
(sub-step 4, R104). -/
def Store.merge (b : Store) : Option Store :=
  match b.least with
  | none => none
  | some (m₁, w₁) =>
    match (b.remove m₁).least with
    | none => none
    | some (m₂, w₂) => some (((b.remove m₁).remove m₂).insertNext (joinSlot m₁ w₁ m₂ w₂))

/-- Sub-step 4: merge while two nodes are left, at most `fuel` times. -/
def Store.mergeAll : Nat → Store → Store
  | 0, b => b
  | fuel + 1, b =>
    match b.merge with
    | none => b
    | some b' => b'.mergeAll fuel

/-- The store after sub-steps 3 and 4. A BUILD performs at most 255 merges (R104). -/
def buildStore (freq : Vector Word Config.nsym) (node : Vector Slot Config.nnode) : Store :=
  (makeLeaves freq node).mergeAll Config.lenMax

/-- Sub-step 5: the one node left is the root; with none left there is no tree (R105, R107). -/
def plantRoot (k : Nat) (s : State) (b : Store) : State :=
  let t := { s with node := b.node, act := b.act, nextSlot := b.next }
  match b.least with
  | none => t
  | some (i, _) => { t with rootValid := true, rootIdx := i, nleaf := BitVec.ofNat 9 k }

/-- Sub-step 1: the old tree is discarded and the code table emptied (R101). -/
def buildClear (s : State) : State := { discardTree s with code := emptyCode }

/-- The effect of BUILD (R100): the weight check of R102 comes before any node is written. -/
def buildEffect (s : State) : State :=
  if 2 ^ 32 ≤ freqSum s.freq then raiseFault eWgtOvf 0 (buildClear s)
  else finish (plantRoot (leafCount s.freq) (buildClear s) (buildStore s.freq s.node))

/-- One move of BUILD. -/
def execBuild (s : State) : Outcome := atomicMove (opcodeOf .build) (fun t => .next (buildEffect t)) s

end Sys2Proof.Machine
end

