-- ==== Sys2Proof/Machine/Counter.lean ====
section
/-! DEFINITION. The Frequency Counter: COUNT (40_frequency_counter.md R90 to R95). -/

namespace Sys2Proof.Machine

/-- Sub-step 1: a fresh mapping, cleared with the acceptance (R90, R91). -/
def countStart (s : State) : State := { s with freq := emptyFreq, phase := .take }

/-- Sub-step 2 on one item taken: count it, or raise E_CNTOVF with the count unchanged (R92); END finishes;
ERROR raises E_IO (R90). -/
def countItem (it : InItem 8) (s : State) : State :=
  match it with
  | .data x =>
    if symEntry s.freq x = countMax then raiseFault eCntOvf (x.setWidth 32) s
    else { s with freq := setSymEntry s.freq x (symEntry s.freq x + 1) }
  | .endItem => finish s
  | .errorItem => raiseFault eIo 0 s

/-- The next transfer of a running COUNT. -/
def countTransfer (s : State) : Outcome :=
  match s.phase with
  | .take => takeSym s fun it t => .next (countItem it t)
  | _ => .fault .sequencerLost

/-- One move of COUNT. -/
def execCount (s : State) : Outcome := streamMove (opcodeOf .count) countStart countTransfer s

end Sys2Proof.Machine
end

