-- ==== Sys2Proof/Machine/Decoder.lean ====
section
/-! DEFINITION. The Decoder: DECODE, one move per transfer (44_decoder.md R140 to R149). -/

namespace Sys2Proof.Machine

/-- The start of DECODE: MIDPATH is cleared; with no tree only the END of the output is left to put (R141);
else the cursor is set to the root (R142). DESIGN CHOICE: with no tree CUR, which nothing reads, keeps its value
(assumption 7). -/
def decodeStart (s : State) : State :=
  if s.rootValid then { s with midpath := false, cur := s.rootIdx, phase := .take }
  else { s with midpath := false, phase := .close .finish }

/-- The child the input bit selects: 1 right, 0 left (R143). -/
def childOf (n : Slot) (b : BitVec 1) : Idx := if b = 1 then n.r else n.l

/-- One bit: the cursor moves, and the new cursor decides: null emits the root leaf's symbol, a leaf its own
symbol, an internal node nothing (R143, R146). -/
def decodeBit (b : BitVec 1) (s : State) : Outcome :=
  match slotAt s.node s.cur with
  | none => .fault .slotMissing
  | some n =>
    if childOf n b = Config.nil then
      match slotAt s.node s.rootIdx with
      | none => .fault .slotMissing
      | some root => .next { s with cur := Config.nil, phase := .emitSym root.sym }
    else
      match slotAt s.node (childOf n b) with
      | none => .fault .slotMissing
      | some m =>
        if m.leaf then .next { s with cur := childOf n b, phase := .emitSym m.sym }
        else .next { s with cur := childOf n b }

/-- One item taken from BIT_IN: a bit moves the cursor; END records a path cut short in MIDPATH (R144);
ERROR raises E_IO after the END of the output (R145). -/
def decodeItem (it : InItem 1) (s : State) : Outcome :=
  match it with
  | .data b => decodeBit b s
  | .endItem => .next { s with midpath := s.cur != s.rootIdx, phase := .close .finish }
  | .errorItem => .next { s with phase := .close (.fault eIo 0) }

/-- The sink has taken the symbol: the cursor returns to the root (R140, R142). -/
def decodeAdvance (s : State) : State := { s with cur := s.rootIdx, phase := .take }

/-- The next transfer of a running DECODE. -/
def decodeTransfer (s : State) : Outcome :=
  match s.phase with
  | .take => takeBit s decodeItem
  | .emitSym v => putSym (.data v) s decodeAdvance
  | .close e => putSym .endItem s (endCommand e)
  | _ => .fault .sequencerLost

/-- One move of DECODE. -/
def execDecode (s : State) : Outcome := streamMove (opcodeOf .decode) decodeStart decodeTransfer s

end Sys2Proof.Machine
end

