-- ==== Sys2Proof/Machine/Deriver.lean ====
section
/-! DEFINITION. The Code Table Deriver: DERIVE (42_code_table.md R120 to R127). -/

namespace Sys2Proof.Machine

/-- `walk(i, p)` (R120, R123): a leaf records its path; an internal node keeps its right branch on the stack
(10_state.md R32) while the left one is walked. `fuel` levels may still be visited. -/
def walk (node : Vector Slot Config.nnode) : Nat → Idx → Bits → Walk → Except Fault Walk
  | 0, _, _, _ => .error .walkTooDeep
  | fuel + 1, i, p, t =>
    match slotAt node i with
    | none => .error .slotMissing
    | some n =>
      if n.leaf then .ok { t with code := setSymEntry t.code n.sym p }
      else
        match walk node fuel n.l (p ++ [false]) { t with stack := (n.r, p ++ [true]) :: t.stack } with
        | .error e => .error e
        | .ok t' =>
          match t'.stack with
          | [] => .ok t'
          | (r, q) :: rest => walk node fuel r q { t' with stack := rest }

/-- Sub-step 2 on a tree with root slot `root`: the single leaf gets `ONEBIT` (R122), every other tree is
walked from its root (R123), to depth `LEN_MAX`. -/
def deriveTree (node : Vector Slot Config.nnode) (root : Idx) (t : Walk) : Except Fault Walk :=
  match slotAt node root with
  | none => .error .slotMissing
  | some n =>
    if n.leaf then .ok { t with code := setSymEntry t.code n.sym [Config.onebit] }
    else walk node (Config.lenMax + 1) root [] t

/-- The effect of DERIVE: a fresh table (R125), empty when there is no tree (R121). -/
def deriveEffect (s : State) : Outcome :=
  if s.rootValid then
    match deriveTree s.node s.rootIdx { code := emptyCode, stack := [] } with
    | .error e => .fault e
    | .ok t => .next (finish { s with code := t.code, stack := t.stack })
  else .next (finish { s with code := emptyCode, stack := [] })

/-- One move of DERIVE. -/
def execDerive (s : State) : Outcome := atomicMove (opcodeOf .derive) deriveEffect s

end Sys2Proof.Machine
end

