-- ==== Sys2Proof/Machine/Encoder.lean ====
section
/-! DEFINITION. The Encoder: ENCODE, one move per transfer (43_encoder.md R130 to R139). -/

namespace Sys2Proof.Machine

/-- The start of ENCODE: it waits for the first item and changes no table (R130). -/
def encodeStart (s : State) : State := { s with phase := .take }

/-- One item taken from SYM_IN: a symbol with a code is emitted bit by bit (R131, R138); a symbol without a
code raises E_NOCODE (R133), END finishes (R132), ERROR raises E_IO (R135), each after the END of the
output. -/
def encodeItem (it : InItem 8) (s : State) : State :=
  match it with
  | .data x =>
    if symEntry s.code x = [] then { s with phase := .close (.fault eNoCode (x.setWidth 32)) }
    else { s with esym := x, ebit := 0, phase := .emitBit }
  | .endItem => { s with phase := .close .finish }
  | .errorItem => { s with phase := .close (.fault eIo 0) }

/-- The sink has taken bit EBIT of the code of ESYM: the next bit, or, after the last, the next item
(R138). -/
def encodeAdvance (s : State) : State :=
  if s.ebit.toNat + 1 < (symEntry s.code s.esym).length then { s with ebit := s.ebit + 1 }
  else { s with ebit := s.ebit + 1, phase := .take }

/-- The next transfer of a running ENCODE. -/
def encodeTransfer (s : State) : Outcome :=
  match s.phase with
  | .take => takeSym s fun it t => .next (encodeItem it t)
  | .emitBit => putBit (.data (BitVec.ofBool s.codeBit)) s encodeAdvance
  | .close e => putBit .endItem s (endCommand e)
  | _ => .fault .sequencerLost

/-- One move of ENCODE. -/
def execEncode (s : State) : Outcome := streamMove (opcodeOf .encode) encodeStart encodeTransfer s

end Sys2Proof.Machine
end

