-- ==== Sys2Proof/Machine/JobControl.lean ====
section
/-! DEFINITION. Job control: CLR (45_job_control.md R156). -/

namespace Sys2Proof.Machine

/-- The effect of CLR: the empty job, then `finish()` (45_job_control.md R156). -/
def clrEffect (s : State) : State := finish (clearJob s)

/-- One move of CLR. -/
def execClr (s : State) : Outcome := atomicMove (opcodeOf .clr) (fun t => .next (clrEffect t)) s

end Sys2Proof.Machine
end

