-- ==== Sys2Proof/Machine/HostBus.lean ====
section
/-! DEFINITION. The host register bus: reads and the writes that are no command (20_memory.md R42 to R47). -/

namespace Sys2Proof.Machine

/-- The word a host read of a register returns; none where the spec leaves it unspecified: a table or
TREEINFO while BUSY = 1 (20_memory.md R47), a slot that is not live (10_state.md R35). -/
def readRegister (r : Register) (s : State) : Option Word :=
  match r with
  | .cmd => some 0
  | .status => some (statusWord s)
  | .errinfo => some s.errinfo
  | .treeinfo => if s.busy then none else some (treeinfoWord s)
  | .freq x => if s.busy then none else some (symEntry s.freq x)
  | .codelen x => if s.busy then none else some (codelenWord (symEntry s.code x))
  | .nodeW i => if s.busy || !s.live i then none else (slotAt s.node i).map (·.w)
  | .nodeL i => if s.busy || !s.live i then none else (slotAt s.node i).map nodeLWord
  | .codebits x j => if s.busy then none else some (codebitsWord (symEntry s.code x) j)
  | .unmapped => some 0

/-- A host read of word address `a`: no register changes (20_memory.md R42). An unspecified word is the next
draw of the free value (assumption 5). -/
def hostRead (a : Addr) (s : State) : State :=
  match readRegister (registerAt a) s with
  | some w => { s with hReads := s.hReads ++ [(a, w)] }
  | none => { s with hReads := s.hReads ++ [(a, Config.freeWord s.draws)], draws := s.draws + 1 }

/-- A host write to a register other than CMD: FREQ is written when BUSY = 0, every other write is ignored
(20_memory.md R43, R45, R46, R47; 40_frequency_counter.md R93). -/
def writeRegister (r : Register) (v : Word) (s : State) : State :=
  match r with
  | .freq x => if s.busy then ignoreWrite s else { s with freq := setSymEntry s.freq x v }
  | _ => ignoreWrite s

end Sys2Proof.Machine
end

