-- ==== Sys2Proof/Machine/Sequencer.lean ====
section
/-! DEFINITION. The moves of the machine: a command word offered (45_job_control.md R151), the running
command's next move (R153), and the moves of the outside world (00_scope.md R6). -/

namespace Sys2Proof.Machine

/-- A command word offered to the sequencer: dropped while BUSY = 1; dropped while a fault is recorded unless
it is CLR; else accepted, and an illegal word raises E_ILLCMD (45_job_control.md R151, R152). -/
def offerCommand (w : Word) (s : State) : Outcome :=
  if s.busy then .next (ignoreWrite s)
  else if s.errcode ≠ 0 ∧ w ≠ encode .clr then .next (ignoreWrite s)
  else
    match decode w with
    | .error _ => .next (raiseFault eIllCmd w (accept (splitWord w).opc s))
    | .ok i => exec i s

/-- A move of the core: the next move of the running command; with none running the core is idle and keeps
all state (60_exceptions.md R176). -/
def coreMove (s : State) : Outcome :=
  if s.busy then
    match instrOfOpcode s.op with
    | some i => exec i s
    | none => .fault .sequencerLost
  else .next s

/-- A host write (20_memory.md R43). -/
def hostWrite (a : Addr) (v : Word) (s : State) : Outcome :=
  match registerAt a with
  | .cmd => offerCommand v s
  | r => .next (writeRegister r v s)

/-- A move of the schedule. -/
def perform (m : Move) (s : State) : Outcome :=
  match m with
  | .core => coreMove s
  | .hRead a => .next (hostRead a s)
  | .hWrite a v => hostWrite a v s
  | .symOffer it => .next { s with symIn := s.symIn ++ [it] }
  | .bitOffer it => .next { s with bitIn := s.bitIn ++ [it] }
  | .bitReady b => .next { s with boReady := b }
  | .symReady b => .next { s with soReady := b }
  | .pace n => .next { s with busyPeriod := n }
  | .reset => .next (resetCore s)

/-- The next move: the head of the schedule, or the core's when nothing is scheduled (assumption 2). -/
def nextMove (s : State) : Outcome :=
  match s.script with
  | [] => coreMove s
  | m :: rest => perform m { s with script := rest }

/-- The command word `w` written to CMD as the very next move, with the sequencer idle and no fault
recorded, so that the word is accepted (45_job_control.md R151; assumption 3). -/
def placeCommand (w : Word) (s : State) : State :=
  { s with
    script := .hWrite 0 w :: s.script, busy := false, phase := .idle, errcode := 0, errinfo := 0 }

end Sys2Proof.Machine
end

