-- ==== Sys2Proof/Machine/Step.lean ====
section
/-! DEFINITION. One step of the machine, and how the host places a command for the next one. -/

namespace Sys2Proof.Machine

/-- One step: the next move (00_scope.md R6, 45_job_control.md R153). -/
def step (s : State) : Host.Outcome State Fault Refusal := nextMove s

/-- The command whose bits are `w`, of which the table gives `nbits`, written to CMD by the next move. -/
def State.withFetchWord (s : State) (nbits w : Nat) : State :=
  placeCommand (BitVec.ofNat 32 (w % 2 ^ nbits)) s

end Sys2Proof.Machine
end

