-- ==== Sys2Proof/Safety.lean ====
section
/-! DEFINITION. The terms claims are stated in: the Code Tree a store holds (10_state.md R18), codes and
decoding over it, what a run is, what a move leaves alone, and the invariant of the machine. -/

namespace Sys2Proof

open Sys2Proof.Machine

/-! The Code Tree as a tagged variant (10_state.md R18). -/

/-- The document's Code Tree: a leaf holds a weight and a symbol, an internal node a weight and two
children. -/
inductive Tree where
  | leaf (w : Nat) (x : Sym)
  | node (w : Nat) (l r : Tree)
  deriving DecidableEq, Repr

/-- `T(i)`: the tree below slot `i`, if it has at most `fuel` levels (10_state.md R18). -/
def treeAt (node : Vector Slot Config.nnode) : Nat → Idx → Option Tree
  | 0, _ => none
  | fuel + 1, i =>
    match slotAt node i with
    | none => none
    | some n =>
      if n.leaf then some (.leaf n.w.toNat n.sym)
      else
        match treeAt node fuel n.l, treeAt node fuel n.r with
        | some a, some b => some (.node n.w.toNat a b)
        | _, _ => none

/-- `tree(ROOT)`: the Code Tree the state holds; none when there is no tree (10_state.md R18). -/
def Machine.State.tree (s : State) : Option Tree :=
  if s.rootValid then treeAt s.node (Config.lenMax + 1) s.rootIdx else none

namespace Tree

/-- The weight of the root. -/
def weight : Tree → Nat
  | leaf w _ => w
  | node w _ _ => w

/-- The leaves from left to right: symbol and weight. -/
def leaves : Tree → List (Sym × Nat)
  | leaf w x => [(x, w)]
  | node _ l r => l.leaves ++ r.leaves

/-- The weights of the internal nodes. -/
def innerWeights : Tree → List Nat
  | leaf _ _ => []
  | node w l r => w :: (l.innerWeights ++ r.innerWeights)

/-- Every leaf with its path from the root: `false` for left, `true` for right (42_code_table.md R123). -/
def paths : Tree → List (Sym × Bits)
  | leaf _ x => [(x, [])]
  | node _ l r =>
    (l.paths.map fun e => (e.1, false :: e.2)) ++ (r.paths.map fun e => (e.1, true :: e.2))

/-- Whether the tree is a single leaf. -/
def isLeaf : Tree → Bool
  | leaf _ _ => true
  | node _ _ _ => false

/-- The Code Table of the tree as a function: `ONEBIT` for the only symbol of a single leaf
(42_code_table.md R122), else the path to the symbol's leaf, `[]` for a symbol that is no leaf (R120). -/
def codeOf (t : Tree) (x : Sym) : Bits :=
  match t with
  | leaf _ y => if x = y then [Config.onebit] else []
  | node _ _ _ => (t.paths.lookup x).getD []

/-- Every leaf weight is at least 1 and every internal weight is the sum of its children's
(10_state.md R18). -/
def weightsOk : Tree → Prop
  | leaf w _ => 1 ≤ w
  | node w l r => w = l.weight + r.weight ∧ l.weightsOk ∧ r.weightsOk

/-- The leaves' symbols are pairwise distinct (10_state.md R18). -/
def distinct (t : Tree) : Prop := (t.leaves.map (·.1)).Nodup

/-- The child an input bit selects: `true` right, `false` left; a leaf has none and stays. -/
def child : Tree → Bool → Tree
  | leaf w x, _ => leaf w x
  | node _ l r, b => if b then r else l

/-- The decoder of 44_decoder.md R146 on a list of bits: the symbols it emits, and whether it ends inside a
path. `pos` is the internal node below the root that the cursor rests on, none for the root. -/
def decodeFrom (t : Tree) : Option Tree → Bits → List Sym × Bool
  | pos, [] => ([], pos.isSome)
  | pos, b :: bs =>
    match t with
    | leaf _ x => (x :: (decodeFrom t none bs).1, (decodeFrom t none bs).2)
    | node _ _ _ =>
      match (pos.getD t).child b with
      | leaf _ x => (x :: (decodeFrom t none bs).1, (decodeFrom t none bs).2)
      | node w l r => decodeFrom t (some (node w l r)) bs

end Tree

/-- The Frequency Mapping a table holds: the symbols whose count is not 0, in ascending order, each with its
count (10_state.md R13). -/
def mapping (freq : Vector Word Config.nsym) : List (Sym × Nat) :=
  ((List.finRange Config.nsym).filter fun i => freq[i] != 0).map fun i => (BitVec.ofFin i, freq[i].toNat)

/-- The cost of a code under a Frequency Mapping: the sum over all symbols of count times code length
(42_code_table.md R126). -/
def codeCost (freq : Vector Word Config.nsym) (c : Sym → Bits) : Nat :=
  ((List.finRange Config.nsym).map fun i => freq[i].toNat * (c (BitVec.ofFin i)).length).sum

/-- No code of a symbol of the mapping is a prefix of the code of another one
(42_code_table.md R126; 10_state.md R13). -/
def prefixFree (freq : Vector Word Config.nsym) (c : Sym → Bits) : Prop :=
  ∀ x y, symEntry freq x ≠ 0 → symEntry freq y ≠ 0 → x ≠ y → ¬ c x <+: c y

/-! Streams. -/

/-- The DATA item of a symbol at the pins, kind `0b00` (30_encoding.md R74). -/
def symItem (x : Sym) : RawItem 8 := { kind := 0, data := x }

/-- The DATA item of a bit at the pins. -/
def bitItem (b : Bool) : RawItem 1 := { kind := 0, data := BitVec.ofBool b }

/-- The END item at the pins, kind `0b01`. -/
def endOfInput (n : Nat) : RawItem n := { kind := 1, data := 0 }

/-- The DATA items a sink takes for a list of bits. -/
def bitData (bs : Bits) : List (OutItem 1) := bs.map fun b => .data (BitVec.ofBool b)

/-- The DATA items a sink takes for a list of symbols. -/
def symData (xs : List Sym) : List (OutItem 8) := xs.map .data

/-! Runs. -/

/-- `t` is reached from `s` by some number of steps, none of which stops. -/
def Reaches (s t : State) : Prop := ∃ k, Host.Core.run core k s = .next t

/-- The host writes the word `w` to CMD in state `s`, nothing else is scheduled, and the machine comes to
`t` with BUSY = 0 (30_encoding.md R81: `cmdw w; wait`). -/
def Completes (w : Word) (s t : State) : Prop :=
  Reaches { s with script := [.hWrite 0 w] } t ∧ t.busy = false ∧ t.script = []

/-- Both sinks take every item offered. -/
def sinksReady (s : State) : Prop := s.boReady = true ∧ s.soReady = true

/-- No command runs and no fault is recorded: the next command word is accepted
(45_job_control.md R151). -/
def acceptsCommand (s : State) : Prop := s.busy = false ∧ s.errcode = 0

/-- The state from which an atomic command (CLR, BUILD, DERIVE) has its effect in the next move of it: it is
accepted with no busy period, or its busy period is over (45_job_control.md R153). -/
def effectDue (i : Instr) (s : State) : Prop :=
  (s.busy = false ∧ s.busyPeriod = 0) ∨ (s.busy = true ∧ s.op = opcodeOf i ∧ s.phase = .working 0)

/-- Command `i` has ended: BUSY = 0, DONE = 1, and OP names it (45_job_control.md R154, R155). -/
def ended (i : Instr) (t : State) : Prop := t.busy = false ∧ t.done = true ∧ t.op = opcodeOf i

/-- Command `i` is running and waits in `take` (20_memory.md R52). -/
def waitsToTake (i : Instr) (s : State) : Prop := s.busy = true ∧ s.op = opcodeOf i ∧ s.phase = .take

/-! What a move leaves alone. -/

def sameTree (s t : State) : Prop :=
  t.node = s.node ∧ t.rootValid = s.rootValid ∧ t.rootIdx = s.rootIdx ∧ t.nleaf = s.nleaf

def sameRecord (s t : State) : Prop := t.errcode = s.errcode ∧ t.errinfo = s.errinfo

def sameBuildScratch (s t : State) : Prop := t.act = s.act ∧ t.nextSlot = s.nextSlot

def sameEncodeScratch (s t : State) : Prop := t.esym = s.esym ∧ t.ebit = s.ebit

def sameStreams (s t : State) : Prop :=
  t.symIn = s.symIn ∧ t.bitIn = s.bitIn ∧ t.bitOut = s.bitOut ∧ t.symOut = s.symOut

/-- The sinks' ready inputs, the schedule, the host's reads and the model's counters. -/
def sameOutside (s t : State) : Prop :=
  t.boReady = s.boReady ∧ t.soReady = s.soReady ∧ t.script = s.script ∧ t.hReads = s.hReads ∧
    t.busyPeriod = s.busyPeriod ∧ t.draws = s.draws

/-- The next move is a reset (70_reset_and_hazards.md R190). -/
def nextIsReset (s : State) : Prop := s.script.head? = some .reset

/-- The next move is a host write of `v` to word address `a` (20_memory.md R43). -/
def nextWrites (a : Addr) (v : Word) (s : State) : Prop := s.script.head? = some (.hWrite a v)

/-- The next move is a move of command `i`: its word is written to CMD while BUSY = 0, or it is the running
command and the core moves. -/
def nextRuns (i : Instr) (s : State) : Prop :=
  (s.busy = false ∧ s.script.head? = some (.hWrite 0 (encode i))) ∨
    (s.busy = true ∧ s.op = opcodeOf i ∧ (s.script = [] ∨ s.script.head? = some .core))

/-! The priority collection of BUILD (10_state.md R31). -/

/-- Slot `i` is in the collection: `ACT[i] = 1`. -/
def Machine.Store.has (b : Store) (i : Idx) : Bool := b.act[i.toNat]?.getD false

/-- `NODE[i].w`. -/
def Machine.Store.weightAt (b : Store) (i : Idx) : Word :=
  match slotAt b.node i with
  | some n => n.w
  | none => 0

/-- `m` is the member of the collection with the least key `(w, i)` (41_tree_builder.md R100, R106). -/
def Machine.Store.isLeast (b : Store) (m : Idx) : Prop :=
  b.has m = true ∧ ∀ j, b.has j = true → j ≠ m →
    b.weightAt m < b.weightAt j ∨ (b.weightAt m = b.weightAt j ∧ m < j)

/-! The invariant. -/

/-- A live leaf slot (10_state.md R15). -/
def LeafOk (node : Vector Slot Config.nnode) (i : Idx) : Prop :=
  ∃ n, slotAt node i = some n ∧ n.leaf = true ∧ n.sym = i.setWidth 8 ∧ n.l = Config.nil ∧
    n.r = Config.nil ∧ 1 ≤ n.w.toNat

/-- A slot that may be a child or the root: a leaf slot holds a leaf (10_state.md R15, R16). -/
def ChildOk (node : Vector Slot Config.nnode) (i : Idx) : Prop := i.toNat < 256 → LeafOk node i

/-- A live internal slot (10_state.md R16): two different children of smaller index, the weight the sum of
theirs. -/
def InternalOk (node : Vector Slot Config.nnode) (i : Idx) : Prop :=
  ∃ n a b, slotAt node i = some n ∧ n.leaf = false ∧ n.sym = 0 ∧ n.l.toNat < i.toNat ∧
    n.r.toNat < i.toNat ∧ n.l ≠ n.r ∧ ChildOk node n.l ∧ ChildOk node n.r ∧
    slotAt node n.l = some a ∧ slotAt node n.r = some b ∧ n.w.toNat = a.w.toNat + b.w.toNat

/-- The slots of a tree BUILD leaves, with root slot `root` (10_state.md R15, R16). -/
def StoreOk (node : Vector Slot Config.nnode) (root : Idx) : Prop :=
  root.toNat < 511 ∧ ChildOk node root ∧
    ∀ i : Idx, 256 ≤ i.toNat → i.toNat ≤ root.toNat → InternalOk node i

/-- A tree BUILD leaves, as a value (10_state.md R18). -/
def TreeOk (t : Tree) : Prop := t.weightsOk ∧ t.distinct ∧ t.weight < 2 ^ 32

/-- The faults a command with an output stream can end in (60_exceptions.md R161). -/
def EndingOk (i : Instr) : Ending → Prop
  | .finish => True
  | .fault c _ => c = eIo ∨ (i = .encode ∧ c = eNoCode)

/-- The position of a running command is one it has (45_job_control.md R153), with what that position
needs: a bit to emit, a tree and a cursor on the root or on an internal slot. -/
def PositionOk (s : State) : Prop :=
  match instrOfOpcode s.op, s.phase with
  | some .clr, .working _ => True
  | some .build, .working _ => True
  | some .derive, .working _ => True
  | some .count, .take => True
  | some .encode, .take => True
  | some .encode, .emitBit => s.ebit.toNat < (symEntry s.code s.esym).length
  | some .encode, .close e => EndingOk .encode e
  | some .decode, .take =>
    s.rootValid = true ∧ (s.cur = s.rootIdx ∨ (256 ≤ s.cur.toNat ∧ s.cur.toNat ≤ s.rootIdx.toNat))
  | some .decode, .emitSym _ => s.rootValid = true
  | some .decode, .close e => EndingOk .decode e
  | _, _ => False

/-- The invariant of the machine. -/
structure Inv (s : State) : Prop where
  /-- With no command running the sequencer has no position. -/
  idle : s.busy = false → s.phase = .idle
  /-- BUSY = 1 implies DONE = 0 (10_state.md R23). -/
  notDone : s.busy = true → s.done = false
  /-- A command runs only while no fault is recorded, CLR apart (45_job_control.md R151). -/
  noFaultRuns : s.busy = true → s.errcode = 0 ∨ s.op = opcodeOf .clr
  /-- A running command is in one of its positions. -/
  position : s.busy = true → PositionOk s
  /-- ERRCODE is 0 to 5 (60_exceptions.md R160). -/
  errcodeLe : s.errcode.toNat ≤ 5
  /-- ERRINFO is 0 while no fault is recorded (10_state.md R24). -/
  errinfoZero : s.errcode = 0 → s.errinfo = 0
  /-- With no tree ROOT.idx is NIL and NLEAF is 0 (10_state.md R17). -/
  noTree : s.rootValid = false → s.rootIdx = Config.nil ∧ s.nleaf = 0
  /-- With a tree the slots are as BUILD leaves them (10_state.md R15, R16). -/
  store : s.rootValid = true → StoreOk s.node s.rootIdx
  /-- With a tree the store holds a Code Tree with NLEAF leaves (10_state.md R17, R18). -/
  tree : s.rootValid = true → ∃ t, s.tree = some t ∧ TreeOk t ∧ t.leaves.length = s.nleaf.toNat
  /-- Codes have at most 255 bits (10_state.md R19). -/
  codeLen : ∀ x, (symEntry s.code x).length ≤ Config.lenMax
  /-- The table is empty or the one DERIVE computes from the current tree (10_state.md R21). -/
  codeTable : s.code = emptyCode ∨ ∃ t, s.tree = some t ∧ ∀ x, symEntry s.code x = t.codeOf x

end Sys2Proof
end

