-- ==== Sys2Proof/Certificates/Slice0/Obligations.lean ====
section
/-! DEFINITION. What the provers are asked to prove of the model, from the spec's numbered rules. -/

open Sys2Proof Sys2Proof.Machine

/-! Reset. -/

/-- 10_state.md R34 (the elements to which R34 gives a value), 20_memory.md R55: after reset the core is in the
empty job and all four streams are idle. -/
def Obligations.ResetState : Prop :=
  (∀ x, symEntry State.reset.freq x = 0) ∧ (∀ x, symEntry State.reset.code x = []) ∧
  State.reset.rootValid = false ∧ State.reset.rootIdx = 0x1FF#9 ∧ State.reset.nleaf = 0 ∧
  State.reset.busy = false ∧ State.reset.done = false ∧ State.reset.op = 0 ∧
  State.reset.errcode = 0 ∧ State.reset.errinfo = 0 ∧
  State.reset.midpath = false ∧ State.reset.wign = false ∧
  readRegister .status State.reset = some 0x00000000#32 ∧
  readRegister .errinfo State.reset = some 0x00000000#32 ∧
  readRegister .treeinfo State.reset = some 0x000001FF#32 ∧
  State.reset.siReady = false ∧ State.reset.biReady = false ∧
  State.reset.boOffer = none ∧ State.reset.soOffer = none

/-- 70_reset_and_hazards.md R190, R192: reset from any state, a running command included, leaves every element
to which R34 gives a value at that value; no END is put, an item on offer by the core is withdrawn, and the
items the sources offer stay. -/
def Obligations.ResetFromAnyState : Prop :=
  ∀ (s : State) (rest : List Move), s.script = .reset :: rest →
    ∃ t, step s = .next t ∧
      t.freq = State.reset.freq ∧ t.code = State.reset.code ∧ t.rootValid = false ∧
      t.rootIdx = Config.nil ∧ t.nleaf = 0 ∧ t.busy = false ∧ t.done = false ∧ t.op = 0 ∧
      t.errcode = 0 ∧ t.errinfo = 0 ∧ t.midpath = false ∧ t.wign = false ∧
      t.boOffer = none ∧ t.soOffer = none ∧ t.siReady = false ∧ t.biReady = false ∧
      sameStreams s t ∧ t.script = rest

/-! Command words. -/

/-- 30_encoding.md R70, R71, R72: the six command words, written out bit by bit, decode to their commands; the
word 0, the word 7 and BUILD's word with a reserved bit set do not decode. -/
def Obligations.CommandWordsDecode : Prop :=
  decode 0b00000000000000000000000000000001#32 = .ok .clr ∧
  decode 0b00000000000000000000000000000010#32 = .ok .count ∧
  decode 0b00000000000000000000000000000011#32 = .ok .build ∧
  decode 0b00000000000000000000000000000100#32 = .ok .derive ∧
  decode 0b00000000000000000000000000000101#32 = .ok .encode ∧
  decode 0b00000000000000000000000000000110#32 = .ok .decode ∧
  decode 0b00000000000000000000000000000000#32 = .error .unusedOpcode ∧
  decode 0b00000000000000000000000000000111#32 = .error .unusedOpcode ∧
  decode 0b00000000000000000000000000010011#32 = .error .nonzeroField

/-- 30_encoding.md R84: the decoder is total on 32-bit words and answers by `[31:4]` and `[3:0]`. -/
def Obligations.DecoderIsTotal : Prop :=
  ∀ w : Word,
    (w.extractLsb' 4 28 ≠ 0 → ∃ e, decode w = .error e) ∧
    (w.extractLsb' 4 28 = 0 →
      (w.extractLsb' 0 4 = 0x1#4 → decode w = .ok .clr) ∧ (w.extractLsb' 0 4 = 0x2#4 → decode w = .ok .count) ∧
      (w.extractLsb' 0 4 = 0x3#4 → decode w = .ok .build) ∧ (w.extractLsb' 0 4 = 0x4#4 → decode w = .ok .derive) ∧
      (w.extractLsb' 0 4 = 0x5#4 → decode w = .ok .encode) ∧ (w.extractLsb' 0 4 = 0x6#4 → decode w = .ok .decode) ∧
      (w.extractLsb' 0 4 = 0x0#4 ∨ 0x7#4 ≤ w.extractLsb' 0 4 → ∃ e, decode w = .error e))

/-- 30_encoding.md R70 to R72: decode and encode agree: a word decodes to a command exactly when it is the
command's word, so every command has one word and every other word is illegal. -/
def Obligations.DecodeEncodeAgree : Prop :=
  ∀ (i : Instr) (w : Word), decode w = .ok i ↔ w = encode i

/-! The host register bus. -/

/-- 10_state.md R27: the layout of STATUS; defined also while BUSY = 1; a read changes nothing of the core. -/
def Obligations.StatusLayout : Prop :=
  ∀ s : State, ∃ w : Word, readRegister (registerAt 0x001) s = some w ∧
    w.getLsbD 0 = s.busy ∧ w.getLsbD 1 = s.done ∧ (w.getLsbD 2 = true ↔ s.errcode ≠ 0) ∧
    w.getLsbD 3 = s.rootValid ∧ w.getLsbD 4 = s.midpath ∧ w.getLsbD 5 = s.wign ∧
    w.extractLsb' 6 2 = 0 ∧ w.extractLsb' 8 4 = s.errcode ∧ w.extractLsb' 12 4 = s.op ∧
    w.extractLsb' 16 16 = 0 ∧ hostRead 0x001 s = { s with hReads := s.hReads ++ [(0x001, w)] } ∧
    readRegister (registerAt 0x001) State.reset = some 0

/-- 10_state.md R28, R29: ERRINFO shows all 32 bits at any time; the layout of TREEINFO while BUSY = 0, and that
it is unspecified while BUSY = 1. Neither read changes anything of the core. -/
def Obligations.ErrinfoAndTreeinfoLayout : Prop :=
  ∀ s : State,
    hostRead 0x002 s = { s with hReads := s.hReads ++ [(0x002, s.errinfo)] } ∧
    (s.busy = false → ∃ w : Word, hostRead 0x003 s = { s with hReads := s.hReads ++ [(0x003, w)] } ∧
      w.extractLsb' 0 9 = s.rootIdx ∧ w.extractLsb' 9 7 = 0 ∧ w.extractLsb' 16 9 = s.nleaf ∧
      w.extractLsb' 25 6 = 0 ∧ w.getLsbD 31 = s.rootValid) ∧
    (s.busy = true → readRegister (registerAt 0x003) s = none) ∧
    readRegister (registerAt 0x003) State.reset = some 0x000001FF#32

/-- 20_memory.md R44: what every word address names. The clauses are disjoint by the ranges of their addresses. -/
def Obligations.AddressMap : Prop :=
  registerAt 0x000 = .cmd ∧ registerAt 0x001 = .status ∧ registerAt 0x002 = .errinfo ∧
  registerAt 0x003 = .treeinfo ∧
  (∀ a : Addr, 0x004 ≤ a → a ≤ 0x0FF → registerAt a = .unmapped) ∧
  (∀ x : Sym, registerAt (0x100 + x.setWidth 12) = .freq x) ∧
  (∀ x : Sym, registerAt (0x200 + x.setWidth 12) = .codelen x) ∧
  (∀ a : Addr, 0x300 ≤ a → a ≤ 0x3FF → registerAt a = .unmapped) ∧
  (∀ i : Idx, i.toNat ≤ 510 → registerAt (0x400 + 2 * i.setWidth 12) = .nodeW i) ∧
  (∀ i : Idx, i.toNat ≤ 510 → registerAt (0x400 + 2 * i.setWidth 12 + 1) = .nodeL i) ∧
  registerAt 0x7FE = .unmapped ∧ registerAt 0x7FF = .unmapped ∧
  (∀ (x : Sym) (j : BitVec 3), registerAt (0x800 + 8 * x.setWidth 12 + j.setWidth 12) = .codebits x j)

/-- 30_encoding.md R76, R77, R78: the words of FREQ, CODELEN and CODEBITS while BUSY = 0, in a state whose codes
have at most 255 bits (10_state.md R19); a write to FREQ stores all 32 bits. -/
def Obligations.TableWords : Prop :=
  ∀ (s : State) (x : Sym), s.busy = false → (symEntry s.code x).length ≤ 255 →
    readRegister (registerAt (0x100 + x.setWidth 12)) s = some (symEntry s.freq x) ∧
    (∀ v : Word, readRegister (registerAt (0x100 + x.setWidth 12))
      (writeRegister (registerAt (0x100 + x.setWidth 12)) v s) = some v) ∧
    (∃ w : Word, readRegister (registerAt (0x200 + x.setWidth 12)) s = some w ∧
      (w.extractLsb' 0 8).toNat = (symEntry s.code x).length ∧ w.extractLsb' 8 24 = 0) ∧
    (∀ j : BitVec 3, ∃ w : Word,
      readRegister (registerAt (0x800 + 8 * x.setWidth 12 + j.setWidth 12)) s = some w ∧
      ∀ t, t < 32 → w.getLsbD t = (symEntry s.code x).getD (32 * j.toNat + t) false)

/-- 30_encoding.md R79, R80, 10_state.md R35: the two words of a slot while BUSY = 0: of a live one field by field,
with the words of a live leaf and of a live internal node; of one that is not live unspecified. -/
def Obligations.NodeWords : Prop :=
  ∀ (s : State) (i : Idx), s.busy = false → i.toNat ≤ 510 →
    (s.live i = false → readRegister (registerAt (0x400 + 2 * i.setWidth 12)) s = none ∧
      readRegister (registerAt (0x400 + 2 * i.setWidth 12 + 1)) s = none) ∧
    ∀ n : Slot, s.live i = true → slotAt s.node i = some n →
      readRegister (registerAt (0x400 + 2 * i.setWidth 12)) s = some n.w ∧
      ∃ w : Word, readRegister (registerAt (0x400 + 2 * i.setWidth 12 + 1)) s = some w ∧
        w.extractLsb' 0 8 = n.sym ∧ w.extractLsb' 8 9 = n.l ∧ w.extractLsb' 17 9 = n.r ∧
        w.extractLsb' 26 5 = 0 ∧ w.getLsbD 31 = n.leaf ∧
        (n.leaf = true → n.l = Config.nil → n.r = Config.nil → w = 0x83FFFF00#32 + n.sym.setWidth 32) ∧
        (n.leaf = false → n.sym = 0 → w = (n.r.setWidth 32 <<< 17) ||| (n.l.setWidth 32 <<< 8))

/-- 30_encoding.md R74, R75: the items at the pins, by kind: on an input DATA, END, ERROR, and the reserved kind as
ERROR; on an output DATA and END, with data 0. -/
def Obligations.StreamItems : Prop :=
  ∀ n : Nat,
    (∀ it : RawItem n, (it.kind = 0b00 → readItem it = .data it.data) ∧ (it.kind = 0b01 → readItem it = .endItem) ∧
      (it.kind = 0b10 → readItem it = .errorItem) ∧ (it.kind = 0b11 → readItem it = .errorItem)) ∧
    (∀ v : BitVec n, (OutItem.data v).pins = (0, v)) ∧ (OutItem.endItem (n := n)).pins = (1, 0)

/-- 20_memory.md R42, R49: a host read completes, changes nothing but the record of reads and the count of draws,
and is logged with the word the register shows, or, where the spec leaves it unspecified, with the next draw of
the free value. It holds whatever the free value is. The record of reads, the next draw and the count of draws are the
model's choice (log entries 2 and 5; R47 and 10_state.md R35 ask for a draw per read). -/
def Obligations.HostReadChangesNothing : Prop :=
  ∀ (s : State) (a : Addr) (rest : List Move), s.script = .hRead a :: rest →
    (∀ w, readRegister (registerAt a) s = some w →
      step s = .next { s with script := rest, hReads := s.hReads ++ [(a, w)] }) ∧
    (readRegister (registerAt a) s = none →
      step s = .next { s with
        script := rest, hReads := s.hReads ++ [(a, Config.freeWord s.draws)], draws := s.draws + 1 })

/-- 20_memory.md R45, R46, R47, 10_state.md R35: exactly the reads that are unspecified: while BUSY = 1 those of
TREEINFO, FREQ, CODELEN, CODEBITS, NODE_W and NODE_L; with BUSY = 0 those of a slot that is not live. CMD and
unmapped words read 0. -/
def Obligations.UnspecifiedReads : Prop :=
  ∀ s : State,
    readRegister .cmd s = some 0 ∧ readRegister .unmapped s = some 0 ∧
    readRegister .status s ≠ none ∧ readRegister .errinfo s ≠ none ∧
    (readRegister .treeinfo s = none ↔ s.busy = true) ∧
    (∀ x, readRegister (.freq x) s = none ↔ s.busy = true) ∧
    (∀ x, readRegister (.codelen x) s = none ↔ s.busy = true) ∧
    (∀ x j, readRegister (.codebits x j) s = none ↔ s.busy = true) ∧
    (∀ i, readRegister (.nodeW i) s = none ↔ s.busy = true ∨ s.live i = false) ∧
    (∀ i, readRegister (.nodeL i) s = none ↔ s.busy = true ∨ s.live i = false)

/-- 20_memory.md R43, R45 to R47, 40_frequency_counter.md R93, 60_exceptions.md R173: a host write to FREQ while
BUSY = 0 sets that entry and nothing else, a tree and a table included; a write to FREQ while BUSY = 1, or to a
read-only or unmapped address, sets WIGN and changes nothing else; none raises a fault. -/
def Obligations.HostWrites : Prop :=
  (∀ (s : State) (x : Sym) (v : Word) (rest : List Move), s.busy = false →
    s.script = .hWrite (0x100 + x.setWidth 12) v :: rest →
    ∃ t, step s = .next t ∧ symEntry t.freq x = v ∧ (∀ y, y ≠ x → symEntry t.freq y = symEntry s.freq y) ∧
      t = { s with script := rest, freq := t.freq }) ∧
  (∀ (s : State) (a : Addr) (v : Word) (rest : List Move), s.script = .hWrite a v :: rest →
    (a ≠ 0 ∧ (a < 0x100 ∨ 0x200 ≤ a)) ∨ (0x100 ≤ a ∧ a < 0x200 ∧ s.busy = true) →
    step s = .next { s with script := rest, wign := true })

/-! Job control. -/

/-- 45_job_control.md R151: a word written to CMD: the tests for BUSY and for a recorded fault, in this order;
else it is accepted, and an illegal word raises E_ILLCMD while a legal one runs: THE STEP IS exec OF THE
DECODED COMMAND, in the state with the write taken off the schedule. -/
def Obligations.CommandWordOffered : Prop :=
  ∀ (s : State) (w : Word) (rest : List Move), s.script = .hWrite 0 w :: rest →
    (s.busy = true → step s = .next { s with script := rest, wign := true }) ∧
    (s.busy = false → s.errcode ≠ 0 → w ≠ 0x00000001#32 →
      step s = .next { s with script := rest, wign := true }) ∧
    (s.busy = false → s.errcode = 0 ∨ w = 0x00000001#32 →
      (∀ i, decode w = .ok i → step s = exec i { s with script := rest }) ∧
      (∀ e, decode w = .error e →
        step s = .next (raiseFault eIllCmd w (accept (w.extractLsb' 0 4) { s with script := rest }))))

/-- 45_job_control.md R153, 60_exceptions.md R176: when the core moves (it is scheduled, or nothing is), the step is
exec of the running command; with no command running the core keeps all state. -/
def Obligations.CoreMoveRunsCommand : Prop :=
  ∀ (s : State) (u : State),
    (s.script = [] ∧ u = s) ∨ (∃ rest, s.script = .core :: rest ∧ u = { s with script := rest }) →
    (∀ i, s.busy = true → s.op = opcodeOf i → step s = exec i u) ∧ (s.busy = false → step s = .next u)

/-- 45_job_control.md R152, 30_encoding.md R72: an accepted illegal word raises E_ILLCMD at once with the whole
word in ERRINFO, and touches no table, no other flag and no stream; after it only CLR is accepted. The position idle,
the schedule, and that CUR and the scratch state keep their values are the model's choice (log entries 1, 2, 7 and 8). -/
def Obligations.IllegalCommandFaults : Prop :=
  ∀ (s : State) (w : Word) (rest : List Move) (e : Illegal), acceptsCommand s →
    s.script = .hWrite 0 w :: rest → decode w = .error e →
    ∃ t, step s = .next t ∧ t.errcode = 1 ∧ t.errinfo = w ∧ t.busy = false ∧ t.done = true ∧
      t.op = w.extractLsb' 0 4 ∧ t.phase = .idle ∧
      t.freq = s.freq ∧ t.code = s.code ∧ sameTree s t ∧ t.cur = s.cur ∧ t.midpath = s.midpath ∧
      t.wign = s.wign ∧ sameBuildScratch s t ∧ t.stack = s.stack ∧ sameEncodeScratch s t ∧
      sameStreams s t ∧ t.script = rest ∧ t.hReads = s.hReads ∧
      ∀ w', w' ≠ 0x00000001#32 → offerCommand w' t = .next (ignoreWrite t)

/-- 45_job_control.md R154, R155, 60_exceptions.md R163: what acceptance, `finish()` and `raise Fault` write, and
nothing else. The position `phase`, idle when no command runs, is the model's own (log entry 1), and that CUR and the
scratch state keep their values is its choice (log entries 7 and 8). -/
def Obligations.StartEndAndFault : Prop :=
  ∀ (s : State) (opc : BitVec 4) (code : BitVec 4) (info : Word),
    accept opc s = { s with busy := true, done := false, op := opc } ∧
    finish s = { s with busy := false, done := true, phase := .idle } ∧
    raiseFault code info s =
      { s with errcode := code, errinfo := info, busy := false, done := true, phase := .idle }

/-- 45_job_control.md R153: the busy period of CLR, BUILD and DERIVE: an accepted one may stay busy for any finite
number of moves, in which nothing but the count of moves left changes. -/
def Obligations.BusyPeriod : Prop :=
  ∀ (i : Instr) (s : State) (n : Nat), i = .clr ∨ i = .build ∨ i = .derive →
    (s.busy = false → s.busyPeriod = n + 1 →
      exec i s = .next { s with busy := true, done := false, op := opcodeOf i, phase := .working n }) ∧
    (s.busy = true → s.phase = .working (n + 1) → exec i s = .next { s with phase := .working n })

/-- 60_exceptions.md R167, R168, 10_state.md R24: while a fault is recorded no step other than a move of CLR or a
reset changes the record, starts a command, or changes the tree or the code table. -/
def Obligations.FaultRecordIsSticky : Prop :=
  ∀ s t : State, Inv s → s.errcode ≠ 0 → step s = .next t → ¬ nextRuns .clr s → ¬ nextIsReset s →
    sameRecord s t ∧ t.busy = s.busy ∧ t.op = s.op ∧ sameTree s t ∧ t.code = s.code

/-! CLR. -/

/-- 45_job_control.md R156: the effect of CLR. It completes also while a fault is recorded; the state is that of reset
in every element to which R34 gives a value, but for DONE and OP; NODE, the streams and the scratch state are not
touched. That CUR and the scratch state keep their values over CLR is the model's choice (log entries 7 and 8). -/
def Obligations.ClrEmptiesTheJob : Prop :=
  ∀ s : State, effectDue .clr s →
    ∃ t, exec .clr s = .next t ∧ ended .clr t ∧ t.phase = .idle ∧
      t.freq = State.reset.freq ∧ t.code = State.reset.code ∧ t.rootValid = false ∧
      t.rootIdx = Config.nil ∧ t.nleaf = 0 ∧ t.errcode = 0 ∧ t.errinfo = 0 ∧ t.midpath = false ∧
      t.wign = false ∧
      readRegister .status t = some 0x00001002#32 ∧ readRegister .treeinfo t = some 0x000001FF#32 ∧
      readRegister .errinfo t = some 0 ∧
      t.node = s.node ∧ t.cur = s.cur ∧ sameBuildScratch s t ∧ t.stack = s.stack ∧
      sameEncodeScratch s t ∧ sameStreams s t ∧ sameOutside s t

/-! COUNT. -/

/-- 40_frequency_counter.md R90, R91, 45_job_control.md R155: COUNT is accepted, clears the whole table before the
first item is taken, and waits for an item. The move of the clearing and the position are the model's (log entries 23
and 1), as is that CUR and the scratch state keep their values (7 and 8). -/
def Obligations.CountStartsFresh : Prop :=
  ∀ s : State, s.busy = false →
    ∃ t, exec .count s = .next t ∧ (∀ x, symEntry t.freq x = 0) ∧ waitsToTake .count t ∧ t.done = false ∧
      t = { s with busy := true, done := false, op := t.op, freq := t.freq, phase := t.phase }

/-- 40_frequency_counter.md R90, R92: a DATA item adds one to the count of its symbol, unless the count is
`2^32 - 1`: then E_CNTOVF is raised, the count keeps its value, and the item is consumed all the same. Every other
count is unchanged. -/
def Obligations.CountTakesSymbol : Prop :=
  ∀ (s : State) (it : RawItem 8) (rest : List (RawItem 8)) (x : Sym), waitsToTake .count s →
    s.symIn = it :: rest → readItem it = .data x →
    ∃ t, exec .count s = .next t ∧ t.symIn = rest ∧ (∀ y, y ≠ x → symEntry t.freq y = symEntry s.freq y) ∧
      (symEntry s.freq x ≠ 0xFFFFFFFF#32 →
        (symEntry t.freq x).toNat = (symEntry s.freq x).toNat + 1 ∧ waitsToTake .count t ∧ sameRecord s t ∧
          t.done = s.done) ∧
      (symEntry s.freq x = 0xFFFFFFFF#32 →
        symEntry t.freq x = 0xFFFFFFFF#32 ∧ ended .count t ∧ t.errcode = 2 ∧ t.errinfo = x.setWidth 32)

/-- 40_frequency_counter.md R90, R95, 60_exceptions.md R163, R164, R166: END finishes COUNT; ERROR, and the reserved
kind, raise E_IO. The counts taken before stay, and the items behind stay in the source. -/
def Obligations.CountEnds : Prop :=
  ∀ (s : State) (it : RawItem 8) (rest : List (RawItem 8)), waitsToTake .count s → s.symIn = it :: rest →
    (readItem it = .endItem → exec .count s = .next (finish { s with symIn := rest })) ∧
    (readItem it = .errorItem → exec .count s = .next (raiseFault 5 0 { s with symIn := rest }))

/-- 40_frequency_counter.md R90: the frame of every move of COUNT: only FREQ, SYM_IN, the sequencer and the fault
record may change. That CUR and the scratch state of other commands keep their values is the model's choice (log
entries 7 and 8). -/
def Obligations.CountFrame : Prop :=
  ∀ s t : State, exec .count s = .next t →
    sameTree s t ∧ t.code = s.code ∧ t.cur = s.cur ∧ t.midpath = s.midpath ∧ t.wign = s.wign ∧
      sameBuildScratch s t ∧ t.stack = s.stack ∧ sameEncodeScratch s t ∧
      t.bitIn = s.bitIn ∧ t.bitOut = s.bitOut ∧ t.symOut = s.symOut ∧
      (t.symIn = s.symIn ∨ ∃ it, s.symIn = it :: t.symIn) ∧ sameOutside s t

/-- 40_frequency_counter.md R90, R94: COUNT on the input `xs END`, in which no symbol occurs `2^32` times (so every
input of fewer than `2^32` symbols, and longer ones: 41_tree_builder.md R102), completes with every count the exact
number of occurrences and their sum the length of the input; what stood in FREQ before, and what stands behind the
END, does not matter. -/
def Obligations.CountIsExact : Prop :=
  ∀ (s : State) (xs : List Sym) (rest : List (RawItem 8)), acceptsCommand s →
    (∀ x, xs.count x < 2 ^ 32) → s.symIn = xs.map symItem ++ endOfInput 8 :: rest →
    ∃ t, Completes (encode .count) s t ∧ ended .count t ∧ t.errcode = 0 ∧ t.symIn = rest ∧
      (∀ x, (symEntry t.freq x).toNat = xs.count x) ∧ freqSum t.freq = xs.length ∧
      sameTree s t ∧ t.code = s.code

/-! BUILD. -/

/-- 41_tree_builder.md R102, R101, 60_exceptions.md R164: when the sum of all counts is `2^32` or more, BUILD raises
E_WGTOVF with ERRINFO 0 before it writes any node: no tree, an empty table, FREQ and NODE as they were. -/
def Obligations.BuildWeightOverflow : Prop :=
  ∀ s : State, effectDue .build s → 2 ^ 32 ≤ freqSum s.freq →
    ∃ t, exec .build s = .next t ∧ ended .build t ∧ t.errcode = 3 ∧ t.errinfo = 0 ∧ t.rootValid = false ∧
      t.rootIdx = Config.nil ∧ t.nleaf = 0 ∧ (∀ x, symEntry t.code x = []) ∧ t.freq = s.freq ∧ t.node = s.node

/-- 41_tree_builder.md R107: the empty mapping: no tree, no fault; TREEINFO reads 0x000001FF. -/
def Obligations.BuildOfEmptyMapping : Prop :=
  ∀ s : State, effectDue .build s → (∀ x, symEntry s.freq x = 0) →
    ∃ t, exec .build s = .next t ∧ ended .build t ∧ sameRecord s t ∧ t.rootValid = false ∧
      t.rootIdx = Config.nil ∧ t.nleaf = 0 ∧ (∀ x, symEntry t.code x = []) ∧ t.node = s.node ∧
      readRegister .treeinfo t = some 0x000001FF#32

/-- 41_tree_builder.md R108: a mapping with exactly one entry: the single leaf is the root, in the slot of its
symbol, and no other slot is live. -/
def Obligations.BuildOfOneEntry : Prop :=
  ∀ (s : State) (x : Sym), effectDue .build s → symEntry s.freq x ≠ 0 →
    (∀ y, y ≠ x → symEntry s.freq y = 0) →
    ∃ t, exec .build s = .next t ∧ ended .build t ∧ sameRecord s t ∧ t.rootValid = true ∧
      t.rootIdx = x.setWidth 9 ∧ t.nleaf = 1 ∧ (∀ y, symEntry t.code y = []) ∧
      slotAt t.node t.rootIdx = some
        { w := symEntry s.freq x, leaf := true, sym := x, l := Config.nil, r := Config.nil } ∧
      ∀ i, t.live i = true ↔ i = t.rootIdx

/-- 41_tree_builder.md R100, R103 to R105, R111, 10_state.md R15 to R18: with at least one count and a sum below
`2^32` BUILD completes without a fault and leaves one tree: its leaves are exactly the symbols with non-zero count,
each once with its count, every internal weight is the sum of its children's, the root's weight is the sum of all
counts, NLEAF the number of leaves, and with two or more leaves the root is slot `256 + k - 2`. The live slots (R17) are
the leaf slots of the symbols with non-zero count and the internal slots from 256 to the root. -/
def Obligations.BuildMakesTheTree : Prop :=
  ∀ s : State, effectDue .build s → 0 < leafCount s.freq → freqSum s.freq < 2 ^ 32 →
    ∃ t T, exec .build s = .next t ∧ ended .build t ∧ sameRecord s t ∧ t.rootValid = true ∧
      t.tree = some T ∧ T.weightsOk ∧ T.leaves.Perm (mapping s.freq) ∧ T.weight = freqSum s.freq ∧
      t.nleaf.toNat = leafCount s.freq ∧ StoreOk t.node t.rootIdx ∧ (∀ x, symEntry t.code x = []) ∧
      (2 ≤ leafCount s.freq → t.rootIdx.toNat = 256 + leafCount s.freq - 2) ∧
      ∀ i : Idx, t.live i = true ↔
        (i.toNat < 256 ∧ symEntry s.freq (i.setWidth 8) ≠ 0) ∨ (256 ≤ i.toNat ∧ i.toNat ≤ t.rootIdx.toNat)

/-- 41_tree_builder.md R104, R106: every merge takes the two least nodes of the collection by the key `(w, index)`: in
every live internal slot `i` the left child's key is before the right child's, and the right child's is before the key
of every other node that was in the collection then, a child `c < i` of a later slot; and the weights of the internal
slots do not decrease. The order among equal weights is the spec's default of the parameter `TIE` (log entry 18). -/
def Obligations.BuildMergesTheLightest : Prop :=
  ∀ s : State, effectDue .build s → 2 ≤ leafCount s.freq → freqSum s.freq < 2 ^ 32 →
    ∃ t, exec .build s = .next t ∧
      (∀ (i : Idx) (n a b : Slot), 256 ≤ i.toNat → i.toNat ≤ t.rootIdx.toNat → slotAt t.node i = some n →
        slotAt t.node n.l = some a → slotAt t.node n.r = some b → a.w < b.w ∨ (a.w = b.w ∧ n.l < n.r)) ∧
      (∀ (i i' c : Idx) (n m b d : Slot), 256 ≤ i.toNat → i.toNat < i'.toNat → i'.toNat ≤ t.rootIdx.toNat →
        slotAt t.node i = some n → slotAt t.node i' = some m → c = m.l ∨ c = m.r → c.toNat < i.toNat →
        slotAt t.node n.r = some b → slotAt t.node c = some d → b.w < d.w ∨ (b.w = d.w ∧ n.r < c)) ∧
      (∀ (i j : Idx) (n m : Slot), 256 ≤ i.toNat → i.toNat ≤ j.toNat → j.toNat ≤ t.rootIdx.toNat →
        slotAt t.node i = some n → slotAt t.node j = some m → n.w ≤ m.w)

/-- 41_tree_builder.md R111: BUILD is a function of FREQ alone: from equal tables the root, NLEAF, the tree and
every live slot are equal, whatever the rest of the two states holds. -/
def Obligations.BuildIsDeterministic : Prop :=
  ∀ s s' : State, effectDue .build s → effectDue .build s' → s.freq = s'.freq →
    ∃ t t', exec .build s = .next t ∧ exec .build s' = .next t' ∧ t.rootValid = t'.rootValid ∧
      t.rootIdx = t'.rootIdx ∧ t.nleaf = t'.nleaf ∧ t.tree = t'.tree ∧
      ∀ i, t.live i = t'.live i ∧ (t.live i = true → slotAt t.node i = slotAt t'.node i)

/-- 41_tree_builder.md R111: optimality: the code of the tree BUILD makes costs no more than any prefix code for
the same frequencies (a mapping of two or more symbols; the single-leaf tree is outside the rule). -/
def Obligations.BuildIsOptimal : Prop :=
  ∀ s : State, effectDue .build s → 2 ≤ leafCount s.freq → freqSum s.freq < 2 ^ 32 →
    ∃ t T, exec .build s = .next t ∧ t.tree = some T ∧
      ∀ c : Sym → Bits, prefixFree s.freq c → codeCost s.freq T.codeOf ≤ codeCost s.freq c

/-- 41_tree_builder.md R100, R103, R104: the frame of every move of BUILD. With `k` leaves, the slot of a symbol whose
count is 0, and every slot from `256 + k - 1` on, keeps its contents. That CUR and the scratch state of other commands
keep their values is the model's choice (log entries 7 and 8). -/
def Obligations.BuildFrame : Prop :=
  ∀ s t : State, exec .build s = .next t →
    t.freq = s.freq ∧ t.cur = s.cur ∧ t.midpath = s.midpath ∧ t.wign = s.wign ∧ t.stack = s.stack ∧
      sameEncodeScratch s t ∧ sameStreams s t ∧ sameOutside s t ∧
      (∀ x : Sym, symEntry s.freq x = 0 → slotAt t.node (x.setWidth 9) = slotAt s.node (x.setWidth 9)) ∧
      (∀ i : Idx, 256 + (leafCount s.freq - 1) ≤ i.toNat → slotAt t.node i = slotAt s.node i)

/-! DERIVE. -/

/-- 42_code_table.md R121, R122: with no tree DERIVE leaves the empty table; with a single-leaf tree the one symbol
gets the code `1`, every other symbol none. No fault. -/
def Obligations.DeriveOfNoTreeOrOneLeaf : Prop :=
  ∀ s : State, effectDue .derive s →
    (s.rootValid = false →
      ∃ t, exec .derive s = .next t ∧ ended .derive t ∧ sameRecord s t ∧ ∀ x, symEntry t.code x = []) ∧
    ∀ n : Slot, s.rootValid = true → slotAt s.node s.rootIdx = some n → n.leaf = true →
      ∃ t, exec .derive s = .next t ∧ ended .derive t ∧ sameRecord s t ∧ symEntry t.code n.sym = [true] ∧
        ∀ x, x ≠ n.sym → symEntry t.code x = []

/-- 42_code_table.md R120, R123: with a tree of two or more leaves with distinct symbols every leaf's symbol gets
the path from the root, 0 for left and 1 for right, root end first; a symbol that is no leaf gets none. -/
def Obligations.DeriveRecordsPaths : Prop :=
  ∀ (s : State) (T : Tree), effectDue .derive s → s.tree = some T → T.isLeaf = false → T.distinct →
    ∃ t, exec .derive s = .next t ∧ ended .derive t ∧ sameRecord s t ∧
      (∀ e ∈ T.paths, symEntry t.code e.1 = e.2) ∧
      ∀ x, x ∉ T.leaves.map (·.1) → symEntry t.code x = []

/-- 42_code_table.md R125: a fresh table: DERIVE's table depends on the tree alone, not on the table before, so
deriving twice gives the same table. -/
def Obligations.DeriveIsFresh : Prop :=
  ∀ s s' : State, Inv s → effectDue .derive s → effectDue .derive s' → sameTree s s' →
    ∃ t t', exec .derive s = .next t ∧ exec .derive s' = .next t' ∧ t.code = t'.code

/-- 42_code_table.md R126: the codes of a tree of two or more leaves: each at least one bit, none a prefix of
another, and the sum of `2^(-len)` over the leaves is 1 (written with `2^(255 - len)`). -/
def Obligations.DerivedCodesArePrefixFree : Prop :=
  ∀ (s : State) (T : Tree), Inv s → effectDue .derive s → s.tree = some T → T.isLeaf = false →
    ∃ t, exec .derive s = .next t ∧
      (∀ x ∈ T.leaves.map (·.1), 1 ≤ (symEntry t.code x).length) ∧
      (∀ x ∈ T.leaves.map (·.1), ∀ y ∈ T.leaves.map (·.1), x ≠ y → ¬ symEntry t.code x <+: symEntry t.code y) ∧
      ((T.leaves.map fun e => 2 ^ (255 - (symEntry t.code e.1).length)).sum = 2 ^ 255)

/-- 42_code_table.md R126, 43_encoder.md R139: the cost of the table derived from the tree BUILD made of FREQ is the
sum of the weights of the internal nodes, and with one symbol the length of the counted input. -/
def Obligations.CodeCostIsInnerWeight : Prop :=
  ∀ s : State, effectDue .build s → s.busyPeriod = 0 → 0 < leafCount s.freq → freqSum s.freq < 2 ^ 32 →
    ∃ t u T, exec .build s = .next t ∧ t.tree = some T ∧ exec .derive t = .next u ∧
      (2 ≤ leafCount s.freq → codeCost s.freq (symEntry u.code) = T.innerWeights.sum) ∧
      (leafCount s.freq = 1 → codeCost s.freq (symEntry u.code) = freqSum s.freq)

/-- 42_code_table.md R120: the frame of every move of DERIVE: only CODE, its scratch stack and the sequencer may
change; no fault is recorded. That CUR and the scratch state of other commands keep their values is the model's choice
(log entries 7 and 8). -/
def Obligations.DeriveFrame : Prop :=
  ∀ s t : State, exec .derive s = .next t →
    t.freq = s.freq ∧ sameTree s t ∧ sameRecord s t ∧ t.cur = s.cur ∧ t.midpath = s.midpath ∧
      t.wign = s.wign ∧ sameBuildScratch s t ∧ sameEncodeScratch s t ∧ sameStreams s t ∧ sameOutside s t

/-! ENCODE. -/

/-- 43_encoder.md R130 to R135: ENCODE is accepted and waits for an item; a symbol with a code is emitted from its
first bit on; a symbol without one leads to E_NOCODE with the symbol in ERRINFO, END to the normal end, ERROR to
E_IO, each after the END of the output. The item is consumed in every case. -/
def Obligations.EncodeTakesItem : Prop :=
  (∀ s : State, s.busy = false →
    exec .encode s = .next { s with busy := true, done := false, op := 5, phase := .take }) ∧
  ∀ (s : State) (it : RawItem 8) (rest : List (RawItem 8)), waitsToTake .encode s → s.symIn = it :: rest →
    (∀ x, readItem it = .data x → symEntry s.code x ≠ [] →
      exec .encode s = .next { s with symIn := rest, esym := x, ebit := 0, phase := .emitBit }) ∧
    (∀ x, readItem it = .data x → symEntry s.code x = [] →
      exec .encode s = .next { s with symIn := rest, phase := .close (.fault 4 (x.setWidth 32)) }) ∧
    (readItem it = .endItem → exec .encode s = .next { s with symIn := rest, phase := .close .finish }) ∧
    (readItem it = .errorItem → exec .encode s = .next { s with symIn := rest, phase := .close (.fault 5 0) })

/-- 43_encoder.md R138, 20_memory.md R53, 60_exceptions.md R165: ENCODE hands the sink bit EBIT of the code of ESYM,
and takes the next item only after the last bit; at the end it hands it END and only then finishes or records the
fault; while the sink is not ready nothing changes. -/
def Obligations.EncodePutsItem : Prop :=
  ∀ s : State, s.busy = true → s.op = opcodeOf .encode →
    (s.phase = .emitBit → s.boReady = true →
      ∃ t, exec .encode s = .next t ∧
        t.bitOut = s.bitOut ++ [.data (BitVec.ofBool ((symEntry s.code s.esym).getD s.ebit.toNat false))] ∧
        t.ebit = s.ebit + 1 ∧ t.symIn = s.symIn ∧ t.esym = s.esym ∧
        (s.ebit.toNat + 1 < (symEntry s.code s.esym).length → t.phase = .emitBit) ∧
        ((symEntry s.code s.esym).length ≤ s.ebit.toNat + 1 → t.phase = .take)) ∧
    (∀ e, s.phase = .close e → s.boReady = true →
      ∃ t, exec .encode s = .next t ∧ t.bitOut = s.bitOut ++ [.endItem] ∧ ended .encode t ∧
        (e = .finish → sameRecord s t) ∧ (∀ c v, e = .fault c v → t.errcode = c ∧ t.errinfo = v)) ∧
    (s.boReady = false → s.phase = .emitBit ∨ (∃ e, s.phase = .close e) → exec .encode s = .next s)

/-- 43_encoder.md R130, R131, R132, R134, R137: ENCODE on the input `xs END`, every symbol with a code of at most 255
bits, completes and puts exactly the concatenation of the codes, then END. -/
def Obligations.EncodeConcatenatesCodes : Prop :=
  ∀ (s : State) (xs : List Sym) (rest : List (RawItem 8)), acceptsCommand s → s.boReady = true →
    (∀ x ∈ xs, symEntry s.code x ≠ [] ∧ (symEntry s.code x).length ≤ 255) →
    s.symIn = xs.map symItem ++ endOfInput 8 :: rest →
    ∃ t, Completes (encode .encode) s t ∧ ended .encode t ∧ t.errcode = 0 ∧ t.symIn = rest ∧
      t.bitOut = s.bitOut ++ bitData (xs.flatMap (symEntry s.code)) ++ [.endItem] ∧
      t.freq = s.freq ∧ sameTree s t ∧ t.code = s.code

/-- 43_encoder.md R133, R135, 60_exceptions.md R164, R165, R166: ENCODE on symbols that have codes followed by a
symbol without one, or by an ERROR item: the codes of the earlier symbols, then END, then the fault; what stands
behind the faulting item stays in the source. -/
def Obligations.EncodeFaultsPrecisely : Prop :=
  ∀ (s : State) (xs : List Sym) (it : RawItem 8) (rest : List (RawItem 8)), acceptsCommand s →
    s.boReady = true → (∀ x ∈ xs, symEntry s.code x ≠ [] ∧ (symEntry s.code x).length ≤ 255) →
    s.symIn = xs.map symItem ++ it :: rest →
    readItem it = .errorItem ∨ (∃ y, readItem it = .data y ∧ symEntry s.code y = []) →
    ∃ t, Completes (encode .encode) s t ∧ ended .encode t ∧ t.symIn = rest ∧
      t.bitOut = s.bitOut ++ bitData (xs.flatMap (symEntry s.code)) ++ [.endItem] ∧
      (readItem it = .errorItem → t.errcode = 5 ∧ t.errinfo = 0) ∧
      (∀ y, readItem it = .data y → t.errcode = 4 ∧ t.errinfo = y.setWidth 32)

/-- 43_encoder.md R130: the frame of every move of ENCODE: it changes no table and no flag but its own. That CUR and
the scratch state of other commands keep their values is the model's choice (log entries 7 and 8). -/
def Obligations.EncodeFrame : Prop :=
  ∀ s t : State, exec .encode s = .next t →
    t.freq = s.freq ∧ sameTree s t ∧ t.code = s.code ∧ t.cur = s.cur ∧ t.midpath = s.midpath ∧
      t.wign = s.wign ∧ sameBuildScratch s t ∧ t.stack = s.stack ∧ t.bitIn = s.bitIn ∧
      t.symOut = s.symOut ∧ (t.symIn = s.symIn ∨ ∃ it, s.symIn = it :: t.symIn) ∧
      (t.bitOut = s.bitOut ∨ ∃ item, t.bitOut = s.bitOut ++ [item]) ∧ sameOutside s t

/-! DECODE. -/

/-- 44_decoder.md R140 to R142: the start of DECODE: MIDPATH is cleared; with a tree the cursor is set to the root and
DECODE waits for a bit; with none only the END of the output is left to put. -/
def Obligations.DecodeStarts : Prop :=
  ∀ s : State, s.busy = false →
    (s.rootValid = true →
      exec .decode s = .next
        { s with busy := true, done := false, op := 6, midpath := false, cur := s.rootIdx, phase := .take }) ∧
    (s.rootValid = false →
      exec .decode s = .next
        { s with busy := true, done := false, op := 6, midpath := false, phase := .close .finish })

/-- 44_decoder.md R143: one bit moves the cursor to the right child (1) or the left one (0); a null cursor emits the
root leaf's symbol, a leaf its own, an internal node nothing. -/
def Obligations.DecodeTakesBit : Prop :=
  ∀ (s : State) (it : RawItem 1) (rest : List (RawItem 1)) (b : Bool) (n root : Slot) (c : Idx),
    waitsToTake .decode s → s.bitIn = it :: rest → readItem it = .data (BitVec.ofBool b) →
    slotAt s.node s.cur = some n → slotAt s.node s.rootIdx = some root → c = (if b then n.r else n.l) →
    (c = Config.nil → exec .decode s = .next { s with bitIn := rest, cur := c, phase := .emitSym root.sym }) ∧
    (∀ m, slotAt s.node c = some m → m.leaf = true →
      exec .decode s = .next { s with bitIn := rest, cur := c, phase := .emitSym m.sym }) ∧
    (∀ m, slotAt s.node c = some m → m.leaf = false →
      exec .decode s = .next { s with bitIn := rest, cur := c })

/-- 44_decoder.md R144, R145: END sets MIDPATH exactly when the cursor is not on the root; ERROR leaves MIDPATH; both
put END on the output before the command ends, normally or with E_IO. That MIDPATH is set already in the move that takes
END, before the sink takes the END of the output, and that CUR returns to the root in the move in which the sink takes
the symbol, are the model's (log entries 21 and 22). -/
def Obligations.DecodeEnds : Prop :=
  (∀ (s : State) (it : RawItem 1) (rest : List (RawItem 1)), waitsToTake .decode s → s.bitIn = it :: rest →
    (readItem it = .endItem →
      exec .decode s = .next
        { s with bitIn := rest, midpath := decide (s.cur ≠ s.rootIdx), phase := .close .finish }) ∧
    (readItem it = .errorItem → exec .decode s = .next { s with bitIn := rest, phase := .close (.fault 5 0) })) ∧
  ∀ s : State, s.busy = true → s.op = opcodeOf .decode →
    (∀ v, s.phase = .emitSym v → s.soReady = true →
      exec .decode s = .next { s with symOut := s.symOut ++ [.data v], cur := s.rootIdx, phase := .take }) ∧
    (∀ e, s.phase = .close e → s.soReady = true →
      ∃ t, exec .decode s = .next t ∧ t.symOut = s.symOut ++ [.endItem] ∧ ended .decode t ∧
        t.midpath = s.midpath ∧ (e = .finish → sameRecord s t) ∧
        (∀ c v, e = .fault c v → t.errcode = c ∧ t.errinfo = v)) ∧
    (s.soReady = false → (∃ v, s.phase = .emitSym v) ∨ (∃ e, s.phase = .close e) → exec .decode s = .next s)

/-- 44_decoder.md R141: DECODE with no tree takes nothing from BIT_IN, puts END and ends with MIDPATH = 0 and no
fault. -/
def Obligations.DecodeWithoutTree : Prop :=
  ∀ s : State, acceptsCommand s → s.soReady = true → s.rootValid = false →
    ∃ t, Completes (encode .decode) s t ∧ ended .decode t ∧ t.errcode = 0 ∧ t.midpath = false ∧
      t.bitIn = s.bitIn ∧ t.symOut = s.symOut ++ [.endItem]

/-- 44_decoder.md R146: with a single-leaf tree `n` input bits, whatever their values, give `n` copies of the symbol,
and MIDPATH is 0. -/
def Obligations.DecodeSingleLeaf : Prop :=
  ∀ (s : State) (n : Slot) (bs : Bits) (rest : List (RawItem 1)), acceptsCommand s → s.soReady = true →
    s.rootValid = true → slotAt s.node s.rootIdx = some n → n.leaf = true → n.l = Config.nil →
    n.r = Config.nil → s.bitIn = bs.map bitItem ++ endOfInput 1 :: rest →
    ∃ t, Completes (encode .decode) s t ∧ ended .decode t ∧ t.errcode = 0 ∧ t.midpath = false ∧
      t.bitIn = rest ∧ t.symOut = s.symOut ++ symData (List.replicate bs.length n.sym) ++ [.endItem]

/-- 44_decoder.md R140, R143, R144, R146, R149: DECODE over the node store, with its null cursor, puts the same
symbols and ends with the same MIDPATH as the tagged-tree decoder of R146, for every bit sequence: truncated, foreign
or padded. -/
def Obligations.DecodeRefinesTreeWalk : Prop :=
  ∀ (s : State) (T : Tree) (bs : Bits) (rest : List (RawItem 1)), Inv s → acceptsCommand s →
    s.soReady = true → s.tree = some T → s.bitIn = bs.map bitItem ++ endOfInput 1 :: rest →
    ∃ t, Completes (encode .decode) s t ∧ ended .decode t ∧ t.errcode = 0 ∧ t.bitIn = rest ∧
      t.symOut = s.symOut ++ symData (T.decodeFrom none bs).1 ++ [.endItem] ∧
      t.midpath = (T.decodeFrom none bs).2 ∧ sameTree s t ∧ t.freq = s.freq ∧ t.code = s.code

/-- 44_decoder.md R140: the frame of every move of DECODE: it changes no table. That the scratch state of the other
commands keeps its values is the model's choice (log entry 8). -/
def Obligations.DecodeFrame : Prop :=
  ∀ s t : State, exec .decode s = .next t →
    t.freq = s.freq ∧ sameTree s t ∧ t.code = s.code ∧ t.wign = s.wign ∧ sameBuildScratch s t ∧
      t.stack = s.stack ∧ sameEncodeScratch s t ∧ t.symIn = s.symIn ∧ t.bitOut = s.bitOut ∧
      (t.bitIn = s.bitIn ∨ ∃ it, s.bitIn = it :: t.bitIn) ∧
      (t.symOut = s.symOut ∨ ∃ item, t.symOut = s.symOut ++ [item]) ∧ sameOutside s t

/-- 44_decoder.md R148: the round-trip law: CLR, COUNT on `xs`, BUILD, DERIVE, ENCODE on `xs`, DECODE on the bits put:
no fault occurs, the symbols put are `xs` and then END, and MIDPATH is 0; for every input of fewer than `2^32`
symbols, from every idle state, whatever the busy periods. -/
def Obligations.RoundTrip : Prop :=
  ∀ (s : State) (xs : List Sym), s.busy = false → sinksReady s → xs.length < 2 ^ 32 →
    ∃ (s₁ s₂ s₃ s₄ s₅ s₆ : State) (bs : Bits),
      Completes (encode .clr) s s₁ ∧
      Completes (encode .count) { s₁ with symIn := xs.map symItem ++ [endOfInput 8] } s₂ ∧
      Completes (encode .build) s₂ s₃ ∧ Completes (encode .derive) s₃ s₄ ∧
      Completes (encode .encode) { s₄ with symIn := xs.map symItem ++ [endOfInput 8] } s₅ ∧
      s₅.bitOut = s₄.bitOut ++ bitData bs ++ [.endItem] ∧
      Completes (encode .decode) { s₅ with bitIn := bs.map bitItem ++ [endOfInput 1] } s₆ ∧
      s₆.symOut = s₅.symOut ++ symData xs ++ [.endItem] ∧ s₆.midpath = false ∧ s₆.errcode = 0

/-! Waiting. -/

/-- 70_reset_and_hazards.md R201, 20_memory.md R52, R53: a command whose source offers nothing, or whose sink takes
nothing, does not move: with nothing else scheduled the step changes nothing, so BUSY stays 1 for ever. -/
def Obligations.StalledStreamHangs : Prop :=
  ∀ s : State, s.script = [] →
    (waitsToTake .count s ∧ s.symIn = []) ∨ (waitsToTake .encode s ∧ s.symIn = []) ∨
      (waitsToTake .decode s ∧ s.bitIn = []) ∨
      (s.busy = true ∧ s.op = opcodeOf .encode ∧ s.boReady = false ∧
        (s.phase = .emitBit ∨ ∃ e, s.phase = .close e)) ∨
      (s.busy = true ∧ s.op = opcodeOf .decode ∧ s.soReady = false ∧
        ((∃ v, s.phase = .emitSym v) ∨ ∃ e, s.phase = .close e)) →
    ∀ k, Host.Core.run core k s = .next s

/-! The whole machine. -/

/-- The invariant holds at reset. -/
def Obligations.InvAtReset : Prop := Inv State.reset

/-- Every step from a state with the invariant answers a next state, never a stop, and that state has the invariant:
10_state.md R15 to R25, 45_job_control.md R150, R157. -/
def Obligations.EveryStepKeepsInv : Prop :=
  ∀ s : State, Inv s → ∃ t, step s = .next t ∧ Inv t

/-- 10_state.md R17, R19, R12, 20_memory.md R45: only moves of BUILD and CLR, and reset, change NODE, ROOT or NLEAF;
the code table is changed by these and by DERIVE; a count by COUNT, CLR, reset and a host write to FREQ. -/
def Obligations.TablesChangeOnlyByTheirCommands : Prop :=
  ∀ s t : State, step s = .next t → ¬ nextIsReset s → ¬ nextRuns .clr s →
    (¬ nextRuns .build s → sameTree s t) ∧
    (¬ nextRuns .build s → ¬ nextRuns .derive s → t.code = s.code) ∧
    (¬ nextRuns .count s → (∀ a v, nextWrites a v s → a < 0x100 ∨ 0x200 ≤ a) → t.freq = s.freq)

/-- 10_state.md R36, R25, R26: MIDPATH is written only by DECODE, CLR and reset; WIGN is cleared only by CLR and reset
and set only by a host write. -/
def Obligations.FlagsChangeOnlyAsListed : Prop :=
  ∀ s t : State, step s = .next t → ¬ nextIsReset s → ¬ nextRuns .clr s →
    (¬ nextRuns .decode s → t.midpath = s.midpath) ∧ (s.wign = true → t.wign = true) ∧
    (s.wign = false → t.wign = true → ∃ a v, nextWrites a v s)

/-- 60_exceptions.md R165, 20_memory.md R57: a step, other than a reset, ends an ENCODE exactly when it puts END on
BIT_OUT, and a DECODE exactly when it puts END on SYM_OUT; so a command puts one END, and puts it last. -/
def Obligations.OneEndOnEveryExit : Prop :=
  ∀ s t : State, step s = .next t → ¬ nextIsReset s →
    ((s.busy = true ∧ s.op = opcodeOf .encode ∧ t.busy = false) ↔ t.bitOut = s.bitOut ++ [.endItem]) ∧
    ((s.busy = true ∧ s.op = opcodeOf .decode ∧ t.busy = false) ↔ t.symOut = s.symOut ++ [.endItem])

/-- 20_memory.md R50, R52, R53, R55: an input is ready exactly while COUNT or ENCODE (SYM_IN) or DECODE (BIT_IN) waits
in `take`, and a move of that command then takes exactly the item on offer; an output has an item on offer exactly
while ENCODE or DECODE waits in `put`, that item, and a move of the command hands it to a sink that is ready. Outside
its commands a stream is idle: nothing is taken or put, and an item offered stays. The positions of a command are the
model's (log entry 1), and that no move of the outside world empties or restarts a source is its choice (log
entry 25). -/
def Obligations.IdleStreamsStay : Prop :=
  ∀ s : State,
    (s.siReady = true ↔ waitsToTake .count s ∨ waitsToTake .encode s) ∧
    (s.biReady = true ↔ waitsToTake .decode s) ∧
    (∀ item, s.boOffer = some item ↔ s.busy = true ∧ s.op = opcodeOf .encode ∧
      ((s.phase = .emitBit ∧
          item = .data (BitVec.ofBool ((symEntry s.code s.esym).getD s.ebit.toNat false))) ∨
        ((∃ e, s.phase = .close e) ∧ item = .endItem))) ∧
    (∀ item, s.soOffer = some item ↔ s.busy = true ∧ s.op = opcodeOf .decode ∧
      ((∃ v, s.phase = .emitSym v ∧ item = .data v) ∨ ((∃ e, s.phase = .close e) ∧ item = .endItem))) ∧
    ∀ t : State, step s = .next t →
      (∀ it rest, s.siReady = true → s.symIn = it :: rest → nextRuns .count s ∨ nextRuns .encode s →
        t.symIn = rest) ∧
      (∀ it rest, s.biReady = true → s.bitIn = it :: rest → nextRuns .decode s → t.bitIn = rest) ∧
      (∀ item, s.boOffer = some item → s.boReady = true → nextRuns .encode s → t.bitOut = s.bitOut ++ [item]) ∧
      (∀ item, s.soOffer = some item → s.soReady = true → nextRuns .decode s → t.symOut = s.symOut ++ [item]) ∧
      (¬ nextRuns .count s → ¬ nextRuns .encode s → s.symIn <+: t.symIn) ∧
      (¬ nextRuns .decode s → s.bitIn <+: t.bitIn ∧ t.symOut = s.symOut) ∧
      (¬ nextRuns .encode s → t.bitOut = s.bitOut)
end

