-- ==== Sys2Proof/Laws/State.lean ====
section
/-! SUPPORT. One lemma per field per named update of the state, each true by unfolding, so that no later
proof unfolds a record update. -/

namespace Sys2Proof.Machine

@[simp] theorem accept_freq (opc : BitVec 4) (s : State) : (accept opc s).freq = s.freq := rfl
@[simp] theorem accept_node (opc : BitVec 4) (s : State) : (accept opc s).node = s.node := rfl
@[simp] theorem accept_rootValid (opc : BitVec 4) (s : State) : (accept opc s).rootValid = s.rootValid := rfl
@[simp] theorem accept_rootIdx (opc : BitVec 4) (s : State) : (accept opc s).rootIdx = s.rootIdx := rfl
@[simp] theorem accept_nleaf (opc : BitVec 4) (s : State) : (accept opc s).nleaf = s.nleaf := rfl
@[simp] theorem accept_code (opc : BitVec 4) (s : State) : (accept opc s).code = s.code := rfl
@[simp] theorem accept_cur (opc : BitVec 4) (s : State) : (accept opc s).cur = s.cur := rfl
@[simp] theorem accept_busy (opc : BitVec 4) (s : State) : (accept opc s).busy = true := rfl
@[simp] theorem accept_done (opc : BitVec 4) (s : State) : (accept opc s).done = false := rfl
@[simp] theorem accept_op (opc : BitVec 4) (s : State) : (accept opc s).op = opc := rfl
@[simp] theorem accept_errcode (opc : BitVec 4) (s : State) : (accept opc s).errcode = s.errcode := rfl
@[simp] theorem accept_errinfo (opc : BitVec 4) (s : State) : (accept opc s).errinfo = s.errinfo := rfl
@[simp] theorem accept_midpath (opc : BitVec 4) (s : State) : (accept opc s).midpath = s.midpath := rfl
@[simp] theorem accept_wign (opc : BitVec 4) (s : State) : (accept opc s).wign = s.wign := rfl
@[simp] theorem accept_act (opc : BitVec 4) (s : State) : (accept opc s).act = s.act := rfl
@[simp] theorem accept_nextSlot (opc : BitVec 4) (s : State) : (accept opc s).nextSlot = s.nextSlot := rfl
@[simp] theorem accept_stack (opc : BitVec 4) (s : State) : (accept opc s).stack = s.stack := rfl
@[simp] theorem accept_esym (opc : BitVec 4) (s : State) : (accept opc s).esym = s.esym := rfl
@[simp] theorem accept_ebit (opc : BitVec 4) (s : State) : (accept opc s).ebit = s.ebit := rfl
@[simp] theorem accept_phase (opc : BitVec 4) (s : State) : (accept opc s).phase = s.phase := rfl
@[simp] theorem accept_symIn (opc : BitVec 4) (s : State) : (accept opc s).symIn = s.symIn := rfl
@[simp] theorem accept_bitIn (opc : BitVec 4) (s : State) : (accept opc s).bitIn = s.bitIn := rfl
@[simp] theorem accept_bitOut (opc : BitVec 4) (s : State) : (accept opc s).bitOut = s.bitOut := rfl
@[simp] theorem accept_symOut (opc : BitVec 4) (s : State) : (accept opc s).symOut = s.symOut := rfl
@[simp] theorem accept_boReady (opc : BitVec 4) (s : State) : (accept opc s).boReady = s.boReady := rfl
@[simp] theorem accept_soReady (opc : BitVec 4) (s : State) : (accept opc s).soReady = s.soReady := rfl
@[simp] theorem accept_script (opc : BitVec 4) (s : State) : (accept opc s).script = s.script := rfl
@[simp] theorem accept_hReads (opc : BitVec 4) (s : State) : (accept opc s).hReads = s.hReads := rfl
@[simp] theorem accept_busyPeriod (opc : BitVec 4) (s : State) : (accept opc s).busyPeriod = s.busyPeriod := rfl
@[simp] theorem accept_draws (opc : BitVec 4) (s : State) : (accept opc s).draws = s.draws := rfl

@[simp] theorem finish_freq (s : State) : (finish s).freq = s.freq := rfl
@[simp] theorem finish_node (s : State) : (finish s).node = s.node := rfl
@[simp] theorem finish_rootValid (s : State) : (finish s).rootValid = s.rootValid := rfl
@[simp] theorem finish_rootIdx (s : State) : (finish s).rootIdx = s.rootIdx := rfl
@[simp] theorem finish_nleaf (s : State) : (finish s).nleaf = s.nleaf := rfl
@[simp] theorem finish_code (s : State) : (finish s).code = s.code := rfl
@[simp] theorem finish_cur (s : State) : (finish s).cur = s.cur := rfl
@[simp] theorem finish_busy (s : State) : (finish s).busy = false := rfl
@[simp] theorem finish_done (s : State) : (finish s).done = true := rfl
@[simp] theorem finish_op (s : State) : (finish s).op = s.op := rfl
@[simp] theorem finish_errcode (s : State) : (finish s).errcode = s.errcode := rfl
@[simp] theorem finish_errinfo (s : State) : (finish s).errinfo = s.errinfo := rfl
@[simp] theorem finish_midpath (s : State) : (finish s).midpath = s.midpath := rfl
@[simp] theorem finish_wign (s : State) : (finish s).wign = s.wign := rfl
@[simp] theorem finish_act (s : State) : (finish s).act = s.act := rfl
@[simp] theorem finish_nextSlot (s : State) : (finish s).nextSlot = s.nextSlot := rfl
@[simp] theorem finish_stack (s : State) : (finish s).stack = s.stack := rfl
@[simp] theorem finish_esym (s : State) : (finish s).esym = s.esym := rfl
@[simp] theorem finish_ebit (s : State) : (finish s).ebit = s.ebit := rfl
@[simp] theorem finish_phase (s : State) : (finish s).phase = .idle := rfl
@[simp] theorem finish_symIn (s : State) : (finish s).symIn = s.symIn := rfl
@[simp] theorem finish_bitIn (s : State) : (finish s).bitIn = s.bitIn := rfl
@[simp] theorem finish_bitOut (s : State) : (finish s).bitOut = s.bitOut := rfl
@[simp] theorem finish_symOut (s : State) : (finish s).symOut = s.symOut := rfl
@[simp] theorem finish_boReady (s : State) : (finish s).boReady = s.boReady := rfl
@[simp] theorem finish_soReady (s : State) : (finish s).soReady = s.soReady := rfl
@[simp] theorem finish_script (s : State) : (finish s).script = s.script := rfl
@[simp] theorem finish_hReads (s : State) : (finish s).hReads = s.hReads := rfl
@[simp] theorem finish_busyPeriod (s : State) : (finish s).busyPeriod = s.busyPeriod := rfl
@[simp] theorem finish_draws (s : State) : (finish s).draws = s.draws := rfl

@[simp] theorem raiseFault_freq (code : BitVec 4) (info : Word) (s : State) : (raiseFault code info s).freq = s.freq := rfl
@[simp] theorem raiseFault_node (code : BitVec 4) (info : Word) (s : State) : (raiseFault code info s).node = s.node := rfl
@[simp] theorem raiseFault_rootValid (code : BitVec 4) (info : Word) (s : State) : (raiseFault code info s).rootValid = s.rootValid := rfl
@[simp] theorem raiseFault_rootIdx (code : BitVec 4) (info : Word) (s : State) : (raiseFault code info s).rootIdx = s.rootIdx := rfl
@[simp] theorem raiseFault_nleaf (code : BitVec 4) (info : Word) (s : State) : (raiseFault code info s).nleaf = s.nleaf := rfl
@[simp] theorem raiseFault_code (code : BitVec 4) (info : Word) (s : State) : (raiseFault code info s).code = s.code := rfl
@[simp] theorem raiseFault_cur (code : BitVec 4) (info : Word) (s : State) : (raiseFault code info s).cur = s.cur := rfl
@[simp] theorem raiseFault_busy (code : BitVec 4) (info : Word) (s : State) : (raiseFault code info s).busy = false := rfl
@[simp] theorem raiseFault_done (code : BitVec 4) (info : Word) (s : State) : (raiseFault code info s).done = true := rfl
@[simp] theorem raiseFault_op (code : BitVec 4) (info : Word) (s : State) : (raiseFault code info s).op = s.op := rfl
@[simp] theorem raiseFault_errcode (code : BitVec 4) (info : Word) (s : State) : (raiseFault code info s).errcode = code := rfl
@[simp] theorem raiseFault_errinfo (code : BitVec 4) (info : Word) (s : State) : (raiseFault code info s).errinfo = info := rfl
@[simp] theorem raiseFault_midpath (code : BitVec 4) (info : Word) (s : State) : (raiseFault code info s).midpath = s.midpath := rfl
@[simp] theorem raiseFault_wign (code : BitVec 4) (info : Word) (s : State) : (raiseFault code info s).wign = s.wign := rfl
@[simp] theorem raiseFault_act (code : BitVec 4) (info : Word) (s : State) : (raiseFault code info s).act = s.act := rfl
@[simp] theorem raiseFault_nextSlot (code : BitVec 4) (info : Word) (s : State) : (raiseFault code info s).nextSlot = s.nextSlot := rfl
@[simp] theorem raiseFault_stack (code : BitVec 4) (info : Word) (s : State) : (raiseFault code info s).stack = s.stack := rfl
@[simp] theorem raiseFault_esym (code : BitVec 4) (info : Word) (s : State) : (raiseFault code info s).esym = s.esym := rfl
@[simp] theorem raiseFault_ebit (code : BitVec 4) (info : Word) (s : State) : (raiseFault code info s).ebit = s.ebit := rfl
@[simp] theorem raiseFault_phase (code : BitVec 4) (info : Word) (s : State) : (raiseFault code info s).phase = .idle := rfl
@[simp] theorem raiseFault_symIn (code : BitVec 4) (info : Word) (s : State) : (raiseFault code info s).symIn = s.symIn := rfl
@[simp] theorem raiseFault_bitIn (code : BitVec 4) (info : Word) (s : State) : (raiseFault code info s).bitIn = s.bitIn := rfl
@[simp] theorem raiseFault_bitOut (code : BitVec 4) (info : Word) (s : State) : (raiseFault code info s).bitOut = s.bitOut := rfl
@[simp] theorem raiseFault_symOut (code : BitVec 4) (info : Word) (s : State) : (raiseFault code info s).symOut = s.symOut := rfl
@[simp] theorem raiseFault_boReady (code : BitVec 4) (info : Word) (s : State) : (raiseFault code info s).boReady = s.boReady := rfl
@[simp] theorem raiseFault_soReady (code : BitVec 4) (info : Word) (s : State) : (raiseFault code info s).soReady = s.soReady := rfl
@[simp] theorem raiseFault_script (code : BitVec 4) (info : Word) (s : State) : (raiseFault code info s).script = s.script := rfl
@[simp] theorem raiseFault_hReads (code : BitVec 4) (info : Word) (s : State) : (raiseFault code info s).hReads = s.hReads := rfl
@[simp] theorem raiseFault_busyPeriod (code : BitVec 4) (info : Word) (s : State) : (raiseFault code info s).busyPeriod = s.busyPeriod := rfl
@[simp] theorem raiseFault_draws (code : BitVec 4) (info : Word) (s : State) : (raiseFault code info s).draws = s.draws := rfl

@[simp] theorem ignoreWrite_freq (s : State) : (ignoreWrite s).freq = s.freq := rfl
@[simp] theorem ignoreWrite_node (s : State) : (ignoreWrite s).node = s.node := rfl
@[simp] theorem ignoreWrite_rootValid (s : State) : (ignoreWrite s).rootValid = s.rootValid := rfl
@[simp] theorem ignoreWrite_rootIdx (s : State) : (ignoreWrite s).rootIdx = s.rootIdx := rfl
@[simp] theorem ignoreWrite_nleaf (s : State) : (ignoreWrite s).nleaf = s.nleaf := rfl
@[simp] theorem ignoreWrite_code (s : State) : (ignoreWrite s).code = s.code := rfl
@[simp] theorem ignoreWrite_cur (s : State) : (ignoreWrite s).cur = s.cur := rfl
@[simp] theorem ignoreWrite_busy (s : State) : (ignoreWrite s).busy = s.busy := rfl
@[simp] theorem ignoreWrite_done (s : State) : (ignoreWrite s).done = s.done := rfl
@[simp] theorem ignoreWrite_op (s : State) : (ignoreWrite s).op = s.op := rfl
@[simp] theorem ignoreWrite_errcode (s : State) : (ignoreWrite s).errcode = s.errcode := rfl
@[simp] theorem ignoreWrite_errinfo (s : State) : (ignoreWrite s).errinfo = s.errinfo := rfl
@[simp] theorem ignoreWrite_midpath (s : State) : (ignoreWrite s).midpath = s.midpath := rfl
@[simp] theorem ignoreWrite_wign (s : State) : (ignoreWrite s).wign = true := rfl
@[simp] theorem ignoreWrite_act (s : State) : (ignoreWrite s).act = s.act := rfl
@[simp] theorem ignoreWrite_nextSlot (s : State) : (ignoreWrite s).nextSlot = s.nextSlot := rfl
@[simp] theorem ignoreWrite_stack (s : State) : (ignoreWrite s).stack = s.stack := rfl
@[simp] theorem ignoreWrite_esym (s : State) : (ignoreWrite s).esym = s.esym := rfl
@[simp] theorem ignoreWrite_ebit (s : State) : (ignoreWrite s).ebit = s.ebit := rfl
@[simp] theorem ignoreWrite_phase (s : State) : (ignoreWrite s).phase = s.phase := rfl
@[simp] theorem ignoreWrite_symIn (s : State) : (ignoreWrite s).symIn = s.symIn := rfl
@[simp] theorem ignoreWrite_bitIn (s : State) : (ignoreWrite s).bitIn = s.bitIn := rfl
@[simp] theorem ignoreWrite_bitOut (s : State) : (ignoreWrite s).bitOut = s.bitOut := rfl
@[simp] theorem ignoreWrite_symOut (s : State) : (ignoreWrite s).symOut = s.symOut := rfl
@[simp] theorem ignoreWrite_boReady (s : State) : (ignoreWrite s).boReady = s.boReady := rfl
@[simp] theorem ignoreWrite_soReady (s : State) : (ignoreWrite s).soReady = s.soReady := rfl
@[simp] theorem ignoreWrite_script (s : State) : (ignoreWrite s).script = s.script := rfl
@[simp] theorem ignoreWrite_hReads (s : State) : (ignoreWrite s).hReads = s.hReads := rfl
@[simp] theorem ignoreWrite_busyPeriod (s : State) : (ignoreWrite s).busyPeriod = s.busyPeriod := rfl
@[simp] theorem ignoreWrite_draws (s : State) : (ignoreWrite s).draws = s.draws := rfl

@[simp] theorem discardTree_freq (s : State) : (discardTree s).freq = s.freq := rfl
@[simp] theorem discardTree_node (s : State) : (discardTree s).node = s.node := rfl
@[simp] theorem discardTree_rootValid (s : State) : (discardTree s).rootValid = false := rfl
@[simp] theorem discardTree_rootIdx (s : State) : (discardTree s).rootIdx = Config.nil := rfl
@[simp] theorem discardTree_nleaf (s : State) : (discardTree s).nleaf = 0 := rfl
@[simp] theorem discardTree_code (s : State) : (discardTree s).code = s.code := rfl
@[simp] theorem discardTree_cur (s : State) : (discardTree s).cur = s.cur := rfl
@[simp] theorem discardTree_busy (s : State) : (discardTree s).busy = s.busy := rfl
@[simp] theorem discardTree_done (s : State) : (discardTree s).done = s.done := rfl
@[simp] theorem discardTree_op (s : State) : (discardTree s).op = s.op := rfl
@[simp] theorem discardTree_errcode (s : State) : (discardTree s).errcode = s.errcode := rfl
@[simp] theorem discardTree_errinfo (s : State) : (discardTree s).errinfo = s.errinfo := rfl
@[simp] theorem discardTree_midpath (s : State) : (discardTree s).midpath = s.midpath := rfl
@[simp] theorem discardTree_wign (s : State) : (discardTree s).wign = s.wign := rfl
@[simp] theorem discardTree_act (s : State) : (discardTree s).act = s.act := rfl
@[simp] theorem discardTree_nextSlot (s : State) : (discardTree s).nextSlot = s.nextSlot := rfl
@[simp] theorem discardTree_stack (s : State) : (discardTree s).stack = s.stack := rfl
@[simp] theorem discardTree_esym (s : State) : (discardTree s).esym = s.esym := rfl
@[simp] theorem discardTree_ebit (s : State) : (discardTree s).ebit = s.ebit := rfl
@[simp] theorem discardTree_phase (s : State) : (discardTree s).phase = s.phase := rfl
@[simp] theorem discardTree_symIn (s : State) : (discardTree s).symIn = s.symIn := rfl
@[simp] theorem discardTree_bitIn (s : State) : (discardTree s).bitIn = s.bitIn := rfl
@[simp] theorem discardTree_bitOut (s : State) : (discardTree s).bitOut = s.bitOut := rfl
@[simp] theorem discardTree_symOut (s : State) : (discardTree s).symOut = s.symOut := rfl
@[simp] theorem discardTree_boReady (s : State) : (discardTree s).boReady = s.boReady := rfl
@[simp] theorem discardTree_soReady (s : State) : (discardTree s).soReady = s.soReady := rfl
@[simp] theorem discardTree_script (s : State) : (discardTree s).script = s.script := rfl
@[simp] theorem discardTree_hReads (s : State) : (discardTree s).hReads = s.hReads := rfl
@[simp] theorem discardTree_busyPeriod (s : State) : (discardTree s).busyPeriod = s.busyPeriod := rfl
@[simp] theorem discardTree_draws (s : State) : (discardTree s).draws = s.draws := rfl

@[simp] theorem clearJob_freq (s : State) : (clearJob s).freq = emptyFreq := rfl
@[simp] theorem clearJob_node (s : State) : (clearJob s).node = s.node := rfl
@[simp] theorem clearJob_rootValid (s : State) : (clearJob s).rootValid = false := rfl
@[simp] theorem clearJob_rootIdx (s : State) : (clearJob s).rootIdx = Config.nil := rfl
@[simp] theorem clearJob_nleaf (s : State) : (clearJob s).nleaf = 0 := rfl
@[simp] theorem clearJob_code (s : State) : (clearJob s).code = emptyCode := rfl
@[simp] theorem clearJob_cur (s : State) : (clearJob s).cur = s.cur := rfl
@[simp] theorem clearJob_busy (s : State) : (clearJob s).busy = s.busy := rfl
@[simp] theorem clearJob_done (s : State) : (clearJob s).done = s.done := rfl
@[simp] theorem clearJob_op (s : State) : (clearJob s).op = s.op := rfl
@[simp] theorem clearJob_errcode (s : State) : (clearJob s).errcode = 0 := rfl
@[simp] theorem clearJob_errinfo (s : State) : (clearJob s).errinfo = 0 := rfl
@[simp] theorem clearJob_midpath (s : State) : (clearJob s).midpath = false := rfl
@[simp] theorem clearJob_wign (s : State) : (clearJob s).wign = false := rfl
@[simp] theorem clearJob_act (s : State) : (clearJob s).act = s.act := rfl
@[simp] theorem clearJob_nextSlot (s : State) : (clearJob s).nextSlot = s.nextSlot := rfl
@[simp] theorem clearJob_stack (s : State) : (clearJob s).stack = s.stack := rfl
@[simp] theorem clearJob_esym (s : State) : (clearJob s).esym = s.esym := rfl
@[simp] theorem clearJob_ebit (s : State) : (clearJob s).ebit = s.ebit := rfl
@[simp] theorem clearJob_phase (s : State) : (clearJob s).phase = s.phase := rfl
@[simp] theorem clearJob_symIn (s : State) : (clearJob s).symIn = s.symIn := rfl
@[simp] theorem clearJob_bitIn (s : State) : (clearJob s).bitIn = s.bitIn := rfl
@[simp] theorem clearJob_bitOut (s : State) : (clearJob s).bitOut = s.bitOut := rfl
@[simp] theorem clearJob_symOut (s : State) : (clearJob s).symOut = s.symOut := rfl
@[simp] theorem clearJob_boReady (s : State) : (clearJob s).boReady = s.boReady := rfl
@[simp] theorem clearJob_soReady (s : State) : (clearJob s).soReady = s.soReady := rfl
@[simp] theorem clearJob_script (s : State) : (clearJob s).script = s.script := rfl
@[simp] theorem clearJob_hReads (s : State) : (clearJob s).hReads = s.hReads := rfl
@[simp] theorem clearJob_busyPeriod (s : State) : (clearJob s).busyPeriod = s.busyPeriod := rfl
@[simp] theorem clearJob_draws (s : State) : (clearJob s).draws = s.draws := rfl

@[simp] theorem buildClear_freq (s : State) : (buildClear s).freq = s.freq := rfl
@[simp] theorem buildClear_node (s : State) : (buildClear s).node = s.node := rfl
@[simp] theorem buildClear_rootValid (s : State) : (buildClear s).rootValid = false := rfl
@[simp] theorem buildClear_rootIdx (s : State) : (buildClear s).rootIdx = Config.nil := rfl
@[simp] theorem buildClear_nleaf (s : State) : (buildClear s).nleaf = 0 := rfl
@[simp] theorem buildClear_code (s : State) : (buildClear s).code = emptyCode := rfl
@[simp] theorem buildClear_cur (s : State) : (buildClear s).cur = s.cur := rfl
@[simp] theorem buildClear_busy (s : State) : (buildClear s).busy = s.busy := rfl
@[simp] theorem buildClear_done (s : State) : (buildClear s).done = s.done := rfl
@[simp] theorem buildClear_op (s : State) : (buildClear s).op = s.op := rfl
@[simp] theorem buildClear_errcode (s : State) : (buildClear s).errcode = s.errcode := rfl
@[simp] theorem buildClear_errinfo (s : State) : (buildClear s).errinfo = s.errinfo := rfl
@[simp] theorem buildClear_midpath (s : State) : (buildClear s).midpath = s.midpath := rfl
@[simp] theorem buildClear_wign (s : State) : (buildClear s).wign = s.wign := rfl
@[simp] theorem buildClear_act (s : State) : (buildClear s).act = s.act := rfl
@[simp] theorem buildClear_nextSlot (s : State) : (buildClear s).nextSlot = s.nextSlot := rfl
@[simp] theorem buildClear_stack (s : State) : (buildClear s).stack = s.stack := rfl
@[simp] theorem buildClear_esym (s : State) : (buildClear s).esym = s.esym := rfl
@[simp] theorem buildClear_ebit (s : State) : (buildClear s).ebit = s.ebit := rfl
@[simp] theorem buildClear_phase (s : State) : (buildClear s).phase = s.phase := rfl
@[simp] theorem buildClear_symIn (s : State) : (buildClear s).symIn = s.symIn := rfl
@[simp] theorem buildClear_bitIn (s : State) : (buildClear s).bitIn = s.bitIn := rfl
@[simp] theorem buildClear_bitOut (s : State) : (buildClear s).bitOut = s.bitOut := rfl
@[simp] theorem buildClear_symOut (s : State) : (buildClear s).symOut = s.symOut := rfl
@[simp] theorem buildClear_boReady (s : State) : (buildClear s).boReady = s.boReady := rfl
@[simp] theorem buildClear_soReady (s : State) : (buildClear s).soReady = s.soReady := rfl
@[simp] theorem buildClear_script (s : State) : (buildClear s).script = s.script := rfl
@[simp] theorem buildClear_hReads (s : State) : (buildClear s).hReads = s.hReads := rfl
@[simp] theorem buildClear_busyPeriod (s : State) : (buildClear s).busyPeriod = s.busyPeriod := rfl
@[simp] theorem buildClear_draws (s : State) : (buildClear s).draws = s.draws := rfl

@[simp] theorem resetCore_freq (s : State) : (resetCore s).freq = State.reset.freq := rfl
@[simp] theorem resetCore_node (s : State) : (resetCore s).node = State.reset.node := rfl
@[simp] theorem resetCore_rootValid (s : State) : (resetCore s).rootValid = State.reset.rootValid := rfl
@[simp] theorem resetCore_rootIdx (s : State) : (resetCore s).rootIdx = State.reset.rootIdx := rfl
@[simp] theorem resetCore_nleaf (s : State) : (resetCore s).nleaf = State.reset.nleaf := rfl
@[simp] theorem resetCore_code (s : State) : (resetCore s).code = State.reset.code := rfl
@[simp] theorem resetCore_cur (s : State) : (resetCore s).cur = State.reset.cur := rfl
@[simp] theorem resetCore_busy (s : State) : (resetCore s).busy = State.reset.busy := rfl
@[simp] theorem resetCore_done (s : State) : (resetCore s).done = State.reset.done := rfl
@[simp] theorem resetCore_op (s : State) : (resetCore s).op = State.reset.op := rfl
@[simp] theorem resetCore_errcode (s : State) : (resetCore s).errcode = State.reset.errcode := rfl
@[simp] theorem resetCore_errinfo (s : State) : (resetCore s).errinfo = State.reset.errinfo := rfl
@[simp] theorem resetCore_midpath (s : State) : (resetCore s).midpath = State.reset.midpath := rfl
@[simp] theorem resetCore_wign (s : State) : (resetCore s).wign = State.reset.wign := rfl
@[simp] theorem resetCore_act (s : State) : (resetCore s).act = State.reset.act := rfl
@[simp] theorem resetCore_nextSlot (s : State) : (resetCore s).nextSlot = State.reset.nextSlot := rfl
@[simp] theorem resetCore_stack (s : State) : (resetCore s).stack = State.reset.stack := rfl
@[simp] theorem resetCore_esym (s : State) : (resetCore s).esym = State.reset.esym := rfl
@[simp] theorem resetCore_ebit (s : State) : (resetCore s).ebit = State.reset.ebit := rfl
@[simp] theorem resetCore_phase (s : State) : (resetCore s).phase = State.reset.phase := rfl
@[simp] theorem resetCore_symIn (s : State) : (resetCore s).symIn = s.symIn := rfl
@[simp] theorem resetCore_bitIn (s : State) : (resetCore s).bitIn = s.bitIn := rfl
@[simp] theorem resetCore_bitOut (s : State) : (resetCore s).bitOut = s.bitOut := rfl
@[simp] theorem resetCore_symOut (s : State) : (resetCore s).symOut = s.symOut := rfl
@[simp] theorem resetCore_boReady (s : State) : (resetCore s).boReady = s.boReady := rfl
@[simp] theorem resetCore_soReady (s : State) : (resetCore s).soReady = s.soReady := rfl
@[simp] theorem resetCore_script (s : State) : (resetCore s).script = s.script := rfl
@[simp] theorem resetCore_hReads (s : State) : (resetCore s).hReads = s.hReads := rfl
@[simp] theorem resetCore_busyPeriod (s : State) : (resetCore s).busyPeriod = s.busyPeriod := rfl
@[simp] theorem resetCore_draws (s : State) : (resetCore s).draws = s.draws := rfl

end Sys2Proof.Machine
end

