-- ==== Sys2Proof/Laws/Ops.lean ====
section
/-! SUPPORT. One lemma per shared operation: what it answers, in each of its cases. -/

namespace Sys2Proof.Machine

/-! Tables. -/

@[simp] theorem symEntry_setSymEntry {α : Type} (t : Vector α Config.nsym) (x y : Sym) (v : α) :
    symEntry (setSymEntry t x v) y = if x = y then v else symEntry t y := by
  simp only [symEntry, setSymEntry, Vector.getElem_set, BitVec.toNat_inj]

@[simp] theorem symEntry_emptyFreq (x : Sym) : symEntry emptyFreq x = 0 := by
  simp [symEntry, emptyFreq]

@[simp] theorem symEntry_emptyCode (x : Sym) : symEntry emptyCode x = [] := by
  simp [symEntry, emptyCode]

theorem table_ext {α : Type} {t u : Vector α Config.nsym} (h : ∀ x, symEntry t x = symEntry u x) :
    t = u := by
  apply Vector.ext
  intro i hi
  have := h (BitVec.ofNat 8 i)
  simpa [symEntry, Nat.mod_eq_of_lt hi] using this

/-! Streams. -/

@[simp] theorem readItem_symItem (x : Sym) : readItem (symItem x) = .data x := rfl
@[simp] theorem readItem_bitItem (b : Bool) : readItem (bitItem b) = .data (BitVec.ofBool b) := rfl
@[simp] theorem readItem_endOfInput (n : Nat) : readItem (endOfInput n) = .endItem := rfl

theorem takeSym_nil {s : State} {k : InItem 8 → State → Outcome} (h : s.symIn = []) :
    takeSym s k = .next s := by simp [takeSym, h]

theorem takeSym_cons {s : State} {k : InItem 8 → State → Outcome} {it : RawItem 8}
    {rest : List (RawItem 8)} (h : s.symIn = it :: rest) :
    takeSym s k = k (readItem it) { s with symIn := rest } := by simp [takeSym, h]

theorem takeBit_nil {s : State} {k : InItem 1 → State → Outcome} (h : s.bitIn = []) :
    takeBit s k = .next s := by simp [takeBit, h]

theorem takeBit_cons {s : State} {k : InItem 1 → State → Outcome} {it : RawItem 1}
    {rest : List (RawItem 1)} (h : s.bitIn = it :: rest) :
    takeBit s k = k (readItem it) { s with bitIn := rest } := by simp [takeBit, h]

theorem putBit_taken {item : OutItem 1} {s : State} {k : State → State} (h : s.boReady = true) :
    putBit item s k = .next (k { s with bitOut := s.bitOut ++ [item] }) := by simp [putBit, h]

theorem putBit_waits {item : OutItem 1} {s : State} {k : State → State} (h : s.boReady = false) :
    putBit item s k = .next s := by simp [putBit, h]

theorem putSym_taken {item : OutItem 8} {s : State} {k : State → State} (h : s.soReady = true) :
    putSym item s k = .next (k { s with symOut := s.symOut ++ [item] }) := by simp [putSym, h]

theorem putSym_waits {item : OutItem 8} {s : State} {k : State → State} (h : s.soReady = false) :
    putSym item s k = .next s := by simp [putSym, h]

/-! The shapes of a command's move. -/

theorem exec_clr (s : State) : exec .clr s = atomicMove (opcodeOf .clr) (fun t => .next (clrEffect t)) s := rfl

theorem exec_count (s : State) : exec .count s = streamMove (opcodeOf .count) countStart countTransfer s := rfl

theorem exec_build (s : State) :
    exec .build s = atomicMove (opcodeOf .build) (fun t => .next (buildEffect t)) s := rfl

theorem exec_derive (s : State) : exec .derive s = atomicMove (opcodeOf .derive) deriveEffect s := rfl

theorem exec_encode (s : State) :
    exec .encode s = streamMove (opcodeOf .encode) encodeStart encodeTransfer s := rfl

theorem exec_decode (s : State) :
    exec .decode s = streamMove (opcodeOf .decode) decodeStart decodeTransfer s := rfl

theorem atomicMove_accept {opc : BitVec 4} {effect : State → Outcome} {s : State}
    (hb : s.busy = false) (hp : s.busyPeriod = 0) :
    atomicMove opc effect s = effect (accept opc s) := by simp [atomicMove, hb, hp]

theorem atomicMove_acceptWorking {opc : BitVec 4} {effect : State → Outcome} {s : State} {n : Nat}
    (hb : s.busy = false) (hp : s.busyPeriod = n + 1) :
    atomicMove opc effect s = .next { accept opc s with phase := .working n } := by
  simp [atomicMove, hb, hp]

theorem atomicMove_due {opc : BitVec 4} {effect : State → Outcome} {s : State}
    (hb : s.busy = true) (hp : s.phase = .working 0) :
    atomicMove opc effect s = effect s := by simp [atomicMove, hb, hp]

theorem atomicMove_working {opc : BitVec 4} {effect : State → Outcome} {s : State} {n : Nat}
    (hb : s.busy = true) (hp : s.phase = .working (n + 1)) :
    atomicMove opc effect s = .next { s with phase := .working n } := by simp [atomicMove, hb, hp]

/-- Everything an atomic command's move can do. -/
theorem atomicMove_cases {opc : BitVec 4} {effect : State → Outcome} {s t : State}
    (h : atomicMove opc effect s = .next t) :
    (s.busy = false ∧ s.busyPeriod = 0 ∧ effect (accept opc s) = .next t) ∨
    (∃ n, s.busy = false ∧ s.busyPeriod = n + 1 ∧ t = { accept opc s with phase := .working n }) ∨
    (s.busy = true ∧ s.phase = .working 0 ∧ effect s = .next t) ∨
    (∃ n, s.busy = true ∧ s.phase = .working (n + 1) ∧ t = { s with phase := .working n }) := by
  rcases Bool.eq_false_or_eq_true s.busy with hb | hb
  · cases hp : s.phase with
    | working n =>
      cases n with
      | zero => exact .inr (.inr (.inl ⟨hb, rfl, by rwa [atomicMove_due hb hp] at h⟩))
      | succ n =>
        rw [atomicMove_working hb hp] at h
        exact .inr (.inr (.inr ⟨n, hb, rfl, (Host.Outcome.next.inj h).symm⟩))
    | idle => simp [atomicMove, hb, hp] at h
    | take => simp [atomicMove, hb, hp] at h
    | emitBit => simp [atomicMove, hb, hp] at h
    | emitSym v => simp [atomicMove, hb, hp] at h
    | close e => simp [atomicMove, hb, hp] at h
  · cases hp : s.busyPeriod with
    | zero => exact .inl ⟨hb, rfl, by rwa [atomicMove_accept hb hp] at h⟩
    | succ n =>
      rw [atomicMove_acceptWorking hb hp] at h
      exact .inr (.inl ⟨n, hb, rfl, (Host.Outcome.next.inj h).symm⟩)

theorem streamMove_accept {opc : BitVec 4} {start : State → State} {transfer : State → Outcome}
    {s : State} (hb : s.busy = false) :
    streamMove opc start transfer s = .next (start (accept opc s)) := by simp [streamMove, hb]

theorem streamMove_running {opc : BitVec 4} {start : State → State} {transfer : State → Outcome}
    {s : State} (hb : s.busy = true) : streamMove opc start transfer s = transfer s := by
  simp [streamMove, hb]

end Sys2Proof.Machine
end

