-- ==== Sys2Proof/Laws/Tree.lean ====
section
/-! SUPPORT. The node store and the Code Tree it holds: reading a slot back, fuel, and what a write to a
fresh slot leaves alone. -/

namespace Sys2Proof

open Sys2Proof.Machine

theorem slotAt_eq_some {node : Vector Slot Config.nnode} {i : Idx} (h : i.toNat < 511) :
    slotAt node i = some (node[i.toNat]'h) := by
  simp only [slotAt]
  exact Vector.getElem?_eq_getElem h

theorem slotAt_isSome_iff {node : Vector Slot Config.nnode} {i : Idx} :
    (∃ n, slotAt node i = some n) ↔ i.toNat < 511 := by
  constructor
  · rintro ⟨n, hn⟩
    by_contra hlt
    rw [slotAt, Vector.getElem?_eq_none (by simpa using hlt)] at hn
    cases hn
  · intro h
    exact ⟨_, slotAt_eq_some h⟩

/-- Reading a slot after a write to a slot. -/
theorem slotAt_setIfInBounds (node : Vector Slot Config.nnode) (i j : Idx) (n : Slot) :
    slotAt (node.setIfInBounds i.toNat n) j =
      if i = j then (if i.toNat < 511 then some n else none) else slotAt node j := by
  simp only [slotAt, Vector.getElem?_setIfInBounds, BitVec.toNat_inj]

/-- Everything reached from slot `i` is `i` itself or reached from a child of it (10_state.md R17). -/
theorem reaches_succ {node : Vector Slot Config.nnode} {f : Nat} {i j : Idx} :
    reaches node (f + 1) i j = true ↔ ∃ n, slotAt node i = some n ∧
      (i = j ∨ (n.leaf = false ∧ (reaches node f n.l j = true ∨ reaches node f n.r j = true))) := by
  rw [reaches]
  cases slotAt node i with
  | none => simp
  | some n => simp

theorem reaches_mono {node : Vector Slot Config.nnode} {f g : Nat} (hfg : f ≤ g) {i j : Idx}
    (h : reaches node f i j = true) : reaches node g i j = true := by
  induction f generalizing g i with
  | zero => cases h
  | succ f ih =>
    obtain ⟨g, rfl⟩ : ∃ k, g = k + 1 := ⟨g - 1, by omega⟩
    obtain ⟨n, hn, rfl | ⟨hl, h | h⟩⟩ := reaches_succ.mp h
    · exact reaches_succ.mpr ⟨n, hn, .inl rfl⟩
    · exact reaches_succ.mpr ⟨n, hn, .inr ⟨hl, .inl (ih (by omega) h)⟩⟩
    · exact reaches_succ.mpr ⟨n, hn, .inr ⟨hl, .inr (ih (by omega) h)⟩⟩

/-- More fuel gives the same tree. -/
theorem treeAt_mono {node : Vector Slot Config.nnode} {f g : Nat} (hfg : f ≤ g) {i : Idx} {t : Tree}
    (h : treeAt node f i = some t) : treeAt node g i = some t := by
  induction f generalizing g i t with
  | zero => simp [treeAt] at h
  | succ f ih =>
    obtain ⟨g, rfl⟩ : ∃ g', g = g' + 1 := ⟨g - 1, by omega⟩
    simp only [treeAt] at h ⊢
    cases hs : slotAt node i with
    | none => simp [hs] at h
    | some n =>
      simp only [hs] at h ⊢
      cases hl : n.leaf with
      | true => simpa [hl] using h
      | false =>
        simp only [hl, Bool.false_eq_true, if_false] at h ⊢
        cases ha : treeAt node f n.l with
        | none => simp [ha] at h
        | some a =>
          cases hb : treeAt node f n.r with
          | none => simp [ha, hb] at h
          | some b =>
            rw [ih (by omega) ha, ih (by omega) hb]
            simpa [ha, hb] using h

/-- The tree below a slot depends only on the slots its links lead to. -/
theorem treeAt_congr {node node' : Vector Slot Config.nnode} {P : Idx → Prop}
    (same : ∀ i, P i → slotAt node' i = slotAt node i)
    (down : ∀ i n, P i → slotAt node i = some n → n.leaf = false → P n.l ∧ P n.r)
    {f : Nat} {i : Idx} (hi : P i) {t : Tree} (h : treeAt node f i = some t) :
    treeAt node' f i = some t := by
  induction f generalizing i t with
  | zero => simp [treeAt] at h
  | succ f ih =>
    simp only [treeAt, same i hi] at h ⊢
    cases hs : slotAt node i with
    | none => simp [hs] at h
    | some n =>
      simp only [hs] at h ⊢
      cases hl : n.leaf with
      | true => simpa [hl] using h
      | false =>
        obtain ⟨h1, h2⟩ := down i n hi hs hl
        simp only [hl, Bool.false_eq_true, if_false] at h ⊢
        cases ha : treeAt node f n.l with
        | none => simp [ha] at h
        | some a =>
          cases hb : treeAt node f n.r with
          | none => simp [ha, hb] at h
          | some b =>
            rw [ih h1 ha, ih h2 hb]
            simpa [ha, hb] using h

/-- The weight of the tree below a slot is the slot's weight. -/
theorem treeAt_weight {node : Vector Slot Config.nnode} {f : Nat} {i : Idx} {t : Tree} {n : Slot}
    (h : treeAt node f i = some t) (hs : slotAt node i = some n) : t.weight = n.w.toNat := by
  cases f with
  | zero => simp [treeAt] at h
  | succ f =>
    simp only [treeAt, hs] at h
    cases hl : n.leaf with
    | true =>
      simp only [hl, if_true, Option.some.injEq] at h
      rw [← h]; rfl
    | false =>
      simp only [hl, Bool.false_eq_true, if_false] at h
      cases ha : treeAt node f n.l <;> cases hb : treeAt node f n.r <;> simp_all
      rw [← h]; rfl

namespace Tree

/-- With the weights in order, the root's weight is the sum of the leaves' (10_state.md R18). -/
theorem weight_eq_sum {t : Tree} (h : t.weightsOk) : t.weight = (t.leaves.map (·.2)).sum := by
  induction t with
  | leaf w x => simp [weight, leaves]
  | node w l r ihl ihr =>
    obtain ⟨hw, hl, hr⟩ := h
    simp only [leaves, List.map_append, List.sum_append, ← ihl hl, ← ihr hr]
    exact hw

/-- The paths name the leaves' symbols in order. -/
theorem paths_symbols (t : Tree) : t.paths.map (·.1) = t.leaves.map (·.1) := by
  induction t with
  | leaf w x => rfl
  | node w l r ihl ihr =>
    simp only [paths, leaves, List.map_append, List.map_map]
    rw [← ihl, ← ihr]
    rfl

end Tree

/-- A path in a tree of at most `f` levels has fewer than `f` steps. -/
theorem treeAt_path_length {node : Vector Slot Config.nnode} {f : Nat} {i : Idx} {t : Tree}
    (h : treeAt node f i = some t) : ∀ e ∈ t.paths, e.2.length < f := by
  induction f generalizing i t with
  | zero => simp [treeAt] at h
  | succ f ih =>
    simp only [treeAt] at h
    cases hs : slotAt node i with
    | none => simp [hs] at h
    | some n =>
      simp only [hs] at h
      cases hl : n.leaf with
      | true =>
        simp only [hl, if_true, Option.some.injEq] at h
        subst h
        simp [Tree.paths]
      | false =>
        simp only [hl, Bool.false_eq_true, if_false] at h
        cases ha : treeAt node f n.l with
        | none => simp [ha] at h
        | some a =>
          cases hb : treeAt node f n.r with
          | none => simp [ha, hb] at h
          | some b =>
            simp only [ha, hb, Option.some.injEq] at h
            subst h
            simp only [Tree.paths, List.mem_append, List.mem_map]
            rintro e (⟨e', he', rfl⟩ | ⟨e', he', rfl⟩)
            · simpa using ih ha e' he'
            · simpa using ih hb e' he'

end Sys2Proof
end

