-- ==== Sys2Proof/Laws/Builder.lean ====
section
/-! SUPPORT. BUILD's collection: what `least`, one merge and all merges do, and the tree they leave
(41_tree_builder.md R103 to R106, R111). -/

namespace Sys2Proof

open Sys2Proof.Machine

/-! The least member. -/

theorem keyBefore_iff (w₁ w₂ : Word) (i₁ i₂ : Idx) :
    keyBefore w₁ i₁ w₂ i₂ = true ↔ w₁ < w₂ ∨ (w₁ = w₂ ∧ i₁ < i₂) := by
  simp [keyBefore, Config.tie]

theorem keyBefore_trans {w₁ w₂ w₃ : Word} {i₁ i₂ i₃ : Idx} (h : keyBefore w₁ i₁ w₂ i₂ = true)
    (h' : keyBefore w₂ i₂ w₃ i₃ = true) : keyBefore w₁ i₁ w₃ i₃ = true := by
  rw [keyBefore_iff] at *
  rcases h with h | ⟨rfl, h⟩ <;> rcases h' with h' | ⟨rfl, h'⟩
  · exact .inl (by bv_omega)
  · exact .inl h
  · exact .inl h'
  · exact .inr ⟨rfl, by bv_omega⟩

/-- Of two different keys the one that is not before is after. -/
theorem keyBefore_total {w₁ w₂ : Word} {i₁ i₂ : Idx} (hne : i₁ ≠ i₂)
    (h : keyBefore w₁ i₁ w₂ i₂ = false) : keyBefore w₂ i₂ w₁ i₁ = true := by
  have h' : ¬ (w₁ < w₂ ∨ (w₁ = w₂ ∧ i₁ < i₂)) := by
    rw [← keyBefore_iff, h]
    simp
  rw [keyBefore_iff]
  by_cases hw : w₁ = w₂
  · subst hw
    have : ¬ i₁ < i₂ := fun hlt => h' (.inr ⟨rfl, hlt⟩)
    exact .inr ⟨rfl, by bv_omega⟩
  · have : ¬ w₁ < w₂ := fun hlt => h' (.inl hlt)
    exact .inl (by bv_omega)

theorem leastFrom_cons (i : Nat) (a : Bool) (n : Slot) (rest : List (Bool × Slot)) :
    leastFrom i ((a, n) :: rest) =
      match leastFrom (i + 1) rest with
      | none => if a then some (BitVec.ofNat 9 i, n.w) else none
      | some (j, w) =>
        if a && keyBefore n.w (BitVec.ofNat 9 i) w j then some (BitVec.ofNat 9 i, n.w) else some (j, w) := by
  cases a <;> cases hr : leastFrom (i + 1) rest <;> simp [leastFrom, hr]

/-- What the scan of the collection answers: nothing when no flag is set; else a flagged slot with its
weight, whose key is before that of every other flagged slot. -/
theorem leastFrom_spec (L : List (Bool × Slot)) (i : Nat) (hi : i + L.length ≤ 511) :
    match leastFrom i L with
    | none => ∀ k (hk : k < L.length), L[k].1 = false
    | some (m, w) => ∃ k, ∃ hk : k < L.length, L[k].1 = true ∧ m = BitVec.ofNat 9 (i + k) ∧ w = L[k].2.w ∧
        ∀ k' (hk' : k' < L.length), L[k'].1 = true → k' ≠ k →
          keyBefore w m L[k'].2.w (BitVec.ofNat 9 (i + k')) = true := by
  induction L generalizing i with
  | nil => simp [leastFrom]
  | cons e rest ih =>
    obtain ⟨a, n⟩ := e
    simp only [List.length_cons] at hi
    have ihr := ih (i + 1) (by omega)
    rw [leastFrom_cons]
    cases hr : leastFrom (i + 1) rest with
    | none =>
      simp only [hr] at ihr ⊢
      cases a with
      | false =>
        simp only [Bool.false_eq_true, if_false]
        intro k hk
        cases k with
        | zero => rfl
        | succ k => exact ihr k (by simpa using hk)
      | true =>
        simp only [if_true]
        refine ⟨0, by simp, rfl, by simp, rfl, ?_⟩
        intro k' hk' hf hne
        cases k' with
        | zero => exact absurd rfl hne
        | succ k' =>
          have := ihr k' (by simpa using hk')
          simp [this] at hf
    | some r =>
      obtain ⟨j, w⟩ := r
      simp only [hr] at ihr ⊢
      obtain ⟨k, hk, hkt, rfl, rfl, hmin⟩ := ihr
      have hij : BitVec.ofNat 9 i ≠ BitVec.ofNat 9 (i + 1 + k) := by
        intro h
        have := congrArg BitVec.toNat h
        simp only [BitVec.toNat_ofNat] at this
        omega
      by_cases hc : (a && keyBefore n.w (BitVec.ofNat 9 i) rest[k].2.w (BitVec.ofNat 9 (i + 1 + k))) = true
      · simp only [hc, if_true]
        rw [Bool.and_eq_true] at hc
        refine ⟨0, by simp, hc.1, by simp, rfl, ?_⟩
        intro k' hk' hf hne
        cases k' with
        | zero => exact absurd rfl hne
        | succ k' =>
          have e : i + (k' + 1) = i + 1 + k' := by omega
          rw [e]
          by_cases hkk : k' = k
          · subst hkk; exact hc.2
          · exact keyBefore_trans hc.2 (hmin k' (by simpa using hk') hf hkk)
      · rw [if_neg hc]
        have e : ∀ k, i + (k + 1) = i + 1 + k := by omega
        refine ⟨k + 1, by simpa using hk, hkt, by rw [e k], rfl, ?_⟩
        intro k' hk' hf hne
        cases k' with
        | zero =>
          simp only [List.getElem_cons_zero] at hf ⊢
          have : keyBefore n.w (BitVec.ofNat 9 i) rest[k].2.w (BitVec.ofNat 9 (i + 1 + k)) = false := by
            simpa [hf] using hc
          simpa using keyBefore_total hij this
        | succ k' =>
          rw [e k']
          exact hmin k' (by simpa using hk') hf (by omega)

theorem has_eq {b : Store} {i : Idx} (h : i.toNat < 511) : b.has i = b.act[i.toNat]'h := by
  simp [Store.has, Vector.getElem?_eq_getElem h]

theorem has_lt {b : Store} {i : Idx} (h : b.has i = true) : i.toNat < 511 := by
  by_contra hlt
  simp [Store.has, Vector.getElem?_eq_none (xs := b.act) (i := i.toNat) (by simpa using hlt)] at h

/-- `least` answers the least member with its weight, or none when the collection is empty. -/
theorem least_spec (b : Store) :
    match b.least with
    | none => ∀ i, b.has i = false
    | some (m, w) => b.isLeast m ∧ w = b.weightAt m := by
  have len : (b.act.toList.zip b.node.toList).length = 511 := by simp
  have get : ∀ k (hk : k < 511), (b.act.toList.zip b.node.toList)[k]'(by rw [len]; exact hk) =
      (b.act[k]'hk, b.node[k]'hk) := by
    intro k hk
    simp [List.getElem_zip]
  have spec := leastFrom_spec (b.act.toList.zip b.node.toList) 0 (by rw [len])
  simp only [Store.least]
  cases h : leastFrom 0 (b.act.toList.zip b.node.toList) with
  | none =>
    simp only [h] at spec ⊢
    intro i
    by_cases hi : i.toNat < 511
    · have := spec i.toNat (by rw [len]; exact hi)
      rw [get _ hi] at this
      rw [has_eq hi]
      exact this
    · cases hh : b.has i with
      | false => rfl
      | true => exact absurd (has_lt hh) hi
  | some r =>
    obtain ⟨m, w⟩ := r
    simp only [h] at spec ⊢
    obtain ⟨k, hk, hkt, hm, hw, hmin⟩ := spec
    rw [len] at hk
    have hmk : m.toNat = k := by
      rw [hm]
      simp only [Nat.zero_add, BitVec.toNat_ofNat]
      omega
    subst hmk
    rw [get _ hk] at hkt hw
    have hwt : w = b.weightAt m := by
      simp [Store.weightAt, slotAt_eq_some hk, hw]
    refine ⟨⟨by rw [has_eq hk]; exact hkt, ?_⟩, hwt⟩
    intro j hj hne
    have hj' := has_lt hj
    have := hmin j.toNat (by rw [len]; exact hj') (by rw [get _ hj', ← has_eq hj']; exact hj)
      (by rwa [Ne, BitVec.toNat_inj])
    rw [get _ hj', keyBefore_iff] at this
    rw [← hwt]
    simpa [Store.weightAt, slotAt_eq_some hj'] using this

theorem least_eq_none {b : Store} : b.least = none ↔ ∀ i, b.has i = false := by
  have h := least_spec b
  constructor
  · intro hn
    simpa [hn] using h
  · intro hf
    cases hl : b.least with
    | none => rfl
    | some r =>
      simp only [hl] at h
      have := h.1.1
      rw [hf] at this
      cases this

theorem least_eq_some {b : Store} {m : Idx} {w : Word} (h : b.least = some (m, w)) :
    b.isLeast m ∧ w = b.weightAt m := by
  have := least_spec b
  simpa [h] using this

/-! Members and slots after the sub-steps of a merge. -/

@[simp] theorem remove_next (b : Store) (i : Idx) : (b.remove i).next = b.next := rfl
@[simp] theorem remove_node (b : Store) (i : Idx) : (b.remove i).node = b.node := rfl
@[simp] theorem insertNext_next (b : Store) (n : Slot) : (b.insertNext n).next = b.next + 1 := rfl

@[simp] theorem remove_has (b : Store) (i j : Idx) :
    (b.remove i).has j = if i = j then false else b.has j := by
  simp only [Store.has, Store.remove, Vector.getElem?_setIfInBounds, BitVec.toNat_inj]
  split
  · split <;> rfl
  · rfl

@[simp] theorem remove_weightAt (b : Store) (i j : Idx) : (b.remove i).weightAt j = b.weightAt j := rfl

theorem insertNext_has {b : Store} {n : Slot} (h : b.next.toNat < 511) (j : Idx) :
    (b.insertNext n).has j = if b.next = j then true else b.has j := by
  simp only [Store.has, Store.insertNext, Vector.getElem?_setIfInBounds, BitVec.toNat_inj]
  split
  · rfl
  · rfl

theorem insertNext_slotAt {b : Store} {n : Slot} (h : b.next.toNat < 511) (j : Idx) :
    slotAt (b.insertNext n).node j = if b.next = j then some n else slotAt b.node j := by
  simp only [Store.insertNext, slotAt_setIfInBounds, h, if_true]

/-- One merge takes the least member `m₁`, then the least of the rest `m₂`, and puts the node over them in
slot NEXT (41_tree_builder.md R104). -/
theorem merge_spec {b b' : Store} (h : b.merge = some b') :
    ∃ m₁ m₂, b.isLeast m₁ ∧ (b.remove m₁).isLeast m₂ ∧
      b' = ((b.remove m₁).remove m₂).insertNext (joinSlot m₁ (b.weightAt m₁) m₂ (b.weightAt m₂)) := by
  simp only [Store.merge] at h
  cases h1 : b.least with
  | none => simp [h1] at h
  | some r =>
    obtain ⟨m₁, w₁⟩ := r
    cases h2 : (b.remove m₁).least with
    | none => simp [h1, h2] at h
    | some r₂ =>
      obtain ⟨m₂, w₂⟩ := r₂
      obtain ⟨l1, rfl⟩ := least_eq_some h1
      obtain ⟨l2, rfl⟩ := least_eq_some h2
      refine ⟨m₁, m₂, l1, l2, ?_⟩
      simpa [h1, h2] using h.symm

/-- Merging stops when fewer than two nodes are left. -/
theorem merge_none {b : Store} (h : b.merge = none) : ∀ i j, b.has i = true → b.has j = true → i = j := by
  intro i j hi hj
  simp only [Store.merge] at h
  cases h1 : b.least with
  | none =>
    rw [least_eq_none] at h1
    simp [h1] at hi
  | some r =>
    obtain ⟨m₁, w₁⟩ := r
    cases h2 : (b.remove m₁).least with
    | some r₂ => simp [h1, h2] at h
    | none =>
      rw [least_eq_none] at h2
      have key : ∀ k, b.has k = true → k = m₁ := by
        intro k hk
        by_contra hne
        have := h2 k
        rw [remove_has, if_neg (fun e => hne e.symm), hk] at this
        cases this
      rw [key i hi, key j hj]

/-! The forest in the collection. -/

theorem LeafOk.congr {node node' : Vector Slot Config.nnode} {i : Idx}
    (same : slotAt node' i = slotAt node i) (h : LeafOk node i) : LeafOk node' i := by
  obtain ⟨n, hn, rest⟩ := h
  exact ⟨n, same.trans hn, rest⟩

theorem ChildOk.congr {node node' : Vector Slot Config.nnode} {i : Idx}
    (same : i.toNat < 256 → slotAt node' i = slotAt node i) (h : ChildOk node i) : ChildOk node' i :=
  fun hi => (h hi).congr (same hi)

/-- An internal slot below `top` stays one when the slots below `top` stay. -/
theorem InternalOk.congr {node node' : Vector Slot Config.nnode} {i : Idx} {top : Nat}
    (same : ∀ j : Idx, j.toNat < top → slotAt node' j = slotAt node j) (hi : i.toNat < top)
    (h : InternalOk node i) : InternalOk node' i := by
  obtain ⟨n, a, b, hn, hleaf, hsym, hl, hr, hne, cl, cr, ha, hb, hw⟩ := h
  exact ⟨n, a, b, (same i hi).trans hn, hleaf, hsym, hl, hr, hne,
    cl.congr fun _ => same _ (by omega), cr.congr fun _ => same _ (by omega),
    (same _ (by omega)).trans ha, (same _ (by omega)).trans hb, hw⟩

/-- How many levels the tree below slot `i` can have: a leaf slot one, internal slot `256 + j` at most
`j + 2`. -/
def levels (i : Idx) : Nat := if i.toNat < 256 then 1 else i.toNat - 254

/-- The collection holds the roots of the forest `F`, whose leaves are `L` in some order. -/
structure Forest (b : Store) (F : List (Idx × Tree)) (L : List (Sym × Nat)) : Prop where
  start : 256 ≤ b.next.toNat
  inner : ∀ i : Idx, 256 ≤ i.toNat → i.toNat < b.next.toNat → InternalOk b.node i
  members : ∀ i, b.has i = true ↔ i ∈ F.map (·.1)
  nodup : (F.map (·.1)).Nodup
  below : ∀ e ∈ F, e.1.toNat < b.next.toNat ∧ ChildOk b.node e.1
  trees : ∀ e ∈ F, treeAt b.node (levels e.1) e.1 = some e.2 ∧ e.2.weightsOk
  leaves : (F.flatMap fun e => e.2.leaves).Perm L
  count : F.length + b.next.toNat = 256 + L.length

theorem Forest.perm {b : Store} {F F' : List (Idx × Tree)} {L : List (Sym × Nat)} (p : F.Perm F')
    (h : Forest b F L) : Forest b F' L where
  start := h.start
  inner := h.inner
  members i := (h.members i).trans (p.map _).mem_iff
  nodup := (p.map _).nodup_iff.mp h.nodup
  below e he := h.below e (p.mem_iff.mpr he)
  trees e he := h.trees e (p.mem_iff.mpr he)
  leaves := (p.flatMap_right _).symm.trans h.leaves
  count := by rw [← p.length_eq]; exact h.count

/-- A slot of the forest has the weight of its tree. -/
theorem Forest.weight {b : Store} {F : List (Idx × Tree)} {L : List (Sym × Nat)} (h : Forest b F L)
    {e : Idx × Tree} (he : e ∈ F) : ∃ n, slotAt b.node e.1 = some n ∧ n.w.toNat = e.2.weight ∧
      b.weightAt e.1 = n.w := by
  obtain ⟨ht, -⟩ := h.trees e he
  cases hs : slotAt b.node e.1 with
  | none =>
    obtain ⟨f, hf⟩ : ∃ f, levels e.1 = f + 1 := ⟨levels e.1 - 1, by unfold levels; split <;> omega⟩
    simp [hf, treeAt, hs] at ht
  | some n => exact ⟨n, rfl, (treeAt_weight ht hs).symm, by simp [Store.weightAt, hs]⟩

/-- A slot the links of the forest can lead to. -/
theorem Forest.down {b : Store} {F : List (Idx × Tree)} {L : List (Sym × Nat)} (h : Forest b F L)
    (i : Idx) (n : Slot) (hi : i.toNat < b.next.toNat ∧ ChildOk b.node i) (hs : slotAt b.node i = some n)
    (hleaf : n.leaf = false) : (n.l.toNat < b.next.toNat ∧ ChildOk b.node n.l) ∧
      (n.r.toNat < b.next.toNat ∧ ChildOk b.node n.r) := by
  by_cases hlt : i.toNat < 256
  · obtain ⟨n', hn', hl', -⟩ := hi.2 hlt
    rw [hs] at hn'
    cases hn'
    rw [hleaf] at hl'
    cases hl'
  · obtain ⟨n', a, b', hn', -, -, hl, hr, -, cl, cr, -⟩ := h.inner i (by omega) hi.1
    rw [hs] at hn'
    cases hn'
    exact ⟨⟨by omega, cl⟩, ⟨by omega, cr⟩⟩

/-- One merge joins the two trees of least key and keeps the forest. -/
theorem Forest.merge {b b' : Store} {F : List (Idx × Tree)} {L : List (Sym × Nat)} (h : Forest b F L)
    (hL : L.length ≤ 256) (hsum : (L.map (·.2)).sum < 2 ^ 32) (hm : b.merge = some b') :
    ∃ F', Forest b' F' L ∧ F.length = F'.length + 1 ∧ b.next ∈ F'.map (·.1) ∧ b'.next = b.next + 1 := by
  obtain ⟨m₁, m₂, l1, l2, rfl⟩ := merge_spec hm
  have hm2 : b.has m₂ = true ∧ m₁ ≠ m₂ := by
    have := l2.1
    rw [remove_has] at this
    by_cases e : m₁ = m₂
    · simp [e] at this
    · exact ⟨by simpa [e] using this, e⟩
  obtain ⟨⟨i₁, T₁⟩, he1, rfl⟩ := List.mem_map.mp ((h.members m₁).mp l1.1)
  obtain ⟨⟨i₂, T₂⟩, he2, rfl⟩ := List.mem_map.mp ((h.members m₂).mp hm2.1)
  have hne : i₁ ≠ i₂ := hm2.2
  obtain ⟨F₂, hp⟩ : ∃ F₂, F.Perm ((i₁, T₁) :: (i₂, T₂) :: F₂) := by
    have out : ∀ {F : List (Idx × Tree)} {e}, e ∈ F → ∃ F', F.Perm (e :: F') := by
      intro F e he
      obtain ⟨s, t, rfl⟩ := List.append_of_mem he
      exact ⟨s ++ t, List.perm_middle⟩
    obtain ⟨F₁, hp1⟩ := out he1
    have : (i₂, T₂) ∈ F₁ := by
      have := hp1.mem_iff.mp he2
      rcases List.mem_cons.mp this with e | e
      · cases e; exact absurd rfl hne
      · exact e
    obtain ⟨F₂, hp2⟩ := out this
    exact ⟨F₂, hp1.trans (hp2.cons _)⟩
  replace h := h.perm hp
  rw [hp.length_eq]
  have e1 : (i₁, T₁) ∈ (i₁, T₁) :: (i₂, T₂) :: F₂ := by simp
  have e2 : (i₂, T₂) ∈ (i₁, T₁) :: (i₂, T₂) :: F₂ := by simp
  have hcount := h.count
  simp only [List.length_cons] at hcount
  have hnext : b.next.toNat < 511 := by omega
  have hstart := h.start
  have hnext' : (b.next + 1).toNat = b.next.toNat + 1 := by
    have one : (1 : Idx).toNat = 1 := rfl
    rw [BitVec.toNat_add, one]
    omega
  obtain ⟨n₁, s1, w1, wt1⟩ := h.weight e1
  obtain ⟨n₂, s2, w2, wt2⟩ := h.weight e2
  obtain ⟨b1, c1⟩ := h.below _ e1
  obtain ⟨b2, c2⟩ := h.below _ e2
  obtain ⟨t1, k1⟩ := h.trees _ e1
  obtain ⟨t2, k2⟩ := h.trees _ e2
  dsimp only at s1 w1 wt1 s2 w2 wt2 b1 c1 b2 c2 t1 k1 t2 k2
  have htot : T₁.weight + T₂.weight < 2 ^ 32 := by
    have := (h.leaves.map (·.2)).sum_eq
    simp only [List.flatMap_cons, List.map_append, List.sum_append] at this
    rw [← Tree.weight_eq_sum k1, ← Tree.weight_eq_sum k2] at this
    omega
  have hadd : (n₁.w + n₂.w).toNat = T₁.weight + T₂.weight := by
    rw [BitVec.toNat_add, w1, w2]
    exact Nat.mod_eq_of_lt htot
  have hnodup := h.nodup
  simp only [List.map_cons, List.nodup_cons, List.mem_cons, not_or] at hnodup
  -- the store after the merge
  generalize hb' : ((b.remove i₁).remove i₂).insertNext (joinSlot i₁ (b.weightAt i₁) i₂ (b.weightAt i₂)) = b'
  have hslot : ∀ j, slotAt b'.node j = if b.next = j then some (joinSlot i₁ n₁.w i₂ n₂.w) else slotAt b.node j := by
    intro j
    rw [← hb', insertNext_slotAt (by simpa using hnext), wt1, wt2]
    rfl
  have hhas : ∀ j, b'.has j = if b.next = j then true else if i₂ = j then false else if i₁ = j then false else b.has j := by
    intro j
    rw [← hb', insertNext_has (by simpa using hnext)]
    simp
  have hn' : b'.next = b.next + 1 := by rw [← hb']; rfl
  have hsame : ∀ j : Idx, j.toNat < b.next.toNat → slotAt b'.node j = slotAt b.node j := by
    intro j hj
    rw [hslot, if_neg]
    rintro rfl
    omega
  have notNext : ∀ e ∈ (i₁, T₁) :: (i₂, T₂) :: F₂, e.1 ≠ b.next := by
    intro e he heq
    have := (h.below e he).1
    rw [heq] at this
    omega
  have keep : ∀ i : Idx, i.toNat < b.next.toNat ∧ ChildOk b.node i → ∀ {f t}, treeAt b.node f i = some t →
      treeAt b'.node f i = some t := fun i hi f t ht =>
    treeAt_congr (P := fun i => i.toNat < b.next.toNat ∧ ChildOk b.node i)
      (fun j hj => hsame j hj.1) h.down hi ht
  refine ⟨(b.next, .node (n₁.w + n₂.w).toNat T₁ T₂) :: F₂, ?_, by simp, by simp, hn'⟩
  refine
    { start := by rw [hn', hnext']; omega
      inner := ?_
      members := ?_
      nodup := ?_
      below := ?_
      trees := ?_
      leaves := ?_
      count := by rw [hn', hnext', List.length_cons]; omega }
  · intro i hlo hhi
    rw [hn', hnext'] at hhi
    by_cases hi : i.toNat < b.next.toNat
    · exact (h.inner i hlo hi).congr hsame hi
    · have : i = b.next := BitVec.eq_of_toNat_eq (by omega)
      subst this
      refine ⟨joinSlot i₁ n₁.w i₂ n₂.w, n₁, n₂, by rw [hslot, if_pos rfl], rfl, rfl, b1, b2, hne, ?_, ?_, ?_, ?_, ?_⟩
      · exact c1.congr fun _ => hsame _ b1
      · exact c2.congr fun _ => hsame _ b2
      · exact (hsame _ b1).trans s1
      · exact (hsame _ b2).trans s2
      · change (n₁.w + n₂.w).toNat = _
        rw [hadd, w1, w2]
  · intro i
    rw [hhas]
    have hmem := h.members i
    simp only [List.map_cons, List.mem_cons] at hmem ⊢
    by_cases hi : b.next = i
    · simp [hi]
    · rw [if_neg hi]
      by_cases hi2 : i₂ = i
      · subst hi2
        simp only [if_true]
        have := hnodup.2.1
        constructor
        · intro h; cases h
        · rintro (h | h)
          · exact absurd h.symm hi
          · exact absurd h this
      · rw [if_neg hi2]
        by_cases hi1 : i₁ = i
        · subst hi1
          simp only [if_true]
          have := hnodup.1.2
          constructor
          · intro h; cases h
          · rintro (h | h)
            · exact absurd h.symm hi
            · exact absurd h this
        · rw [if_neg hi1, hmem]
          constructor
          · rintro (h | h | h)
            · exact absurd h.symm hi1
            · exact absurd h.symm hi2
            · exact .inr h
          · rintro (h | h)
            · exact absurd h.symm hi
            · exact .inr (.inr h)
  · simp only [List.map_cons, List.nodup_cons]
    refine ⟨?_, hnodup.2.2⟩
    intro hmem
    obtain ⟨e, he, heq⟩ := List.mem_map.mp hmem
    exact notNext e (by simp [he]) heq
  · intro e he
    rw [hn', hnext']
    rcases List.mem_cons.mp he with rfl | he
    · refine ⟨Nat.lt_succ_self _, fun hlt => ?_⟩
      simp only at hlt
      omega
    · obtain ⟨hb, hc⟩ := h.below e (by simp [he])
      exact ⟨by omega, hc.congr fun _ => hsame _ hb⟩
  · intro e he
    rcases List.mem_cons.mp he with rfl | he
    · have hlev : levels b.next = (b.next.toNat - 255) + 1 := by
        unfold levels
        rw [if_neg (by omega)]
        omega
      have lev : ∀ j : Idx, j.toNat < b.next.toNat → levels j ≤ b.next.toNat - 255 := by
        intro j hj
        unfold levels
        split <;> omega
      have t1' := treeAt_mono (lev i₁ b1) (keep i₁ ⟨b1, c1⟩ t1)
      have t2' := treeAt_mono (lev i₂ b2) (keep i₂ ⟨b2, c2⟩ t2)
      refine ⟨?_, ?_⟩
      · simp [hlev, treeAt, hslot, joinSlot, t1', t2']
      · exact ⟨hadd, k1, k2⟩
    · obtain ⟨ht, hk⟩ := h.trees e (by simp [he])
      exact ⟨keep e.1 (h.below e (by simp [he])) ht, hk⟩
  · have := h.leaves
    simp only [List.flatMap_cons] at this ⊢
    simpa [Tree.leaves, List.append_assoc] using this

/-- All merges: from a forest of `k` trees they leave one tree, its root the last slot made, or the only
tree there was. -/
theorem Forest.mergeAll {fuel : Nat} {b : Store} {F : List (Idx × Tree)} {L : List (Sym × Nat)}
    (h : Forest b F L) (hL : L.length ≤ 256) (hsum : (L.map (·.2)).sum < 2 ^ 32) (hF : F.length ≤ fuel + 1)
    (hroot : b.next.toNat = 256 ∨ b.next - 1 ∈ F.map (·.1)) :
    ∃ F', Forest (b.mergeAll fuel) F' L ∧ F'.length ≤ 1 ∧ (F ≠ [] → F' ≠ []) ∧
      ((b.mergeAll fuel).next.toNat = 256 ∨ (b.mergeAll fuel).next - 1 ∈ F'.map (·.1)) := by
  induction fuel generalizing b F with
  | zero => exact ⟨F, h, by omega, id, hroot⟩
  | succ fuel ih =>
    simp only [Store.mergeAll]
    cases hm : b.merge with
    | none =>
      refine ⟨F, h, ?_, id, hroot⟩
      have key := merge_none hm
      match F, h with
      | [], _ => simp
      | [_], _ => simp
      | e₁ :: e₂ :: F, h =>
        have hn := h.nodup
        simp only [List.map_cons, List.nodup_cons, List.mem_cons, not_or] at hn
        exact absurd (key e₁.1 e₂.1 ((h.members _).mpr (by simp)) ((h.members _).mpr (by simp))) hn.1.1
    | some b' =>
      obtain ⟨F', h', hlen, hin, hnx⟩ := h.merge hL hsum hm
      have hsub : b'.next - 1 = b.next := by
        rw [hnx, BitVec.add_sub_cancel]
      obtain ⟨F'', h'', hl, hne, hr⟩ := ih h' (by omega) (.inr (by rw [hsub]; exact hin))
      refine ⟨F'', h'', hl, fun _ => hne ?_, hr⟩
      rintro rfl
      simp at hin

/-! The Frequency Mapping and the leaves. -/

theorem toList_eq_map_finRange {α : Type} {n : Nat} (v : Vector α n) :
    v.toList = (List.finRange n).map fun i => v[i] := by
  apply List.ext_getElem
  · simp
  · intro i h1 h2
    simp

theorem mapping_length (freq : Vector Word Config.nsym) : (mapping freq).length = leafCount freq := by
  rw [leafCount, toList_eq_map_finRange, List.countP_map, mapping, List.length_map, List.countP_eq_length_filter]
  rfl

theorem mapping_sum (freq : Vector Word Config.nsym) : ((mapping freq).map (·.2)).sum = freqSum freq := by
  rw [freqSum, toList_eq_map_finRange, mapping, List.map_map, List.map_map]
  generalize List.finRange Config.nsym = l
  induction l with
  | nil => rfl
  | cons i l ih =>
    simp only [List.filter_cons, List.map_cons, List.sum_cons] at ih ⊢
    by_cases h : freq[i] = 0
    · rw [if_neg (by simp [h])]
      simp only [Function.comp_apply, h]
      simpa using ih
    · rw [if_pos (by simpa using h)]
      simp only [List.map_cons, List.sum_cons, ih]
      rfl

theorem mapping_symbols (freq : Vector Word Config.nsym) :
    (mapping freq).map (·.1) = ((List.finRange Config.nsym).filter fun i => freq[i] != 0).map BitVec.ofFin := by
  rw [mapping, List.map_map]
  rfl

theorem mapping_nodup (freq : Vector Word Config.nsym) : ((mapping freq).map (·.1)).Nodup := by
  rw [mapping_symbols]
  refine List.Nodup.map ?_ ((List.nodup_finRange _).filter _)
  intro a b h
  simpa using congrArg BitVec.toFin h

theorem mem_mapping {freq : Vector Word Config.nsym} {x : Sym} {n : Nat} :
    (x, n) ∈ mapping freq ↔ symEntry freq x ≠ 0 ∧ n = (symEntry freq x).toNat := by
  simp only [mapping, List.mem_map, List.mem_filter, List.mem_finRange, true_and, Prod.mk.injEq, bne_iff_ne]
  constructor
  · rintro ⟨i, hi, rfl, rfl⟩
    exact ⟨hi, rfl⟩
  · rintro ⟨h, rfl⟩
    exact ⟨x.toFin, h, rfl, rfl⟩

theorem leafCount_le (freq : Vector Word Config.nsym) : leafCount freq ≤ 256 := by
  have := List.countP_le_length (p := fun w : Word => w != 0) (l := freq.toList)
  simpa [leafCount] using this

theorem putLeaves_getElem? (i : Nat) (ws : List Word) (ns : List Slot) (k : Nat) :
    (putLeaves i ws ns)[k]? =
      match ws[k]?, ns[k]? with
      | some w, some old => some (if w = 0 then old else leafSlot (i + k) w)
      | _, o => o := by
  induction ws generalizing i ns k with
  | nil => simp [putLeaves]
  | cons w ws ih =>
    cases ns with
    | nil => simp [putLeaves]
    | cons n ns =>
      cases k with
      | zero => simp [putLeaves]
      | succ k =>
        have e : i + (k + 1) = i + 1 + k := by omega
        simp only [putLeaves, List.getElem?_cons_succ, ih, e]

theorem makeLeaves_slotAt (freq : Vector Word Config.nsym) (node : Vector Slot Config.nnode) (i : Idx) :
    slotAt (makeLeaves freq node).node i =
      if h : i.toNat < 256 then
        (if freq[i.toNat]'h = 0 then slotAt node i else some (leafSlot i.toNat (freq[i.toNat]'h)))
      else slotAt node i := by
  have e : slotAt (makeLeaves freq node).node i = (putLeaves 0 freq.toList node.toList)[i.toNat]? := by
    unfold slotAt makeLeaves
    rw [Vector.getElem?_mk, List.getElem?_toArray]
  rw [e, putLeaves_getElem?, Vector.getElem?_toList, Vector.getElem?_toList]
  unfold slotAt
  by_cases h : i.toNat < 256
  · have h' : i.toNat < 511 := by omega
    rw [dif_pos h, Vector.getElem?_eq_getElem (xs := freq) h, Vector.getElem?_eq_getElem (xs := node) h']
    simp only [Nat.zero_add]
    split <;> rfl
  · rw [dif_neg h, Vector.getElem?_eq_none (xs := freq) (by simpa using h)]

theorem makeLeaves_has (freq : Vector Word Config.nsym) (node : Vector Slot Config.nnode) (i : Idx) :
    (makeLeaves freq node).has i = true ↔ ∃ h : i.toNat < 256, freq[i.toNat]'h ≠ 0 := by
  have e : (makeLeaves freq node).has i =
      ((freq.toList.map (· != 0) ++ List.replicate 255 false)[i.toNat]?).getD false := by
    unfold Store.has makeLeaves
    rw [Vector.getElem?_mk, List.getElem?_toArray]
  have len : (freq.toList.map (· != 0)).length = 256 := by simp
  rw [e]
  by_cases h : i.toNat < 256
  · rw [List.getElem?_append_left (by rw [len]; exact h)]
    simp [h]
  · rw [List.getElem?_append_right (by rw [len]; omega), List.getElem?_replicate]
    constructor
    · intro hh
      split at hh <;> cases hh
    · rintro ⟨h', -⟩
      exact absurd h' h

/-- The forest of leaves: one single-leaf tree per symbol of the mapping, in the symbol's slot
(41_tree_builder.md R103). -/
def leafForest (freq : Vector Word Config.nsym) : List (Idx × Tree) :=
  (mapping freq).map fun e => (e.1.setWidth 9, .leaf e.2 e.1)

theorem setWidth_toNat (x : Sym) : (x.setWidth 9).toNat = x.toNat := by
  rw [BitVec.toNat_setWidth]
  have := x.isLt
  omega

/-- Sub-step 3 of BUILD leaves the forest of leaves in the collection. -/
theorem makeLeaves_forest (freq : Vector Word Config.nsym) (node : Vector Slot Config.nnode) :
    Forest (makeLeaves freq node) (leafForest freq) (mapping freq) := by
  have slot : ∀ e ∈ mapping freq, slotAt (makeLeaves freq node).node (e.1.setWidth 9) =
      some (leafSlot e.1.toNat (symEntry freq e.1)) ∧ symEntry freq e.1 ≠ 0 ∧ e.2 = (symEntry freq e.1).toNat := by
    rintro ⟨x, n⟩ he
    rw [mem_mapping] at he
    refine ⟨?_, he⟩
    rw [makeLeaves_slotAt, dif_pos (by rw [setWidth_toNat]; exact x.isLt)]
    simp only [setWidth_toNat]
    exact if_neg he.1
  have leaf : ∀ e ∈ mapping freq, LeafOk (makeLeaves freq node).node (e.1.setWidth 9) := by
    intro e he
    obtain ⟨h1, h2, h3⟩ := slot e he
    refine ⟨_, h1, rfl, ?_, rfl, rfl, ?_⟩
    · apply BitVec.eq_of_toNat_eq
      simp [leafSlot]
    · have : (symEntry freq e.1).toNat ≠ 0 := fun h => h2 (BitVec.eq_of_toNat_eq h)
      change 1 ≤ (symEntry freq e.1).toNat
      omega
  refine
    { start := by change 256 ≤ (256#9).toNat; decide
      inner := ?_
      members := ?_
      nodup := ?_
      below := ?_
      trees := ?_
      leaves := ?_
      count := ?_ }
  · intro i hlo hhi
    have : (makeLeaves freq node).next.toNat = 256 := rfl
    omega
  · intro i
    rw [makeLeaves_has]
    simp only [leafForest, List.map_map, List.mem_map, Function.comp_apply]
    constructor
    · rintro ⟨h, hne⟩
      refine ⟨(BitVec.ofNat 8 i.toNat, (freq[i.toNat]'h).toNat), ?_, ?_⟩
      · rw [mem_mapping]
        have e : symEntry freq (BitVec.ofNat 8 i.toNat) = freq[i.toNat]'h := by
          simp only [symEntry, BitVec.toNat_ofNat]
          congr 1
          omega
        rw [e]
        exact ⟨hne, rfl⟩
      · apply BitVec.eq_of_toNat_eq
        rw [setWidth_toNat, BitVec.toNat_ofNat]
        omega
    · rintro ⟨e, he, rfl⟩
      obtain ⟨-, h2, -⟩ := slot e he
      refine ⟨by rw [setWidth_toNat]; exact e.1.isLt, ?_⟩
      simp only [setWidth_toNat]
      exact h2
  · have : (leafForest freq).map (·.1) = ((mapping freq).map (·.1)).map (BitVec.setWidth 9) := by
      simp [leafForest, List.map_map, Function.comp_def]
    rw [this]
    refine (mapping_nodup freq).map ?_
    intro a b h
    apply BitVec.eq_of_toNat_eq
    have := congrArg BitVec.toNat h
    rwa [setWidth_toNat, setWidth_toNat] at this
  · intro e he
    obtain ⟨e', he', rfl⟩ := List.mem_map.mp he
    refine ⟨?_, fun _ => leaf e' he'⟩
    have : (makeLeaves freq node).next.toNat = 256 := rfl
    rw [this, setWidth_toNat]
    exact e'.1.isLt
  · intro e he
    obtain ⟨e', he', rfl⟩ := List.mem_map.mp he
    obtain ⟨h1, h2, h3⟩ := slot e' he'
    have hl : levels (e'.1.setWidth 9) = 0 + 1 := by
      unfold levels
      rw [if_pos (by rw [setWidth_toNat]; exact e'.1.isLt)]
    refine ⟨?_, ?_⟩
    · dsimp only
      rw [hl]
      simp only [treeAt, h1]
      simp [leafSlot, h3]
    · have : (symEntry freq e'.1).toNat ≠ 0 := fun h => h2 (BitVec.eq_of_toNat_eq h)
      change 1 ≤ e'.2
      omega
  · simp only [leafForest, List.flatMap_map, Tree.leaves]
    have : (mapping freq).flatMap (fun a => [(a.1, a.2)]) = mapping freq := by
      rw [List.flatMap_singleton' ]
    rw [this]
  · have : (makeLeaves freq node).next.toNat = 256 := rfl
    rw [this, leafForest, List.length_map, Nat.add_comm]

/-- Sub-steps 3 and 4 of BUILD: with no count nothing is left in the collection; else, with a sum of counts
below `2^32`, exactly one node is left, the root of a tree over the mapping, in order
(41_tree_builder.md R103 to R105, R111; 10_state.md R15, R16, R18). -/
theorem buildStore_spec (freq : Vector Word Config.nsym) (node : Vector Slot Config.nnode)
    (hsum : freqSum freq < 2 ^ 32) :
    (leafCount freq = 0 ∧ (buildStore freq node).least = none) ∨
    (0 < leafCount freq ∧ ∃ root w t, (buildStore freq node).least = some (root, w) ∧
      StoreOk (buildStore freq node).node root ∧
      treeAt (buildStore freq node).node (Config.lenMax + 1) root = some t ∧
      t.weightsOk ∧ t.leaves.Perm (mapping freq) ∧
      (∀ i, (buildStore freq node).has i = true ↔ i = root) ∧
      (2 ≤ leafCount freq → root.toNat = 256 + leafCount freq - 2)) := by
  have hk := leafCount_le freq
  have h0 := makeLeaves_forest freq node
  have hlen : (leafForest freq).length = leafCount freq := by
    rw [leafForest, List.length_map, mapping_length]
  obtain ⟨F, hF, h1, hne, hroot⟩ := h0.mergeAll (fuel := Config.lenMax) (by rw [mapping_length]; exact hk)
    (by rw [mapping_sum]; exact hsum) (by rw [hlen]; exact hk) (.inl rfl)
  rw [buildStore]
  generalize (makeLeaves freq node).mergeAll Config.lenMax = b at hF hroot
  match F, hF, h1 with
  | [], hF, _ =>
    left
    have : leafForest freq = [] := by
      by_contra h
      exact hne h rfl
    refine ⟨by rw [← hlen, this]; rfl, ?_⟩
    rw [least_eq_none]
    intro i
    cases h : b.has i with
    | false => rfl
    | true => simpa using (hF.members i).mp h
  | [(root, t)], hF, _ =>
    right
    have hmem : ∀ i, b.has i = true ↔ i = root := by
      intro i
      rw [hF.members i]
      simp
    have hcount := hF.count
    rw [mapping_length] at hcount
    simp only [List.length_cons, List.length_nil] at hcount
    have hstart := hF.start
    obtain ⟨hb, hc⟩ := hF.below (root, t) (by simp)
    obtain ⟨ht, hw⟩ := hF.trees (root, t) (by simp)
    dsimp only at hb hc ht hw
    refine ⟨by omega, ?_⟩
    cases hl : b.least with
    | none =>
      rw [least_eq_none] at hl
      have := (hmem root).mpr rfl
      rw [hl] at this
      cases this
    | some r =>
      obtain ⟨m, w⟩ := r
      obtain ⟨hm, -⟩ := least_eq_some hl
      have : m = root := (hmem m).mp hm.1
      subst this
      have hnext := b.next.isLt
      refine ⟨m, w, t, rfl, ⟨by omega, hc, ?_⟩, ?_, hw, ?_⟩
      · intro i hlo hhi
        refine hF.inner i hlo ?_
        omega
      · refine treeAt_mono ?_ ht
        unfold levels Config.lenMax
        split <;> omega
      · refine ⟨by simpa using hF.leaves, hmem, fun h2 => ?_⟩
        rcases hroot with h | h
        · omega
        · simp only [List.map_cons, List.map_nil, List.mem_singleton] at h
          rw [← h, BitVec.toNat_sub]
          have one : (1 : Idx).toNat = 1 := rfl
          rw [one]
          omega

end Sys2Proof
end

