-- ==== Sys2Proof/Laws/Deriver.lean ====
section
/-! SUPPORT. What DERIVE's walk does on a store that holds a Code Tree (42_code_table.md R120 to R123). -/

namespace Sys2Proof

open Sys2Proof.Machine

/-- The table after the walk has recorded every leaf of the tree, with `p` the path to the tree. -/
def Tree.record : Tree → Bits → Vector Bits Config.nsym → Vector Bits Config.nsym
  | .leaf _ x, p, c => setSymEntry c x p
  | .node _ l r, p, c => r.record (p ++ [true]) (l.record (p ++ [false]) c)

/-- The walk records every leaf and leaves the stack as it found it. -/
theorem walk_tree {node : Vector Slot Config.nnode} {f : Nat} {i : Idx} {t : Tree}
    (h : treeAt node f i = some t) (p : Bits) (c : Vector Bits Config.nsym) (st : List (Idx × Bits)) :
    walk node f i p { code := c, stack := st } = .ok { code := t.record p c, stack := st } := by
  induction f generalizing i t p c st with
  | zero => simp [treeAt] at h
  | succ f ih =>
    simp only [treeAt] at h
    simp only [walk]
    cases hs : slotAt node i with
    | none => simp [hs] at h
    | some n =>
      simp only [hs] at h ⊢
      cases hl : n.leaf with
      | true =>
        simp only [hl, if_true, Option.some.injEq] at h
        subst h
        simp [Tree.record]
      | false =>
        simp only [hl, Bool.false_eq_true, if_false] at h ⊢
        cases ha : treeAt node f n.l with
        | none => simp [ha] at h
        | some a =>
          cases hb : treeAt node f n.r with
          | none => simp [ha, hb] at h
          | some b =>
            simp only [ha, hb, Option.some.injEq] at h
            subst h
            rw [ih ha]
            simp only
            rw [ih hb]
            rfl

namespace Tree

theorem lookup_map {α β γ : Type} [BEq α] (l : List (α × β)) (g : β → γ) (x : α) :
    (l.map fun e => (e.1, g e.2)).lookup x = (l.lookup x).map g := by
  induction l with
  | nil => rfl
  | cons e l ih =>
    obtain ⟨a, b⟩ := e
    simp only [List.map_cons, List.lookup_cons, ih]
    split <;> rfl

theorem lookup_eq_none_of_not_mem {β : Type} (l : List (Sym × β)) (x : Sym) (h : x ∉ l.map (·.1)) :
    l.lookup x = none := by
  induction l with
  | nil => rfl
  | cons e l ih =>
    obtain ⟨a, b⟩ := e
    simp only [List.map_cons, List.mem_cons, not_or] at h
    simp only [List.lookup_cons]
    rw [beq_false_of_ne h.1]
    exact ih h.2

/-- After the walk a leaf's symbol has its path and every other symbol what it had. -/
theorem record_entry {t : Tree} (hd : t.distinct) (p : Bits) (c : Vector Bits Config.nsym) (x : Sym) :
    symEntry (t.record p c) x =
      match t.paths.lookup x with
      | some q => p ++ q
      | none => symEntry c x := by
  induction t generalizing p c with
  | leaf w y =>
    simp only [record, paths, symEntry_setSymEntry, List.lookup_cons, List.lookup_nil]
    by_cases h : y = x
    · simp [h]
    · have : (x == y) = false := beq_false_of_ne fun e => h e.symm
      simp [h, this]
  | node w l r ihl ihr =>
    have hd' : ((l.leaves.map (·.1)) ++ (r.leaves.map (·.1))).Nodup := by
      simpa [distinct, leaves] using hd
    rw [List.nodup_append'] at hd'
    obtain ⟨hl, hr, hdis⟩ := hd'
    simp only [record, paths]
    rw [ihr hr, ihl hl, List.lookup_append, lookup_map, lookup_map]
    cases h1 : l.paths.lookup x with
    | some q =>
      have hx : x ∈ l.leaves.map (·.1) := by
        rw [← paths_symbols]
        by_contra hn
        rw [lookup_eq_none_of_not_mem _ _ hn] at h1
        cases h1
      have h2 : r.paths.lookup x = none := by
        apply lookup_eq_none_of_not_mem
        rw [paths_symbols]
        exact fun h => hdis hx h
      simp [h2]
    | none =>
      cases h2 : r.paths.lookup x <;> simp

end Tree

/-- On a store that holds a Code Tree, DERIVE's table is the tree's, and its stack ends empty
(42_code_table.md R120 to R125). -/
theorem deriveTree_spec {node : Vector Slot Config.nnode} {root : Idx} {t : Tree}
    (h : treeAt node (Config.lenMax + 1) root = some t) (hd : t.distinct) :
    ∃ c, deriveTree node root { code := emptyCode, stack := [] } = .ok { code := c, stack := [] } ∧
      ∀ x, symEntry c x = t.codeOf x := by
  unfold deriveTree
  generalize Config.lenMax = f at h
  have h' := h
  simp only [treeAt] at h'
  cases hs : slotAt node root with
  | none => simp [hs] at h'
  | some n =>
    simp only [hs] at h' ⊢
    cases hl : n.leaf with
    | true =>
      simp only [hl, if_true, Option.some.injEq] at h' ⊢
      subst h'
      refine ⟨_, rfl, fun x => ?_⟩
      simp only [symEntry_setSymEntry, symEntry_emptyCode, Tree.codeOf]
      by_cases hx : n.sym = x
      · simp [hx]
      · rw [if_neg hx, if_neg fun e => hx e.symm]
    | false =>
      simp only [hl, Bool.false_eq_true, if_false] at h' ⊢
      refine ⟨_, walk_tree h [] emptyCode [], fun x => ?_⟩
      rw [Tree.record_entry hd]
      cases ha : treeAt node f n.l with
      | none => simp [ha] at h'
      | some a =>
        cases hb : treeAt node f n.r with
        | none => simp [ha, hb] at h'
        | some b =>
          simp only [ha, hb, Option.some.injEq] at h'
          subst h'
          simp only [Tree.codeOf, symEntry_emptyCode]
          cases List.lookup x (Tree.node n.w.toNat a b).paths <;> simp

theorem mem_of_lookup {β : Type} {l : List (Sym × β)} {x : Sym} {b : β} (h : l.lookup x = some b) :
    (x, b) ∈ l := by
  induction l with
  | nil => cases h
  | cons e l ih =>
    obtain ⟨a, c⟩ := e
    rw [List.lookup_cons] at h
    by_cases hx : x = a
    · subst hx
      simp at h
      simp [h]
    · rw [beq_false_of_ne hx] at h
      exact List.mem_cons_of_mem _ (ih h)

/-- A code of a tree in the store has at most `LEN_MAX` bits (42_code_table.md R120). -/
theorem codeOf_length {node : Vector Slot Config.nnode} {root : Idx} {t : Tree}
    (h : treeAt node (Config.lenMax + 1) root = some t) (x : Sym) : (t.codeOf x).length ≤ Config.lenMax := by
  cases t with
  | leaf w y =>
    simp only [Tree.codeOf]
    split <;> simp [Config.lenMax]
  | node w l r =>
    simp only [Tree.codeOf]
    cases hl : (Tree.node w l r).paths.lookup x with
    | none => simp
    | some q =>
      have := treeAt_path_length h _ (mem_of_lookup hl)
      simp only [Option.getD_some]
      exact Nat.le_of_lt_succ this

end Sys2Proof
end

