-- ==== Sys2Proof/Laws/Inv.lean ====
section
/-! SUPPORT. The invariant: what it depends on, and what the effects of CLR, BUILD and DERIVE give of it. -/

namespace Sys2Proof

open Sys2Proof.Machine

/-- The parts of the invariant about the tables only. -/
structure TablesOk (s : State) : Prop where
  noTree : s.rootValid = false → s.rootIdx = Config.nil ∧ s.nleaf = 0
  store : s.rootValid = true → StoreOk s.node s.rootIdx
  tree : s.rootValid = true → ∃ t, s.tree = some t ∧ TreeOk t ∧ t.leaves.length = s.nleaf.toNat
  codeLen : ∀ x, (symEntry s.code x).length ≤ Config.lenMax
  codeTable : s.code = emptyCode ∨ ∃ t, s.tree = some t ∧ ∀ x, symEntry s.code x = t.codeOf x

theorem Inv.tables {s : State} (h : Inv s) : TablesOk s :=
  ⟨h.noTree, h.store, h.tree, h.codeLen, h.codeTable⟩

/-- A state with the same tree and code table has the same facts about them. -/
theorem TablesOk.congr {s t : State} (h : TablesOk s) (hT : sameTree s t) (hc : t.code = s.code) :
    TablesOk t := by
  obtain ⟨h1, h2, h3, h4⟩ := hT
  have ht : t.tree = s.tree := by unfold State.tree; rw [h1, h2, h3]
  exact
    { noTree := by rw [h2, h3, h4]; exact h.noTree
      store := by rw [h1, h2, h3]; exact h.store
      tree := by rw [h2, ht, h4]; exact h.tree
      codeLen := by rw [hc]; exact h.codeLen
      codeTable := by rw [hc, ht]; exact h.codeTable }

/-- The empty job has no tree and an empty table. -/
theorem TablesOk.empty {t : State} (h1 : t.rootValid = false) (h2 : t.rootIdx = Config.nil)
    (h3 : t.nleaf = 0) (h4 : t.code = emptyCode) : TablesOk t where
  noTree _ := ⟨h2, h3⟩
  store h := by rw [h1] at h; cases h
  tree h := by rw [h1] at h; cases h
  codeLen x := by simp [h4]
  codeTable := .inl h4

/-- An idle state with a sound fault record and sound tables has the invariant. -/
theorem Inv.idleState {s : State} (hb : s.busy = false) (hp : s.phase = .idle) (hc : s.errcode.toNat ≤ 5)
    (hi : s.errcode = 0 → s.errinfo = 0) (ht : TablesOk s) : Inv s where
  idle _ := hp
  notDone h := by rw [hb] at h; cases h
  noFaultRuns h := by rw [hb] at h; cases h
  position h := by rw [hb] at h; cases h
  errcodeLe := hc
  errinfoZero := hi
  noTree := ht.noTree
  store := ht.store
  tree := ht.tree
  codeLen := ht.codeLen
  codeTable := ht.codeTable

/-- The invariant does not depend on the streams, the schedule, the flags MIDPATH and WIGN, FREQ or the
model's counters. -/
theorem Inv.congr {s t : State} (h : Inv s) (hT : sameTree s t) (hc : t.code = s.code)
    (hR : sameRecord s t) (hb : t.busy = s.busy) (hd : t.done = s.done) (ho : t.op = s.op)
    (hp : t.phase = s.phase) (hcur : t.cur = s.cur) (hE : sameEncodeScratch s t) : Inv t := by
  have hk := h.tables.congr hT hc
  obtain ⟨-, h2, h3, -⟩ := hT
  exact
    { idle := by rw [hb, hp]; exact h.idle
      notDone := by rw [hb, hd]; exact h.notDone
      noFaultRuns := by rw [hb, hR.1, ho]; exact h.noFaultRuns
      position := by
        intro hbt
        have := h.position (hb ▸ hbt)
        unfold PositionOk at this ⊢
        rw [ho, hp, hE.1, hE.2, hc, h2, h3, hcur]
        exact this
      errcodeLe := by rw [hR.1]; exact h.errcodeLe
      errinfoZero := by rw [hR.1, hR.2]; exact h.errinfoZero
      noTree := hk.noTree
      store := hk.store
      tree := hk.tree
      codeLen := hk.codeLen
      codeTable := hk.codeTable }

theorem clrEffect_tables (s : State) : TablesOk (clrEffect s) :=
  TablesOk.empty rfl rfl rfl rfl

/-- Everything BUILD's effect can be: E_WGTOVF with no tree, no tree, or a tree over the mapping, in order
(41_tree_builder.md R102, R105, R107, R111). -/
theorem buildEffect_spec (s : State) :
    (2 ^ 32 ≤ freqSum s.freq ∧ buildEffect s = raiseFault eWgtOvf 0 (buildClear s)) ∨
    (freqSum s.freq < 2 ^ 32 ∧ leafCount s.freq = 0 ∧ ∃ b : Store, buildEffect s = finish
      { buildClear s with node := b.node, act := b.act, nextSlot := b.next }) ∨
    (freqSum s.freq < 2 ^ 32 ∧ 0 < leafCount s.freq ∧ ∃ (b : Store) (root : Idx) (t : Tree),
      b = buildStore s.freq s.node ∧
      buildEffect s = finish { buildClear s with
        node := b.node, act := b.act, nextSlot := b.next, rootValid := true, rootIdx := root,
        nleaf := BitVec.ofNat 9 (leafCount s.freq) } ∧
      StoreOk b.node root ∧ treeAt b.node (Config.lenMax + 1) root = some t ∧ t.weightsOk ∧
      t.leaves.Perm (mapping s.freq) ∧
      (2 ≤ leafCount s.freq → root.toNat = 256 + leafCount s.freq - 2)) := by
  by_cases h : 2 ^ 32 ≤ freqSum s.freq
  · exact .inl ⟨h, if_pos h⟩
  · have hlt : freqSum s.freq < 2 ^ 32 := by omega
    right
    have e : buildEffect s =
        finish (plantRoot (leafCount s.freq) (buildClear s) (buildStore s.freq s.node)) := if_neg h
    rcases buildStore_spec s.freq s.node hlt with ⟨hk, hl⟩ | ⟨hk, root, w, t, hl, h1, h2, h3, h4, -, h6⟩
    · refine .inl ⟨hlt, hk, buildStore s.freq s.node, ?_⟩
      rw [e]
      unfold plantRoot
      rw [hl]
    · refine .inr ⟨hlt, hk, buildStore s.freq s.node, root, t, rfl, ?_, h1, h2, h3, h4, h6⟩
      rw [e]
      unfold plantRoot
      rw [hl]

/-- A tree over the mapping, in order, with a sum of counts below `2^32`, is a tree BUILD leaves. -/
theorem TreeOk.ofMapping {freq : Vector Word Config.nsym} {t : Tree} (hw : t.weightsOk)
    (hp : t.leaves.Perm (mapping freq)) (hs : freqSum freq < 2 ^ 32) :
    TreeOk t ∧ t.leaves.length = leafCount freq ∧ t.weight = freqSum freq := by
  have hsum : t.weight = freqSum freq := by
    rw [Tree.weight_eq_sum hw, ← mapping_sum]
    exact (hp.map _).sum_eq
  refine ⟨⟨hw, ?_, by rw [hsum]; exact hs⟩, by rw [hp.length_eq, mapping_length], hsum⟩
  exact (hp.map _).nodup_iff.mpr (mapping_nodup freq)

/-- BUILD leaves sound tables, whatever the store held before. -/
theorem buildEffect_tables (s : State) : TablesOk (buildEffect s) := by
  rcases buildEffect_spec s with ⟨-, e⟩ | ⟨-, -, b, e⟩ | ⟨hlt, hk, b, root, t, -, e, h1, h2, h3, h4, -⟩
  · rw [e]
    exact TablesOk.empty rfl rfl rfl rfl
  · rw [e]
    exact TablesOk.empty rfl rfl rfl rfl
  · rw [e]
    obtain ⟨hT, hlen, -⟩ := TreeOk.ofMapping h3 h4 hlt
    have hk' := leafCount_le s.freq
    refine ⟨fun h => (by cases h), fun _ => h1, fun _ => ⟨t, ?_, hT, ?_⟩, fun x => ?_, .inl rfl⟩
    · unfold State.tree
      exact h2
    · rw [hlen]
      change _ = (BitVec.ofNat 9 (leafCount s.freq)).toNat
      rw [BitVec.toNat_ofNat]
      omega
    · change (symEntry emptyCode x).length ≤ _
      simp

/-- On sound tables DERIVE completes; its table is empty with no tree, else the tree's
(42_code_table.md R120 to R123). -/
theorem deriveEffect_spec {s : State} (h : TablesOk s) :
    ∃ c, deriveEffect s = .next (finish { s with code := c, stack := [] }) ∧
      ((s.rootValid = false ∧ c = emptyCode) ∨
        ∃ t, s.tree = some t ∧ TreeOk t ∧ ∀ x, symEntry c x = t.codeOf x) := by
  cases hv : s.rootValid with
  | false => exact ⟨emptyCode, by unfold deriveEffect; rw [hv]; rfl, .inl ⟨rfl, rfl⟩⟩
  | true =>
    obtain ⟨t, ht, hok, -⟩ := h.tree hv
    have ht' : treeAt s.node (Config.lenMax + 1) s.rootIdx = some t := by
      unfold State.tree at ht
      rwa [hv, if_pos rfl] at ht
    obtain ⟨c, hc, hx⟩ := deriveTree_spec ht' hok.2.1
    refine ⟨c, ?_, .inr ⟨t, ht, hok, hx⟩⟩
    unfold deriveEffect
    rw [hv, if_pos rfl, hc]

/-- DERIVE leaves sound tables. -/
theorem deriveEffect_tables {s t : State} (h : TablesOk s) (hd : deriveEffect s = .next t) : TablesOk t := by
  obtain ⟨c, e, hc⟩ := deriveEffect_spec h
  rw [hd] at e
  obtain rfl := Host.Outcome.next.inj e
  refine ⟨h.noTree, h.store, h.tree, ?_, ?_⟩
  · intro x
    change (symEntry c x).length ≤ _
    rcases hc with ⟨-, rfl⟩ | ⟨t, ht, hok, hx⟩
    · simp
    · rw [hx]
      unfold State.tree at ht
      cases hv : s.rootValid with
      | false => rw [hv] at ht; cases ht
      | true =>
        rw [hv, if_pos rfl] at ht
        exact codeOf_length ht x
  · rcases hc with ⟨-, rfl⟩ | ⟨t, ht, hok, hx⟩
    · exact .inl rfl
    · exact .inr ⟨t, ht, hx⟩

end Sys2Proof
end

