-- ==== Sys2Proof/Laws/PerInstr.lean ====
section
/-! SUPPORT. The family of statements about every command as syntax: its command word. -/

namespace Sys2Proof.Laws.CommandWords

/-- Command `i` is well formed, its word is its opcode in `[3:0]` with `[31:4]` clear, the word passes the
checks of WellFormed, and the opcode is that of `i` alone (30_encoding.md R70, R71). -/
def Statement (i : Instr) : Prop :=
  i.wf = true ∧ splitWord (encode i) = { opc := opcodeOf i, zero := 0 } ∧
    (splitWord (encode i)).wf = true ∧ ∀ o : BitVec 4, instrOfOpcode o = some i ↔ o = opcodeOf i

theorem clr : Statement .clr := by unfold Statement; decide

theorem count : Statement .count := by unfold Statement; decide

theorem build : Statement .build := by unfold Statement; decide

theorem derive : Statement .derive := by unfold Statement; decide

theorem encode : Statement .encode := by unfold Statement; decide

theorem decode : Statement .decode := by unfold Statement; decide

end Sys2Proof.Laws.CommandWords
end

