-- ==== Sys2Proof/Laws/Sequencer.lean ====
section
/-! SUPPORT. What a step is, case by case, and how runs compose. -/

namespace Sys2Proof

open Sys2Proof.Machine

@[simp] theorem instrOfOpcode_opcodeOf (i : Instr) : instrOfOpcode (opcodeOf i) = some i := by
  cases i <;> rfl

theorem opcodeOf_injective {i j : Instr} (h : opcodeOf i = opcodeOf j) : i = j := by
  have := congrArg instrOfOpcode h
  simpa using this

/-- An opcode of the map is that of its command. -/
theorem opcodeOf_of_instrOfOpcode {o : BitVec 4} {i : Instr} (h : instrOfOpcode o = some i) :
    o = opcodeOf i := by
  revert h
  revert o
  cases i <;> decide

namespace Machine

/-! One step. -/

theorem step_core {s : State} (h : s.script = []) : step s = coreMove s := by
  simp [step, nextMove, h]

theorem step_scheduled {s : State} {m : Move} {rest : List Move} (h : s.script = m :: rest) :
    step s = perform m { s with script := rest } := by simp [step, nextMove, h]

theorem coreMove_idle {s : State} (h : s.busy = false) : coreMove s = .next s := by simp [coreMove, h]

theorem coreMove_runs {s : State} {i : Instr} (h : s.busy = true) (ho : s.op = opcodeOf i) :
    coreMove s = exec i s := by simp [coreMove, h, ho]

theorem offerCommand_busy {s : State} {w : Word} (h : s.busy = true) :
    offerCommand w s = .next (ignoreWrite s) := by simp [offerCommand, h]

theorem offerCommand_faulted {s : State} {w : Word} (h : s.busy = false) (he : s.errcode ≠ 0)
    (hw : w ≠ encode .clr) : offerCommand w s = .next (ignoreWrite s) := by
  have : s.errcode ≠ 0 ∧ w ≠ encode .clr := ⟨he, hw⟩
  rw [offerCommand, h, if_neg Bool.false_ne_true, if_pos this]

theorem offerCommand_accepted {s : State} {w : Word} (h : s.busy = false)
    (he : s.errcode = 0 ∨ w = encode .clr) :
    offerCommand w s =
      match decode w with
      | .error _ => .next (raiseFault eIllCmd w (accept (splitWord w).opc s))
      | .ok i => exec i s := by
  have : ¬ (s.errcode ≠ 0 ∧ w ≠ encode .clr) := by
    rintro ⟨h1, h2⟩
    exact he.elim h1 h2
  cases hd : decode w <;> rw [offerCommand, h, if_neg Bool.false_ne_true, if_neg this, hd]

/-- Everything a step can do. -/
theorem step_cases {s t : State} (h : step s = .next t) :
    (s.script = [] ∧ coreMove s = .next t) ∨
    ∃ m rest, s.script = m :: rest ∧ perform m { s with script := rest } = .next t := by
  cases hs : s.script with
  | nil => exact .inl ⟨rfl, by rwa [step_core hs] at h⟩
  | cons m rest => exact .inr ⟨m, rest, rfl, by rwa [step_scheduled hs] at h⟩

end Machine

/-! Runs. -/

theorem Reaches.refl (s : State) : Reaches s s := ⟨0, rfl⟩

theorem run_next {k : Nat} {s u : State} (h : step s = .next u) :
    Host.Core.run core (k + 1) s = Host.Core.run core k u := by
  have h' : core.step s = .next u := h
  simp [Host.Core.run, h']

theorem step_of_run {k : Nat} {s t : State} (h : Host.Core.run core (k + 1) s = .next t) :
    ∃ u, step s = .next u ∧ Host.Core.run core k u = .next t := by
  cases hs : step s with
  | next u => exact ⟨u, rfl, by rwa [run_next hs] at h⟩
  | fault r =>
    have hs' : core.step s = .fault r := hs
    simp [Host.Core.run, hs'] at h
  | refused r =>
    have hs' : core.step s = .refused r := hs
    simp [Host.Core.run, hs'] at h

/-- A run goes on from the state its first step leads to. -/
theorem Reaches.head {s u t : State} (h : step s = .next u) (hr : Reaches u t) : Reaches s t := by
  obtain ⟨k, hk⟩ := hr
  exact ⟨k + 1, by rw [run_next h]; exact hk⟩

theorem run_next_add {k m : Nat} {s u : State} (h : Host.Core.run core k s = .next u) :
    Host.Core.run core (k + m) s = Host.Core.run core m u := by
  induction k generalizing s with
  | zero =>
    obtain rfl : s = u := Host.Outcome.next.inj h
    rw [Nat.zero_add]
  | succ k ih =>
    obtain ⟨v, hv, hr⟩ := step_of_run h
    rw [Nat.add_right_comm, run_next hv]
    exact ih hr

theorem Reaches.trans {s u t : State} (h₁ : Reaches s u) (h₂ : Reaches u t) : Reaches s t := by
  obtain ⟨k, hk⟩ := h₁
  obtain ⟨m, hm⟩ := h₂
  exact ⟨k + m, by rw [run_next_add hk, hm]⟩

end Sys2Proof
end

