-- ==== Sys2Proof/Tests/Slice0.lean ====
section
/-! SUPPORT. Tests: well-formedness, every command word, one or two single steps per command with results from
95_test_vectors.md, and for every obligation that has hypotheses a state and operands that meet them. -/

namespace Sys2Proof.Tests

open Sys2Proof Sys2Proof.Machine

/- One evaluation at a time: each waiting one would hold a thread's stack. -/
set_option Elab.async false

/-! Well-formedness: a word that each check refuses (30_encoding.md R72). -/

theorem test_zero_refused : CommandWord.zeroOk { opc := 3, zero := 1 } = false := by decide

theorem test_opc_refused_low : CommandWord.opcOk { opc := 0, zero := 0 } = false := by decide

theorem test_opc_refused_high : CommandWord.opcOk { opc := 7, zero := 0 } = false := by decide

theorem test_wf_refuses_each :
    CommandWord.wf { opc := 3, zero := 1 } = false ∧ CommandWord.wf { opc := 15, zero := 0 } = false ∧
      CommandWord.wf { opc := 3, zero := 0 } = true := by decide

/-! Every constructor's word, bit by bit: `[31:4]` 0, `[3:0]` the opcode (30_encoding.md R70, R71). -/

def decoded (w : Word) : Option Instr :=
  match decode w with
  | .ok i => some i
  | .error _ => none

theorem test_word_clr : decoded 0b0000000000000000000000000000_0001#32 = some .clr := by decide

theorem test_word_count : decoded 0b0000000000000000000000000000_0010#32 = some .count := by decide

theorem test_word_build : decoded 0b0000000000000000000000000000_0011#32 = some .build := by decide

theorem test_word_derive : decoded 0b0000000000000000000000000000_0100#32 = some .derive := by decide

theorem test_word_encode : decoded 0b0000000000000000000000000000_0101#32 = some .encode := by decide

theorem test_word_decode : decoded 0b0000000000000000000000000000_0110#32 = some .decode := by decide

/-- V60's words are no commands. -/
theorem test_words_illegal :
    [0x0#32, 0x7#32, 0xF#32, 0x10#32, 0x13#32, 0x80000001#32, 0xFFFFFFFF#32].map decoded =
      List.replicate 7 none := by decide

theorem test_table_words :
    [1, 2, 3, 4, 5, 6].map (decodeTableWord 32) =
      [some .clr, some .count, some .build, some .derive, some .encode, some .decode] := by decide

/-! States. -/

/-- Reset, with the given counts in FREQ. -/
def withCounts (l : List (Sym × Word)) : State :=
  { State.reset with freq := l.foldl (fun t e => setSymEntry t e.1 e.2) emptyFreq }

/-- A running command in a position. -/
def running (i : Instr) (p : Phase) (s : State) : State :=
  { s with busy := true, done := false, op := opcodeOf i, phase := p }

def leafOf (x : Sym) (w : Word) : Slot := { w := w, leaf := true, sym := x, l := 0x1FF, r := 0x1FF }

/-- The input `aab` counted, built and derived: the values of V10, V20 and V30. -/
def aab : State :=
  { withCounts [(0x61, 2), (0x62, 1)] with
    node := ((State.reset.node.set 97 (leafOf 0x61 2)).set 98 (leafOf 0x62 1)).set 256
      { w := 3, leaf := false, sym := 0, l := 98, r := 97 }
    rootValid := true, rootIdx := 256, nleaf := 2
    code := setSymEntry (setSymEntry emptyCode 0x61 [true]) 0x62 [false]
    done := true, op := 4 }

/-- The tree of `aab`. -/
def aabTree : Tree := .node 3 (.leaf 1 0x62) (.leaf 2 0x61)

/-- The input `aaaa` counted, built and derived: V29 (b) and V34. -/
def single : State :=
  { withCounts [(0x61, 4)] with
    node := State.reset.node.set 97 (leafOf 0x61 4)
    rootValid := true, rootIdx := 97, nleaf := 1
    code := setSymEntry emptyCode 0x61 [true], done := true, op := 4 }

/-- A state whose code for 0x61 has the greatest length. -/
def longCode : State := { State.reset with code := setSymEntry emptyCode 0x61 (List.replicate 255 true) }

def nextOf (o : Outcome) : Option State :=
  match o with
  | .next t => some t
  | _ => none

def atSym (x : Sym) (s : State) : State := { s with symIn := [symItem x, endOfInput 8] }

def atBit (b : Bool) (s : State) : State := { s with bitIn := [bitItem b, endOfInput 1] }

/-! One step of each command. -/

/-- V63: after CLR STATUS reads 0x00001002 and TREEINFO 0x000001FF. -/
theorem test_clr :
    (nextOf (exec .clr { aab with errcode := 4, errinfo := 0x63, wign := true, midpath := true })).map
      (fun t => (readRegister .status t, readRegister .treeinfo t, readRegister .errinfo t)) =
      some (some 0x00001002, some 0x000001FF, some 0) := by decide +kernel

theorem test_clr_tables :
    (nextOf (exec .clr aab)).map (fun t => (symEntry t.freq 0x61, symEntry t.code 0x61)) =
      some (0, []) := by decide +kernel

/-- V17: the item `DATA(61)` when FREQ[0x61] is at its greatest value. -/
theorem test_count_overflow :
    (nextOf (exec .count (atSym 0x61 (running .count .take (withCounts [(0x61, 0xFFFFFFFF), (0x62, 3)]))))).map
      (fun t => (readRegister .status t, t.errinfo, symEntry t.freq 0x61, symEntry t.freq 0x62, t.symIn.length)) =
      some (some 0x00002206, 0x61, 0xFFFFFFFF, 3, 1) := by decide +kernel

/-- V17: from the same state the item `DATA(62)`. -/
theorem test_count_symbol :
    (nextOf (exec .count (atSym 0x62 (running .count .take (withCounts [(0x61, 0xFFFFFFFF), (0x62, 3)]))))).map
      (fun t => (symEntry t.freq 0x62, t.errcode, t.busy)) = some (4, 0, true) := by decide +kernel

/-- V24: three equal weights; a leaf goes before an internal node, the lower slot left. -/
theorem test_build_ties :
    (nextOf (exec .build (withCounts [(0x61, 1), (0x62, 1), (0x63, 1)]))).map
      (fun t => (readRegister .treeinfo t, readRegister .status t,
        (slotAt t.node 256).map nodeLWord, readRegister (.nodeL 257) t, readRegister (.nodeW 257) t)) =
      some (some 0x80030101, some 0x0000300A, some 0x00C46100, some 0x02006300, some 3) := by
  decide +kernel

/-- V2B (a): the sum of the counts is `2^32`. -/
theorem test_build_overflow :
    (nextOf (exec .build (withCounts [(0x61, 0x80000000), (0x62, 0x80000000)]))).map
      (fun t => (readRegister .status t, t.errinfo, readRegister .treeinfo t)) =
      some (some 0x00003306, 0, some 0x000001FF) := by decide +kernel

/-- V30: the codes of `aab`. -/
theorem test_derive_aab :
    (nextOf (exec .derive { aab with code := emptyCode })).map
      (fun t => ([Register.codelen 0x61, .codebits 0x61 0, .codelen 0x62, .codebits 0x62 0, .codelen 0x63].map
        fun r => readRegister r t)) =
      some [some 1, some 1, some 1, some 0, some 0] := by decide +kernel

/-- V34: the code of a single leaf. -/
theorem test_derive_single :
    (nextOf (exec .derive { single with code := emptyCode })).map
      (fun t => (symEntry t.code 0x61, readRegister .status t)) = some ([true], some 0x0000400A) := by
  decide +kernel

/-- V40: the bit of `a` is handed to the sink. -/
theorem test_encode_bit :
    (nextOf (exec .encode (running .encode .emitBit { aab with esym := 0x61 }))).map
      (fun t => (t.bitOut, t.phase)) = some ([.data 1], .take) := by decide +kernel

/-- V46: the symbol 0x63 has no code; the END of the output comes first. -/
theorem test_encode_noCode :
    (nextOf (exec .encode (atSym 0x63 (running .encode .take aab)))).map
      (fun t => (t.phase, t.errcode, t.boOffer, t.symIn.length)) =
      some (.close (.fault 4 0x63), 0, some .endItem, 1) := by decide +kernel

/-- V50: the bit 1 leads from the root to the leaf `a`. -/
theorem test_decode_bit :
    (nextOf (exec .decode (atBit true (running .decode .take { aab with cur := 256 })))).map
      (fun t => (t.cur, t.soOffer)) = some (97, some (.data 0x61)) := by decide +kernel

/-- V53: with a single leaf the bit 0 gives its symbol, by the null cursor. -/
theorem test_decode_single :
    (nextOf (exec .decode (atBit false (running .decode .take { single with cur := 97 })))).map
      (fun t => (t.cur, t.soOffer)) = some (0x1FF, some (.data 0x61)) := by decide +kernel

/-! Job control and the host. -/

/-- V60: an illegal word. -/
theorem test_illegal_word :
    (nextOf (step (State.reset.withFetchWord 32 0x13))).map
      (fun t => (readRegister .status t, readRegister .errinfo t)) =
      some (some 0x00003106, some 0x00000013) := by decide +kernel

/-- V61: after a fault a command other than CLR is dropped. -/
theorem test_dropped :
    (nextOf (step { State.reset with done := true, errcode := 1, script := [.hWrite 0 2] })).map
      (readRegister .status ·) = some (some 0x00000126) := by decide +kernel

/-- V6: the first step of COUNT from reset. -/
theorem test_first_step :
    (nextOf (step (State.reset.withFetchWord 32 2))).map (readRegister .status ·) =
      some (some 0x00002001) := by decide +kernel

/-- V7: the ends of the address map. -/
theorem test_addresses :
    [0x1FF, 0x2FF, 0x7FC, 0x7FD, 0x7FE, 0xB08, 0xFFF].map registerAt =
      [.freq 0xFF, .codelen 0xFF, .nodeW 510, .nodeL 510, .unmapped, .codebits 0x61 0, .codebits 0xFF 7] := by
  decide

/-! The invariant is met by reset and by states with a tree. -/

theorem reset_inv : Inv State.reset :=
  Inv.idleState rfl rfl (by decide) (fun _ => rfl) (TablesOk.empty rfl rfl rfl rfl)

theorem aab_tree : aab.tree = some aabTree := by decide +kernel

theorem aab_leaf (x : Sym) (hx : x = 0x61 ∨ x = 0x62) : LeafOk aab.node (x.setWidth 9) := by
  rcases hx with rfl | rfl
  · exact ⟨leafOf 0x61 2, by decide +kernel⟩
  · exact ⟨leafOf 0x62 1, by decide +kernel⟩

theorem aab_store : StoreOk aab.node aab.rootIdx := by
  refine ⟨by decide, fun h => absurd h (by decide), fun i h1 h2 => ?_⟩
  obtain rfl : i = 256#9 := by
    apply BitVec.eq_of_toNat_eq
    have : aab.rootIdx.toNat = 256 := by decide
    have : (256#9).toNat = 256 := by decide
    omega
  exact ⟨{ w := 3, leaf := false, sym := 0, l := 98, r := 97 }, leafOf 0x62 1, leafOf 0x61 2,
    by decide +kernel, rfl, rfl, by decide, by decide, by decide,
    fun _ => aab_leaf 0x62 (.inr rfl), fun _ => aab_leaf 0x61 (.inl rfl),
    by decide +kernel, by decide +kernel, by decide⟩

theorem aab_tables : TablesOk aab where
  noTree h := by cases h
  store _ := aab_store
  tree _ := ⟨aabTree, aab_tree, ⟨by simp [aabTree, Tree.weightsOk, Tree.weight],
    by unfold Tree.distinct; decide, by decide⟩, by decide⟩
  codeLen := by decide +kernel
  codeTable := .inr ⟨aabTree, aab_tree, by decide +kernel⟩

theorem aab_inv : Inv aab := Inv.idleState rfl rfl (by decide) (fun _ => rfl) aab_tables

/-! For every obligation with hypotheses, states and operands that meet them. -/

theorem witness_ResetFromAnyState :
    ∃ rest, ({ running .encode .emitBit aab with script := [.reset, .core] } : State).script = .reset :: rest :=
  ⟨_, rfl⟩

theorem witness_DecoderIsTotal :
    (0x00000013#32).extractLsb' 4 28 ≠ 0 ∧ (0x80000001#32).extractLsb' 4 28 ≠ 0 ∧
      (∀ o : BitVec 4, (o.setWidth 32).extractLsb' 4 28 = 0 ∧ (o.setWidth 32).extractLsb' 0 4 = o) := by
  decide

theorem witness_ErrinfoAndTreeinfoLayout :
    aab.busy = false ∧ (running .count .take aab).busy = true := by decide

theorem witness_AddressMap :
    (0x004#12 ≤ 0x004#12 ∧ 0x004#12 ≤ 0x0FF#12) ∧ (0x300#12 ≤ 0x3FF#12 ∧ 0x3FF#12 ≤ 0x3FF#12) ∧
      (0#9).toNat ≤ 510 ∧ (510#9).toNat ≤ 510 := by decide

theorem witness_TableWords :
    longCode.busy = false ∧ (symEntry longCode.code 0x61).length = 255 ∧
      (symEntry longCode.code 0xFF).length ≤ 255 := by decide +kernel

theorem witness_NodeWords_leaf :
    aab.busy = false ∧ aab.live 97 = true ∧ slotAt aab.node 97 = some (leafOf 0x61 2) ∧
      (leafOf 0x61 2).leaf = true ∧ (leafOf 0x61 2).l = Config.nil ∧ (leafOf 0x61 2).r = Config.nil ∧
      (97#9).toNat ≤ 510 := by decide +kernel

/-- A slot that is not live, the last one, and a live internal slot. -/
theorem witness_NodeWords_internal :
    aab.live 510 = false ∧ (510#9).toNat ≤ 510 ∧ aab.live 256 = true ∧
      slotAt aab.node 256 = some { w := 3, leaf := false, sym := 0, l := 98, r := 97 } := by decide +kernel

theorem witness_StreamItems :
    (endOfInput 8).kind = 0b01 ∧ (symItem 0x61).kind = 0b00 ∧
      ({ kind := 3, data := 1 } : RawItem 1).kind = 0b11 := by decide

theorem witness_HostReadChangesNothing :
    (({ aab with script := [.hRead 0x161] } : State).script = .hRead 0x161 :: [] ∧
      readRegister (registerAt 0x161) { aab with script := [.hRead 0x161] } = some 2) ∧
    (({ State.reset with script := [.hRead 0x400] } : State).script = .hRead 0x400 :: [] ∧
      readRegister (registerAt 0x400) { State.reset with script := [.hRead 0x400] } = none) :=
  ⟨⟨rfl, by decide +kernel⟩, rfl, by decide +kernel⟩

/-- The host is about to write. -/
def writing (a : Addr) (v : Word) (s : State) : State := { s with script := [.hWrite a v] }

/-- Both ends of FREQ while idle; the ends of the read-only and unmapped ranges; both ends of FREQ while busy. -/
theorem witness_HostWrites :
    (∀ x : Sym, (writing (0x100 + x.setWidth 12) 7 aab).busy = false ∧
      (writing (0x100 + x.setWidth 12) 7 aab).script = .hWrite (0x100 + x.setWidth 12) 7 :: []) ∧
    (∀ a : Addr, (writing a 7 (running .count .take aab)).script = .hWrite a 7 :: [] ∧
      (writing a 7 (running .count .take aab)).busy = true) ∧
    (∀ a ∈ [0x001#12, 0x0FF#12, 0x200#12, 0xFFF#12], a ≠ 0 ∧ (a < 0x100 ∨ 0x200 ≤ a)) ∧
    ∀ a ∈ [0x100#12, 0x1FF#12], 0x100 ≤ a ∧ a < 0x200 :=
  ⟨fun _ => ⟨rfl, rfl⟩, fun _ => ⟨rfl, rfl⟩, by decide, by decide⟩

/-- Busy; a recorded fault and a word other than CLR; accepted with no fault, a legal and an illegal word; CLR
accepted with a fault recorded. -/
theorem witness_CommandWordOffered :
    (∀ w, (writing 0 w (running .count .take aab)).script = .hWrite 0 w :: [] ∧
      (writing 0 w (running .count .take aab)).busy = true) ∧
    (∀ w, (writing 0 w { aab with errcode := 4 }).script = .hWrite 0 w :: [] ∧
      (writing 0 w { aab with errcode := 4 }).busy = false ∧ (writing 0 w { aab with errcode := 4 }).errcode ≠ 0) ∧
    (∀ w, (writing 0 w aab).busy = false ∧ (writing 0 w aab).errcode = 0) ∧
    0x00000003#32 ≠ 0x00000001#32 ∧ decode 0x00000003 = .ok .build ∧ decode 0x00000001 = .ok .clr ∧
    decode 0x00000007 = .error .unusedOpcode := by
  refine ⟨fun _ => ⟨rfl, rfl⟩, fun _ => ⟨rfl, rfl, ?_⟩, fun _ => ⟨rfl, rfl⟩, by decide, rfl, rfl, rfl⟩
  exact (by decide : (4 : BitVec 4) ≠ 0)

theorem witness_CoreMoveRunsCommand :
    (∀ i : Instr, (running i .take aab).script = [] ∧ (running i .take aab).op = opcodeOf i) ∧
      ({ aab with script := [.core] } : State).script = .core :: [] ∧ aab.busy = false :=
  ⟨fun _ => ⟨rfl, rfl⟩, rfl, rfl⟩

theorem witness_IllegalCommandFaults :
    (∀ w, acceptsCommand (writing 0 w aab) ∧ (writing 0 w aab).script = .hWrite 0 w :: []) ∧
      decode 0x00000000 = .error .unusedOpcode ∧ decode 0x00000007 = .error .unusedOpcode ∧
      decode 0x00000010 = .error .nonzeroField :=
  ⟨fun _ => ⟨⟨rfl, rfl⟩, rfl⟩, rfl, rfl, rfl⟩

theorem witness_BusyPeriod :
    (Instr.build = .clr ∨ Instr.build = .build ∨ Instr.build = .derive) ∧ (({ aab with busyPeriod := 1 } : State).busy = false ∧ ({ aab with busyPeriod := 1 } : State).busyPeriod = 0 + 1) ∧
      (running .build (.working 1) aab).busy = true ∧ (running .build (.working 1) aab).phase = .working (0 + 1) :=
  ⟨.inr (.inl rfl), ⟨rfl, rfl⟩, rfl, rfl⟩

/-- A recorded fault, and a command word that is dropped. -/
def faulted : State := { aab with errcode := 4, errinfo := 0x63, script := [.hWrite 0 0x00000003] }

theorem witness_FaultRecordIsSticky :
    Inv faulted ∧ faulted.errcode ≠ 0 ∧ (∃ t, step faulted = .next t) ∧ ¬ nextRuns .clr faulted ∧
      ¬ nextIsReset faulted := by
  refine ⟨?_, by decide, ⟨_, rfl⟩, ?_, ?_⟩
  · exact Inv.idleState rfl rfl (by decide) (fun h => absurd h (by decide))
      (aab_tables.congr ⟨rfl, rfl, rfl, rfl⟩ rfl)
  · rintro (⟨-, h⟩ | ⟨h, -⟩)
    · exact absurd h (by decide)
    · exact absurd h (by decide)
  · exact fun h => absurd h (by unfold nextIsReset; decide)

/-- An accepted command with no busy period, and one whose busy period is over. -/
theorem witness_effectDue (i : Instr) :
    effectDue i aab ∧ effectDue i (running i (.working 0) aab) :=
  ⟨.inl ⟨rfl, rfl⟩, .inr ⟨rfl, rfl, rfl⟩⟩

theorem witness_CountStartsFresh : aab.busy = false := rfl

/-- A running COUNT before an item, with the greatest count, one below it, and 0. -/
def counting (it : RawItem 8) : State :=
  { running .count .take (withCounts [(0x61, 0xFFFFFFFF), (0x62, 0xFFFFFFFE)]) with symIn := [it] }

theorem witness_CountTakesSymbol :
    (∀ x : Sym, waitsToTake .count (counting (symItem x)) ∧ readItem (symItem x) = .data x) ∧
      (symEntry (counting (symItem 0x61)).freq 0x61 = 0xFFFFFFFF#32 ∧
        symEntry (counting (symItem 0x62)).freq 0x62 ≠ 0xFFFFFFFF#32) :=
  ⟨fun _ => ⟨⟨rfl, rfl, rfl⟩, rfl⟩, by decide +kernel⟩

theorem witness_CountEnds :
    waitsToTake .count (counting (endOfInput 8)) ∧ readItem (endOfInput 8) = .endItem ∧
      readItem ({ kind := 2, data := 0 } : RawItem 8) = .errorItem ∧
      readItem ({ kind := 3, data := 0x61 } : RawItem 8) = .errorItem :=
  ⟨⟨rfl, rfl, rfl⟩, rfl, rfl, rfl⟩

theorem witness_frames (i : Instr) :
    ∃ t, exec i aab = .next t := by
  cases i
  · exact ⟨_, rfl⟩
  · exact ⟨_, rfl⟩
  · exact ⟨_, rfl⟩
  · have ht : TablesOk (accept 4 aab) := aab_tables.congr ⟨rfl, rfl, rfl, rfl⟩ rfl
    obtain ⟨c, hc, -⟩ := deriveEffect_spec ht
    exact ⟨_, hc⟩
  · exact ⟨_, rfl⟩
  · exact ⟨_, rfl⟩

def offering (l : List (RawItem 8)) (s : State) : State := { s with symIn := l }

theorem witness_CountIsExact :
    acceptsCommand (offering [symItem 0x61, symItem 0x61, symItem 0x62, endOfInput 8, symItem 0x63] aab) ∧
      (∀ x, ([0x61, 0x61, 0x62] : List Sym).count x < 2 ^ 32) ∧ (∀ x, ([] : List Sym).count x < 2 ^ 32) ∧
      (offering [symItem 0x61, symItem 0x61, symItem 0x62, endOfInput 8, symItem 0x63] aab).symIn =
        ([0x61, 0x61, 0x62] : List Sym).map symItem ++ endOfInput 8 :: [symItem 0x63] ∧
      (offering [endOfInput 8] aab).symIn = ([] : List Sym).map symItem ++ endOfInput 8 :: [] :=
  ⟨⟨rfl, rfl⟩, fun _ => Nat.lt_of_le_of_lt List.count_le_length (by decide), fun _ => by simp, rfl, rfl⟩

theorem witness_BuildWeightOverflow :
    effectDue .build (withCounts [(0x61, 0x80000000), (0x62, 0x80000000)]) ∧
      freqSum (withCounts [(0x61, 0x80000000), (0x62, 0x80000000)]).freq = 2 ^ 32 :=
  ⟨.inl ⟨rfl, rfl⟩, by decide +kernel⟩

theorem witness_BuildOfEmptyMapping :
    effectDue .build State.reset ∧ ∀ x, symEntry State.reset.freq x = 0 :=
  ⟨.inl ⟨rfl, rfl⟩, by decide +kernel⟩

theorem witness_BuildOfOneEntry :
    effectDue .build single ∧ symEntry single.freq 0x61 ≠ 0 ∧ ∀ y, y ≠ 0x61 → symEntry single.freq y = 0 :=
  ⟨.inl ⟨rfl, rfl⟩, by decide +kernel⟩

/-- One leaf, and two leaves with the greatest sum of counts. -/
theorem witness_BuildMakesTheTree :
    (effectDue .build single ∧ effectDue .build (withCounts [(0x00, 0xFFFFFFFE), (0xFF, 1)])) ∧
      0 < leafCount single.freq ∧ freqSum single.freq < 2 ^ 32 ∧
      2 ≤ leafCount (withCounts [(0x00, 0xFFFFFFFE), (0xFF, 1)]).freq ∧
      freqSum (withCounts [(0x00, 0xFFFFFFFE), (0xFF, 1)]).freq = 2 ^ 32 - 1 :=
  ⟨⟨.inl ⟨rfl, rfl⟩, .inl ⟨rfl, rfl⟩⟩, by decide +kernel⟩

/-- The hypotheses of BuildMergesTheLightest, BuildIsOptimal and CodeCostIsInnerWeight. -/
theorem witness_BuildIsOptimal :
    effectDue .build aab ∧ effectDue .build single ∧
      2 ≤ leafCount aab.freq ∧ freqSum aab.freq < 2 ^ 32 ∧ aab.busyPeriod = 0 ∧ single.busyPeriod = 0 ∧
      leafCount single.freq = 1 ∧ freqSum single.freq < 2 ^ 32 :=
  ⟨.inl ⟨rfl, rfl⟩, .inl ⟨rfl, rfl⟩, by decide +kernel⟩

/-- BuildMergesTheLightest's second clause at its least slots: with three equal counts (V24) slot 256 joins 97 and 98,
and slot 257 has the child 99, which was in the collection then. -/
theorem witness_BuildMergesTheLightest :
    effectDue .build (withCounts [(0x61, 1), (0x62, 1), (0x63, 1)]) ∧
      (nextOf (exec .build (withCounts [(0x61, 1), (0x62, 1), (0x63, 1)]))).map
        (fun t => (t.rootIdx, (slotAt t.node 256).map (fun n => (n.l, n.r)),
          (slotAt t.node 257).map (fun n => (n.l, n.r)))) =
        some (257, some (97, 98), some (99, 256)) :=
  ⟨.inl ⟨rfl, rfl⟩, by decide +kernel⟩

/-- A code of the document's kind for the counts of `aab` is prefix free. -/
theorem witness_prefixFree :
    prefixFree aab.freq aabTree.codeOf := by
  have key : ∀ x y : Sym, symEntry aab.freq x ≠ 0 → symEntry aab.freq y ≠ 0 →
      (x = 0x61 ∨ x = 0x62) ∧ (y = 0x61 ∨ y = 0x62) := by
    have one : ∀ x : Sym, symEntry aab.freq x ≠ 0 → x = 0x61 ∨ x = 0x62 := by decide +kernel
    exact fun x y hx hy => ⟨one x hx, one y hy⟩
  intro x y hx hy hne
  obtain ⟨rfl | rfl, rfl | rfl⟩ := key x y hx hy
  · exact absurd rfl hne
  · decide
  · decide
  · exact absurd rfl hne

theorem witness_BuildIsDeterministic :
    effectDue .build aab ∧ effectDue .build (withCounts [(0x61, 2), (0x62, 1)]) ∧
      aab.freq = (withCounts [(0x61, 2), (0x62, 1)]).freq ∧
      aab.rootValid ≠ (withCounts [(0x61, 2), (0x62, 1)]).rootValid :=
  ⟨.inl ⟨rfl, rfl⟩, .inl ⟨rfl, rfl⟩, rfl, by decide⟩

theorem witness_BuildFrame : symEntry aab.freq 0x63 = 0 ∧ 256 + (leafCount aab.freq - 1) ≤ (257#9).toNat := by
  decide +kernel

theorem witness_DeriveOfNoTreeOrOneLeaf :
    (effectDue .derive State.reset ∧ State.reset.rootValid = false) ∧
      effectDue .derive single ∧ single.rootValid = true ∧
      slotAt single.node single.rootIdx = some (leafOf 0x61 4) ∧ (leafOf 0x61 4).leaf = true :=
  ⟨⟨.inl ⟨rfl, rfl⟩, rfl⟩, .inl ⟨rfl, rfl⟩, rfl, by decide +kernel⟩

/-- The hypotheses of DeriveRecordsPaths and DerivedCodesArePrefixFree. -/
theorem witness_DeriveRecordsPaths :
    Inv aab ∧ effectDue .derive aab ∧ aab.tree = some aabTree ∧ aabTree.isLeaf = false ∧ aabTree.distinct :=
  ⟨aab_inv, .inl ⟨rfl, rfl⟩, aab_tree, rfl, by unfold Tree.distinct; decide⟩

theorem witness_DeriveIsFresh :
    Inv aab ∧ effectDue .derive aab ∧ effectDue .derive { aab with code := emptyCode } ∧
      sameTree aab { aab with code := emptyCode } :=
  ⟨aab_inv, .inl ⟨rfl, rfl⟩, .inl ⟨rfl, rfl⟩, rfl, rfl, rfl, rfl⟩

theorem witness_EncodeTakesItem :
    (∀ it, waitsToTake .encode (offering [it] (running .encode .take aab)) ∧
      (offering [it] (running .encode .take aab)).symIn = it :: []) ∧ aab.busy = false ∧
      readItem (symItem 0x61) = .data 0x61 ∧ symEntry aab.code 0x61 ≠ [] ∧
      readItem (symItem 0x63) = .data 0x63 ∧ symEntry aab.code 0x63 = [] ∧ readItem (endOfInput 8) = .endItem ∧
      readItem ({ kind := 3, data := 0 } : RawItem 8) = .errorItem :=
  ⟨fun _ => ⟨⟨rfl, rfl, rfl⟩, rfl⟩, rfl, rfl, by decide +kernel, rfl, by decide +kernel, rfl, rfl⟩

/-- Inside a code of 255 bits, at its last bit, at the END, and with a sink that takes nothing. -/
theorem witness_EncodePutsItem :
    (∀ s : State, (running .encode .emitBit s).busy = true ∧ (running .encode .emitBit s).op = opcodeOf .encode) ∧
      (253#8).toNat + 1 < (symEntry longCode.code 0x61).length ∧
      (symEntry longCode.code 0x61).length ≤ (254#8).toNat + 1 ∧
      (running .encode (.close (.fault 4 0x63)) aab).boReady = true ∧
      ({ running .encode (.close .finish) aab with boReady := false } : State).boReady = false :=
  ⟨fun _ => ⟨rfl, rfl⟩, by decide +kernel, by decide +kernel, rfl, rfl⟩

theorem witness_EncodeConcatenatesCodes :
    acceptsCommand (offering [symItem 0x61, symItem 0x62, endOfInput 8] aab) ∧
      (offering [symItem 0x61, symItem 0x62, endOfInput 8] aab).boReady = true ∧
      (offering [symItem 0x61, symItem 0x62, endOfInput 8] aab).symIn =
        ([0x61, 0x62] : List Sym).map symItem ++ endOfInput 8 :: [] ∧
      (∀ x ∈ ([0x61, 0x62] : List Sym), symEntry aab.code x ≠ [] ∧ (symEntry aab.code x).length ≤ 255) ∧
      (∀ x ∈ ([0x61] : List Sym), symEntry longCode.code x ≠ [] ∧ (symEntry longCode.code x).length ≤ 255) :=
  ⟨⟨rfl, rfl⟩, rfl, rfl, by decide +kernel, by decide +kernel⟩

theorem witness_EncodeFaultsPrecisely :
    acceptsCommand (offering [symItem 0x61, symItem 0x63, symItem 0x61] aab) ∧
      (offering [symItem 0x61, symItem 0x63, symItem 0x61] aab).boReady = true ∧
      (∀ x ∈ ([0x61] : List Sym), symEntry aab.code x ≠ [] ∧ (symEntry aab.code x).length ≤ 255) ∧
      (offering [symItem 0x61, symItem 0x63, symItem 0x61] aab).symIn =
        ([0x61] : List Sym).map symItem ++ symItem 0x63 :: [symItem 0x61] ∧
      readItem (symItem 0x63) = .data 0x63 ∧ symEntry aab.code 0x63 = [] ∧
      readItem ({ kind := 2, data := 0 } : RawItem 8) = .errorItem :=
  ⟨⟨rfl, rfl⟩, rfl, by decide +kernel, rfl, rfl, by decide +kernel, rfl⟩

theorem witness_DecodeStarts :
    (aab.busy = false ∧ aab.rootValid = true) ∧ State.reset.busy = false ∧ State.reset.rootValid = false :=
  ⟨⟨rfl, rfl⟩, rfl, rfl⟩

/-- DECODE before the bit `b`, with the cursor on slot `c`. -/
def before (b : Bool) (c : Idx) (s : State) : State :=
  { running .decode .take s with bitIn := [bitItem b], cur := c }

/-- A second internal slot over the tree of `aab`: its right child is an internal slot. -/
def deeper : State :=
  { aab with node := aab.node.set 257 { w := 5, leaf := false, sym := 0, l := 98, r := 256 }, rootIdx := 257 }

/-- A bit to a leaf, to the null cursor, and to an internal slot. -/
theorem witness_DecodeTakesBit :
    (∀ b c s, waitsToTake .decode (before b c s) ∧ (before b c s).bitIn = bitItem b :: [] ∧
      readItem (bitItem b) = .data (BitVec.ofBool b)) ∧
    (slotAt aab.node 256 = some { w := 3, leaf := false, sym := 0, l := 98, r := 97 } ∧
      slotAt aab.node 97 = some (leafOf 0x61 2)) ∧
    (slotAt single.node single.rootIdx = some (leafOf 0x61 4) ∧ (leafOf 0x61 4).l = Config.nil) ∧
    (slotAt deeper.node 257 = some { w := 5, leaf := false, sym := 0, l := 98, r := 256 } ∧
      (slotAt deeper.node 256).map (·.leaf) = some false) :=
  ⟨fun _ _ _ => ⟨⟨rfl, rfl, rfl⟩, rfl, rfl⟩, by decide +kernel, by decide +kernel, by decide +kernel⟩

theorem witness_DecodeEnds :
    (∀ it, waitsToTake .decode { running .decode .take aab with bitIn := [it] }) ∧
      readItem (endOfInput 1) = .endItem ∧ readItem ({ kind := 2, data := 1 } : RawItem 1) = .errorItem ∧
      (∀ p, (running .decode p aab).busy = true ∧ (running .decode p aab).op = opcodeOf .decode ∧
        (running .decode p aab).phase = p ∧ (running .decode p aab).soReady = true) ∧
      ∀ p, ({ running .decode p aab with soReady := false } : State).soReady = false :=
  ⟨fun _ => ⟨rfl, rfl, rfl⟩, rfl, rfl, fun _ => ⟨rfl, rfl, rfl, rfl⟩, fun _ => rfl⟩

theorem witness_DecodeWithoutTree :
    acceptsCommand State.reset ∧ State.reset.soReady = true ∧ State.reset.rootValid = false :=
  ⟨⟨rfl, rfl⟩, rfl, rfl⟩

theorem witness_DecodeSingleLeaf :
    acceptsCommand { single with bitIn := [bitItem false, bitItem true, endOfInput 1] } ∧ single.soReady = true ∧
      single.rootValid = true ∧ slotAt single.node single.rootIdx = some (leafOf 0x61 4) ∧
      (leafOf 0x61 4).leaf = true ∧ (leafOf 0x61 4).l = Config.nil ∧ (leafOf 0x61 4).r = Config.nil ∧
      ({ single with bitIn := [bitItem false, bitItem true, endOfInput 1] } : State).bitIn =
        ([false, true] : Bits).map bitItem ++ endOfInput 1 :: [] :=
  ⟨⟨rfl, rfl⟩, rfl, rfl, by decide +kernel, rfl, rfl, rfl, rfl⟩

/-- The tree of `aab`, with the bits `1 0` and END on offer. -/
def aabBits : State := { aab with bitIn := [bitItem true, bitItem false, endOfInput 1] }

theorem witness_DecodeRefinesTreeWalk :
    Inv aabBits ∧ acceptsCommand aabBits ∧ aabBits.soReady = true ∧ aabBits.tree = some aabTree ∧
      aabBits.bitIn = ([true, false] : Bits).map bitItem ++ endOfInput 1 :: [] :=
  ⟨aab_inv.congr ⟨rfl, rfl, rfl, rfl⟩ rfl ⟨rfl, rfl⟩ rfl rfl rfl rfl rfl ⟨rfl, rfl⟩, ⟨rfl, rfl⟩, rfl, aab_tree, rfl⟩

theorem witness_RoundTrip :
    faulted.busy = false ∧ sinksReady faulted ∧ ([0x61, 0x61, 0x62] : List Sym).length < 2 ^ 32 ∧
      ([] : List Sym).length < 2 ^ 32 :=
  ⟨rfl, ⟨rfl, rfl⟩, by decide, by decide⟩

theorem witness_StalledStreamHangs :
    (∀ i p, (running i p aab).script = [] ∧ (running i p aab).busy = true ∧ (running i p aab).op = opcodeOf i) ∧
      (waitsToTake .count (running .count .take aab) ∧ (running .count .take aab).symIn = []) ∧
      (waitsToTake .encode (running .encode .take aab) ∧ (running .encode .take aab).symIn = []) ∧
      (waitsToTake .decode (running .decode .take aab) ∧ (running .decode .take aab).bitIn = []) ∧
      ({ running .encode .emitBit aab with boReady := false } : State).boReady = false ∧
      ({ running .decode (.emitSym 0x61) aab with soReady := false } : State).soReady = false :=
  ⟨fun _ _ => ⟨rfl, rfl, rfl⟩, ⟨⟨rfl, rfl, rfl⟩, rfl⟩, ⟨⟨rfl, rfl, rfl⟩, rfl⟩, ⟨⟨rfl, rfl, rfl⟩, rfl⟩, rfl, rfl⟩

theorem witness_EveryStepKeepsInv : Inv State.reset ∧ Inv aab ∧ Inv faulted :=
  ⟨reset_inv, aab_inv, witness_FaultRecordIsSticky.1⟩

/-- The clauses of IdleStreamsStay on a stream in use: each input with an item, each output with one on offer. -/
theorem witness_IdleStreamsStay :
    (∀ i ∈ [Instr.count, .encode], (atSym 0x61 (running i .take aab)).siReady = true ∧
      nextRuns i (atSym 0x61 (running i .take aab))) ∧
    (before true 256 aab).biReady = true ∧ nextRuns .decode (before true 256 aab) ∧
    ((running .encode .emitBit { aab with esym := 0x61 }).boOffer = some (.data 1) ∧
      (running .encode (.close .finish) aab).boOffer = some .endItem ∧ aab.boReady = true) ∧
    ((running .decode (.emitSym 0x62) aab).soOffer = some (.data 0x62) ∧
      (running .decode (.close (.fault 5 0)) aab).soOffer = some .endItem ∧ aab.soReady = true) ∧
    ∀ i p, nextRuns i (running i p aab) := by
  refine ⟨?_, rfl, .inr ⟨rfl, rfl, .inl rfl⟩, ⟨by decide +kernel, rfl, rfl⟩, ⟨rfl, rfl, rfl⟩,
    fun i p => .inr ⟨rfl, rfl, .inl rfl⟩⟩
  intro i hi
  fin_cases hi
  · exact ⟨rfl, .inr ⟨rfl, rfl, .inl rfl⟩⟩
  · exact ⟨rfl, .inr ⟨rfl, rfl, .inl rfl⟩⟩

/-- The hypotheses of TablesChangeOnlyByTheirCommands, FlagsChangeOnlyAsListed, OneEndOnEveryExit and
IdleStreamsStay: the dropped word of `faulted`. -/
theorem witness_steps :
    (∃ t, step faulted = .next t) ∧ ¬ nextIsReset faulted ∧ (∀ i, ¬ nextRuns i faulted ∨ i = .build) ∧
      (∀ a v, nextWrites a v faulted → a < 0x100 ∨ 0x200 ≤ a) ∧
      ∀ i, ¬ nextRuns i { faulted with script := [.hWrite 0x050 1] } := by
  refine ⟨⟨_, rfl⟩, witness_FaultRecordIsSticky.2.2.2.2, ?_, ?_, ?_⟩
  · intro i
    cases i
    case build => exact .inr rfl
    all_goals
      left
      rintro (⟨-, h⟩ | ⟨h, -⟩)
      · exact absurd h (by decide)
      · exact absurd h (by decide)
  · intro a v h
    cases h
    decide
  · rintro i (⟨-, h⟩ | ⟨h, -⟩)
    · cases i <;> exact absurd h (by decide)
    · exact absurd h (by decide)

end Sys2Proof.Tests
end

namespace Sys2Proof

open Sys2Proof.Machine

/-! What a step is: the classification every whole-machine statement uses. -/

namespace Machine

/-- The state in which the next move acts: its own entry is off the schedule (assumption 2). -/
def State.popped (s : State) : State := { s with script := s.script.tail }

theorem popped_of_nil {s : State} (h : s.script = []) : s.popped = s := by
  unfold State.popped
  rw [h]
  exact congrArg (fun l => { s with script := l }) h.symm

theorem popped_of_cons {s : State} {m : Move} {rest : List Move} (h : s.script = m :: rest) :
    s.popped = { s with script := rest } := by simp [State.popped, h]

end Machine

/-- A move of the outside world that is no register write: it may add items to the sources, set a sink's ready
input or the busy period, and record a host read; nothing else differs (00_scope.md R6). -/
structure OutsideOnly (s t : State) : Prop where
  same : t = { s with
    symIn := t.symIn, bitIn := t.bitIn, boReady := t.boReady, soReady := t.soReady, hReads := t.hReads,
    busyPeriod := t.busyPeriod, draws := t.draws }
  symIn : s.symIn <+: t.symIn
  bitIn : s.bitIn <+: t.bitIn

/-- The moves the machine can make from `s`, each with its outcome `o`. -/
inductive StepKind (s : State) (o : Outcome) : Prop
  /-- A command is accepted, or the running one moves (45_job_control.md R151, R153). -/
  | runs (i : Instr) (now : nextRuns i s) (allowed : s.busy = true ∨ s.errcode = 0 ∨ i = .clr)
      (is : o = exec i s.popped)
  /-- The core moves with BUSY = 1 and an OP that names no command (assumption 14). -/
  | lost (busy : s.busy = true) (op : instrOfOpcode s.op = none) (is : o = .fault .sequencerLost)
  /-- An illegal word is accepted (45_job_control.md R152). -/
  | illegal (w : Word) (now : nextWrites 0 w s) (idle : s.busy = false)
      (is : o = .next (raiseFault eIllCmd w (accept (splitWord w).opc s.popped)))
  /-- A host write is dropped or ignored (20_memory.md R43, 45_job_control.md R151). -/
  | ignored (a : Addr) (v : Word) (now : nextWrites a v s) (is : o = .next (ignoreWrite s.popped))
  /-- The host writes a count (40_frequency_counter.md R93). -/
  | freqWrite (a : Addr) (v : Word) (x : Sym) (now : nextWrites a v s) (range : 0x100 ≤ a ∧ a < 0x200)
      (is : o = .next { s.popped with freq := setSymEntry s.freq x v })
  /-- Reset (70_reset_and_hazards.md R190). -/
  | reset (now : nextIsReset s) (is : o = .next (resetCore s.popped))
  /-- The idle core moves, or the outside world does, and no register is written. -/
  | outside (t : State) (is : o = .next t) (only : OutsideOnly s.popped t)

theorem registerAt_eq_cmd {a : Addr} (h : registerAt a = .cmd) : a = 0 := by
  unfold registerAt at h
  split at h
  · assumption
  · repeat' split at h
    all_goals cases h

theorem registerAt_eq_freq {a : Addr} {x : Sym} (h : registerAt a = .freq x) : 0x100 ≤ a ∧ a < 0x200 := by
  unfold registerAt at h
  repeat' split at h
  all_goals cases h
  exact ⟨BitVec.not_lt.mp ‹_›, ‹_›⟩

/-- The two fields of a word give it back (30_encoding.md R70). -/
@[simp] theorem joinWord_splitWord (w : Word) : joinWord (splitWord w) = w :=
  (BitVec.extractLsb'_append_extractLsb'_eq_extractLsb' rfl).trans BitVec.extractLsb'_eq_self

/-- A word that decodes is the command's own word (30_encoding.md R70, R71). -/
theorem eq_encode_of_decode {w : Word} {i : Instr} (h : decode w = .ok i) : w = encode i := by
  unfold decode at h
  split at h
  case isFalse => cases h
  case isTrue hz =>
    cases ho : instrOfOpcode (splitWord w).opc with
    | none => simp [ho] at h
    | some j =>
      obtain rfl : j = i := by simpa [ho] using h
      rw [← joinWord_splitWord w, encode, ← opcodeOf_of_instrOfOpcode ho, ← hz]

/-- A word written to CMD: dropped, accepted as illegal, or a move of its command (45_job_control.md R151). -/
theorem offerCommand_kind {s : State} {w : Word} (hw : nextWrites 0 w s) :
    StepKind s (offerCommand w s.popped) := by
  cases hb : s.busy with
  | true => exact .ignored 0 w hw (offerCommand_busy hb)
  | false =>
    by_cases he : s.errcode = 0 ∨ w = encode .clr
    · cases hd : decode w with
      | error e => exact .illegal w hw hb ((offerCommand_accepted (s := s.popped) hb he).trans (by rw [hd]))
      | ok i =>
        obtain rfl := eq_encode_of_decode hd
        refine .runs i (.inl ⟨hb, hw⟩) (.inr (he.imp_right fun h => ?_))
          ((offerCommand_accepted (s := s.popped) hb he).trans (by rw [hd]))
        revert h
        cases i <;> decide
    · obtain ⟨he, hne⟩ := not_or.mp he
      exact .ignored 0 w hw (offerCommand_faulted hb he hne)

theorem coreMove_kind {s : State} (hs : s.script = [] ∨ s.script.head? = some .core) :
    StepKind s (coreMove s.popped) := by
  cases hb : s.busy with
  | false =>
    exact .outside s.popped (coreMove_idle hb) ⟨rfl, List.prefix_rfl, List.prefix_rfl⟩
  | true =>
    cases ho : instrOfOpcode s.op with
    | none => exact .lost hb ho (by simp [coreMove, State.popped, hb, ho])
    | some i =>
      have hop := opcodeOf_of_instrOfOpcode ho
      exact .runs i (.inr ⟨hb, hop, hs⟩) (.inl hb) (coreMove_runs hb hop)

theorem hostWrite_kind {s : State} {a : Addr} {v : Word} (hw : nextWrites a v s) :
    StepKind s (hostWrite a v s.popped) := by
  unfold hostWrite
  cases hr : registerAt a with
  | cmd =>
    obtain rfl := registerAt_eq_cmd hr
    exact offerCommand_kind hw
  | freq x =>
    cases hb : s.busy with
    | true => exact .ignored a v hw (by simp [writeRegister, State.popped, hb])
    | false =>
      exact .freqWrite a v x hw (registerAt_eq_freq hr) (by simp [writeRegister, State.popped, hb])
  | status => exact .ignored a v hw rfl
  | errinfo => exact .ignored a v hw rfl
  | treeinfo => exact .ignored a v hw rfl
  | codelen x => exact .ignored a v hw rfl
  | nodeW i => exact .ignored a v hw rfl
  | nodeL i => exact .ignored a v hw rfl
  | codebits x j => exact .ignored a v hw rfl
  | unmapped => exact .ignored a v hw rfl

/-- A host read changes nothing but its record and the count of draws (20_memory.md R42). -/
theorem hostRead_outsideOnly (a : Addr) (s : State) : OutsideOnly s (hostRead a s) := by
  unfold hostRead
  cases readRegister (registerAt a) s with
  | some w => exact ⟨rfl, List.prefix_rfl, List.prefix_rfl⟩
  | none => exact ⟨rfl, List.prefix_rfl, List.prefix_rfl⟩

/-- Everything a step can be. -/
theorem step_kind (s : State) : StepKind s (step s) := by
  cases hs : s.script with
  | nil =>
    have hk := coreMove_kind (.inl hs)
    rwa [popped_of_nil hs, ← step_core hs] at hk
  | cons m rest =>
    have hm : s.script.head? = some m := by rw [hs]; rfl
    rw [step_scheduled hs, ← popped_of_cons hs]
    cases m with
    | core => exact coreMove_kind (.inr hm)
    | hRead a => exact .outside _ rfl (hostRead_outsideOnly a _)
    | hWrite a v => exact hostWrite_kind hm
    | symOffer it => exact .outside _ rfl ⟨rfl, List.prefix_append _ _, List.prefix_rfl⟩
    | bitOffer it => exact .outside _ rfl ⟨rfl, List.prefix_rfl, List.prefix_append _ _⟩
    | bitReady b => exact .outside _ rfl ⟨rfl, List.prefix_rfl, List.prefix_rfl⟩
    | symReady b => exact .outside _ rfl ⟨rfl, List.prefix_rfl, List.prefix_rfl⟩
    | pace n => exact .outside _ rfl ⟨rfl, List.prefix_rfl, List.prefix_rfl⟩
    | reset => exact .reset hm rfl

/-! What a move of each command can do. -/

theorem takeSym_cases {s t : State} {k : InItem 8 → State → Outcome} (h : takeSym s k = .next t) :
    (s.symIn = [] ∧ t = s) ∨
      ∃ it rest, s.symIn = it :: rest ∧ k (readItem it) { s with symIn := rest } = .next t := by
  cases hs : s.symIn with
  | nil => exact .inl ⟨rfl, (Host.Outcome.next.inj ((takeSym_nil hs).symm.trans h)).symm⟩
  | cons it rest => exact .inr ⟨it, rest, rfl, (takeSym_cons hs).symm.trans h⟩

theorem takeBit_cases {s t : State} {k : InItem 1 → State → Outcome} (h : takeBit s k = .next t) :
    (s.bitIn = [] ∧ t = s) ∨
      ∃ it rest, s.bitIn = it :: rest ∧ k (readItem it) { s with bitIn := rest } = .next t := by
  cases hs : s.bitIn with
  | nil => exact .inl ⟨rfl, (Host.Outcome.next.inj ((takeBit_nil hs).symm.trans h)).symm⟩
  | cons it rest => exact .inr ⟨it, rest, rfl, (takeBit_cons hs).symm.trans h⟩

theorem putBit_cases {s t : State} {item : OutItem 1} {k : State → State} (h : putBit item s k = .next t) :
    (s.boReady = false ∧ t = s) ∨ (s.boReady = true ∧ t = k { s with bitOut := s.bitOut ++ [item] }) := by
  rcases Bool.eq_false_or_eq_true s.boReady with hr | hr
  · exact .inr ⟨hr, Host.Outcome.next.inj (h.symm.trans (putBit_taken hr))⟩
  · exact .inl ⟨hr, Host.Outcome.next.inj (h.symm.trans (putBit_waits hr))⟩

theorem putSym_cases {s t : State} {item : OutItem 8} {k : State → State} (h : putSym item s k = .next t) :
    (s.soReady = false ∧ t = s) ∨ (s.soReady = true ∧ t = k { s with symOut := s.symOut ++ [item] }) := by
  rcases Bool.eq_false_or_eq_true s.soReady with hr | hr
  · exact .inr ⟨hr, Host.Outcome.next.inj (h.symm.trans (putSym_taken hr))⟩
  · exact .inl ⟨hr, Host.Outcome.next.inj (h.symm.trans (putSym_waits hr))⟩

theorem streamMove_cases {opc : BitVec 4} {start : State → State} {transfer : State → Outcome} {s t : State}
    (h : streamMove opc start transfer s = .next t) :
    (s.busy = false ∧ t = start (accept opc s)) ∨ (s.busy = true ∧ transfer s = .next t) := by
  rcases Bool.eq_false_or_eq_true s.busy with hb | hb
  · exact .inr ⟨hb, (streamMove_running hb).symm.trans h⟩
  · exact .inl ⟨hb, Host.Outcome.next.inj (h.symm.trans (streamMove_accept hb))⟩

/-- Everything a transfer of COUNT can do (40_frequency_counter.md R90). -/
theorem countTransfer_cases {s t : State} (h : countTransfer s = .next t) :
    (s.phase = .take ∧ s.symIn = [] ∧ t = s) ∨
    (∃ it rest, s.phase = .take ∧ s.symIn = it :: rest ∧
      t = countItem (readItem it) { s with symIn := rest }) := by
  unfold countTransfer at h
  split at h
  case h_1 hp =>
    rcases takeSym_cases h with ⟨hi, ht⟩ | ⟨it, rest, hi, ht⟩
    · exact .inl ⟨hp, hi, ht⟩
    · exact .inr ⟨it, rest, hp, hi, (Host.Outcome.next.inj ht).symm⟩
  case h_2 => cases h

/-- Everything a transfer of ENCODE can do (43_encoder.md R130 to R138). -/
theorem encodeTransfer_cases {s t : State} (h : encodeTransfer s = .next t) :
    t = s ∨
    (∃ it rest, s.phase = .take ∧ s.symIn = it :: rest ∧
      t = encodeItem (readItem it) { s with symIn := rest }) ∨
    (s.phase = .emitBit ∧ s.boReady = true ∧
      t = encodeAdvance { s with bitOut := s.bitOut ++ [.data (BitVec.ofBool s.codeBit)] }) ∨
    (∃ e, s.phase = .close e ∧ s.boReady = true ∧
      t = endCommand e { s with bitOut := s.bitOut ++ [.endItem] }) := by
  unfold encodeTransfer at h
  split at h
  case h_1 hp =>
    rcases takeSym_cases h with ⟨-, ht⟩ | ⟨it, rest, hi, ht⟩
    · exact .inl ht
    · exact .inr (.inl ⟨it, rest, hp, hi, (Host.Outcome.next.inj ht).symm⟩)
  case h_2 hp =>
    rcases putBit_cases h with ⟨-, ht⟩ | ⟨hr, ht⟩
    · exact .inl ht
    · exact .inr (.inr (.inl ⟨hp, hr, ht⟩))
  case h_3 e hp =>
    rcases putBit_cases h with ⟨-, ht⟩ | ⟨hr, ht⟩
    · exact .inl ht
    · exact .inr (.inr (.inr ⟨e, hp, hr, ht⟩))
  case h_4 => cases h

/-- Everything a transfer of DECODE can do (44_decoder.md R140 to R145). -/
theorem decodeTransfer_cases {s t : State} (h : decodeTransfer s = .next t) :
    t = s ∨
    (∃ it rest, s.phase = .take ∧ s.bitIn = it :: rest ∧
      decodeItem (readItem it) { s with bitIn := rest } = .next t) ∨
    (∃ v, s.phase = .emitSym v ∧ s.soReady = true ∧
      t = decodeAdvance { s with symOut := s.symOut ++ [.data v] }) ∨
    (∃ e, s.phase = .close e ∧ s.soReady = true ∧
      t = endCommand e { s with symOut := s.symOut ++ [.endItem] }) := by
  unfold decodeTransfer at h
  split at h
  case h_1 hp =>
    rcases takeBit_cases h with ⟨-, ht⟩ | ⟨it, rest, hi, ht⟩
    · exact .inl ht
    · exact .inr (.inl ⟨it, rest, hp, hi, ht⟩)
  case h_2 v hp =>
    rcases putSym_cases h with ⟨-, ht⟩ | ⟨hr, ht⟩
    · exact .inl ht
    · exact .inr (.inr (.inl ⟨v, hp, hr, ht⟩))
  case h_3 e hp =>
    rcases putSym_cases h with ⟨-, ht⟩ | ⟨hr, ht⟩
    · exact .inl ht
    · exact .inr (.inr (.inr ⟨e, hp, hr, ht⟩))
  case h_4 => cases h

/-! The frames: which elements a move of each command may change, as one equation per command. -/

/-- The end of a command changes the sequencer and the fault record only (45_job_control.md R154,
60_exceptions.md R163). -/
theorem endCommand_changes (e : Ending) (s : State) :
    ∃ code info, endCommand e s =
      { s with busy := false, done := true, phase := .idle, errcode := code, errinfo := info } := by
  cases e with
  | finish => exact ⟨_, _, rfl⟩
  | fault code info => exact ⟨_, _, rfl⟩

theorem countItem_changes (it : InItem 8) (s : State) :
    ∃ f b d p code info, countItem it s =
      { s with freq := f, busy := b, done := d, phase := p, errcode := code, errinfo := info } := by
  cases it with
  | data x =>
    unfold countItem
    dsimp only
    split
    · exact ⟨_, _, _, _, _, _, rfl⟩
    · exact ⟨_, _, _, _, _, _, rfl⟩
  | endItem => exact ⟨_, _, _, _, _, _, rfl⟩
  | errorItem => exact ⟨_, _, _, _, _, _, rfl⟩

theorem encodeItem_changes (it : InItem 8) (s : State) :
    ∃ x n p, encodeItem it s = { s with esym := x, ebit := n, phase := p } := by
  cases it with
  | data x =>
    unfold encodeItem
    dsimp only
    split
    · exact ⟨_, _, _, rfl⟩
    · exact ⟨_, _, _, rfl⟩
  | endItem => exact ⟨_, _, _, rfl⟩
  | errorItem => exact ⟨_, _, _, rfl⟩

theorem encodeAdvance_changes (s : State) : ∃ n p, encodeAdvance s = { s with ebit := n, phase := p } := by
  unfold encodeAdvance
  split
  · exact ⟨_, _, rfl⟩
  · exact ⟨_, _, rfl⟩

theorem decodeBit_changes {b : BitVec 1} {s t : State} (h : decodeBit b s = .next t) :
    ∃ c p, t = { s with cur := c, phase := p } := by
  unfold decodeBit at h
  repeat' split at h
  all_goals cases h
  all_goals exact ⟨_, _, rfl⟩

theorem decodeItem_changes {it : InItem 1} {s t : State} (h : decodeItem it s = .next t) :
    ∃ c p m, t = { s with cur := c, phase := p, midpath := m } := by
  cases it with
  | data b =>
    obtain ⟨c, p, rfl⟩ := decodeBit_changes h
    exact ⟨c, p, _, rfl⟩
  | endItem =>
    cases h
    exact ⟨_, _, _, rfl⟩
  | errorItem =>
    cases h
    exact ⟨_, _, _, rfl⟩

theorem execCount_changes {s t : State} (h : exec .count s = .next t) :
    t = { s with
      freq := t.freq, symIn := t.symIn, busy := t.busy, done := t.done, op := t.op, phase := t.phase,
      errcode := t.errcode, errinfo := t.errinfo } := by
  rcases streamMove_cases h with ⟨-, rfl⟩ | ⟨-, h⟩
  · rfl
  rcases countTransfer_cases h with ⟨-, -, rfl⟩ | ⟨it, rest, -, -, rfl⟩
  · rfl
  · obtain ⟨f, b, d, p, code, info, e⟩ := countItem_changes (readItem it) { s with symIn := rest }
    rw [e]

theorem execEncode_changes {s t : State} (h : exec .encode s = .next t) :
    t = { s with
      symIn := t.symIn, bitOut := t.bitOut, esym := t.esym, ebit := t.ebit, busy := t.busy, done := t.done,
      op := t.op, phase := t.phase, errcode := t.errcode, errinfo := t.errinfo } := by
  rcases streamMove_cases h with ⟨-, rfl⟩ | ⟨-, h⟩
  · rfl
  rcases encodeTransfer_cases h with rfl | ⟨it, rest, -, -, rfl⟩ | ⟨-, -, rfl⟩ | ⟨e, -, -, rfl⟩
  · rfl
  · obtain ⟨x, n, p, e⟩ := encodeItem_changes (readItem it) { s with symIn := rest }
    rw [e]
  · obtain ⟨n, p, e⟩ := encodeAdvance_changes { s with bitOut := s.bitOut ++ [.data (BitVec.ofBool s.codeBit)] }
    rw [e]
  · obtain ⟨code, info, e⟩ := endCommand_changes e { s with bitOut := s.bitOut ++ [.endItem] }
    rw [e]

theorem decodeStart_changes (s : State) :
    ∃ c p, decodeStart s = { s with midpath := false, cur := c, phase := p } := by
  unfold decodeStart
  split
  · exact ⟨_, _, rfl⟩
  · exact ⟨_, _, rfl⟩

theorem execDecode_changes {s t : State} (h : exec .decode s = .next t) :
    t = { s with
      bitIn := t.bitIn, symOut := t.symOut, cur := t.cur, midpath := t.midpath, busy := t.busy, done := t.done,
      op := t.op, phase := t.phase, errcode := t.errcode, errinfo := t.errinfo } := by
  rcases streamMove_cases h with ⟨-, rfl⟩ | ⟨-, h⟩
  · obtain ⟨c, p, e⟩ := decodeStart_changes (accept (opcodeOf .decode) s)
    rw [e]
    rfl
  rcases decodeTransfer_cases h with rfl | ⟨it, rest, -, -, h⟩ | ⟨v, -, -, rfl⟩ | ⟨e, -, -, rfl⟩
  · rfl
  · obtain ⟨c, p, m, rfl⟩ := decodeItem_changes h
    rfl
  · rfl
  · obtain ⟨code, info, e⟩ := endCommand_changes e { s with symOut := s.symOut ++ [.endItem] }
    rw [e]

/-- A move of an atomic command changes the sequencer, or is its effect in a state changed so
(45_job_control.md R153). -/
theorem atomicMove_changes {opc : BitVec 4} {effect : State → Outcome} {s t : State}
    (h : atomicMove opc effect s = .next t) :
    ∃ b d o, (∃ p, t = { s with busy := b, done := d, op := o, phase := p }) ∨
      effect { s with busy := b, done := d, op := o } = .next t := by
  rcases atomicMove_cases h with ⟨-, -, he⟩ | ⟨n, -, -, rfl⟩ | ⟨-, -, he⟩ | ⟨n, -, -, rfl⟩
  · exact ⟨true, false, opc, .inr he⟩
  · exact ⟨true, false, opc, .inl ⟨_, rfl⟩⟩
  · exact ⟨s.busy, s.done, s.op, .inr he⟩
  · exact ⟨s.busy, s.done, s.op, .inl ⟨_, rfl⟩⟩

theorem buildEffect_changes (s : State) :
    ∃ n a x v r l d code info, buildEffect s =
      { s with
        node := n, act := a, nextSlot := x, rootValid := v, rootIdx := r, nleaf := l, code := d, busy := false,
        done := true, phase := .idle, errcode := code, errinfo := info } := by
  rcases buildEffect_spec s with ⟨-, e⟩ | ⟨-, -, b, e⟩ | ⟨-, -, b, root, t, -, e, -⟩
  · exact ⟨_, _, _, _, _, _, _, _, _, e⟩
  · exact ⟨_, _, _, _, _, _, _, _, _, e⟩
  · exact ⟨_, _, _, _, _, _, _, _, _, e⟩

theorem execBuild_changes {s t : State} (h : exec .build s = .next t) :
    t = { s with
      node := t.node, act := t.act, nextSlot := t.nextSlot, rootValid := t.rootValid, rootIdx := t.rootIdx,
      nleaf := t.nleaf, code := t.code, busy := t.busy, done := t.done, op := t.op, phase := t.phase,
      errcode := t.errcode, errinfo := t.errinfo } := by
  rw [exec_build] at h
  obtain ⟨b, d, o, ⟨p, rfl⟩ | he⟩ := atomicMove_changes h
  · rfl
  · obtain ⟨n, a, x, v, r, l, c, code, info, e⟩ := buildEffect_changes { s with busy := b, done := d, op := o }
    obtain rfl := Host.Outcome.next.inj he
    rw [e]

theorem deriveEffect_changes {s t : State} (h : deriveEffect s = .next t) :
    ∃ c st, t = { s with code := c, stack := st, busy := false, done := true, phase := .idle } := by
  unfold deriveEffect at h
  repeat' split at h
  all_goals cases h
  all_goals exact ⟨_, _, rfl⟩

theorem execDerive_changes {s t : State} (h : exec .derive s = .next t) :
    t = { s with
      code := t.code, stack := t.stack, busy := t.busy, done := t.done, op := t.op, phase := t.phase } := by
  rw [exec_derive] at h
  obtain ⟨b, d, o, ⟨p, rfl⟩ | he⟩ := atomicMove_changes h
  · rfl
  · obtain ⟨c, st, rfl⟩ := deriveEffect_changes he
    rfl

/-! Which commands change a table or a flag. -/

/-- CLR apart, only BUILD changes the tree, BUILD and DERIVE the code table, COUNT the counts, DECODE MIDPATH, and no
command WIGN (10_state.md R12, R17, R19, R25, R26). -/
theorem exec_keeps {i : Instr} {s t : State} (h : exec i s = .next t) (hclr : i ≠ .clr) :
    (i ≠ .build → sameTree s t) ∧ (i ≠ .build → i ≠ .derive → t.code = s.code) ∧
      (i ≠ .count → t.freq = s.freq) ∧ (i ≠ .decode → t.midpath = s.midpath) ∧ t.wign = s.wign := by
  cases i with
  | clr => exact absurd rfl hclr
  | count =>
    rw [execCount_changes h]
    exact ⟨fun _ => ⟨rfl, rfl, rfl, rfl⟩, fun _ _ => rfl, fun e => absurd rfl e, fun _ => rfl, rfl⟩
  | build =>
    rw [execBuild_changes h]
    exact ⟨fun e => absurd rfl e, fun e => absurd rfl e, fun _ => rfl, fun _ => rfl, rfl⟩
  | derive =>
    rw [execDerive_changes h]
    exact ⟨fun _ => ⟨rfl, rfl, rfl, rfl⟩, fun _ e => absurd rfl e, fun _ => rfl, fun _ => rfl, rfl⟩
  | encode =>
    rw [execEncode_changes h]
    exact ⟨fun _ => ⟨rfl, rfl, rfl, rfl⟩, fun _ _ => rfl, fun _ => rfl, fun _ => rfl, rfl⟩
  | decode =>
    rw [execDecode_changes h]
    exact ⟨fun _ => ⟨rfl, rfl, rfl, rfl⟩, fun _ _ => rfl, fun _ => rfl, fun e => absurd rfl e, rfl⟩

/-- Settles O57: the step is one of the moves of `step_kind`; a command's move by its frame, every other move by
what it writes. -/
theorem tablesChangeOnlyByTheirCommands : Obligations.TablesChangeOnlyByTheirCommands := by
  intro s t h hreset hclr
  cases step_kind s with
  | runs i now _ is =>
    have other : ∀ {j}, ¬ nextRuns j s → i ≠ j := fun hj e => hj (e ▸ now)
    obtain ⟨hT, hC, hF, -, -⟩ := exec_keeps (is.symm.trans h) (other hclr)
    exact ⟨fun hb => hT (other hb), fun hb hd => hC (other hb) (other hd), fun hn _ => hF (other hn)⟩
  | lost _ _ is => cases is.symm.trans h
  | illegal w _ _ is =>
    cases is.symm.trans h
    exact ⟨fun _ => ⟨rfl, rfl, rfl, rfl⟩, fun _ _ => rfl, fun _ _ => rfl⟩
  | ignored a v _ is =>
    cases is.symm.trans h
    exact ⟨fun _ => ⟨rfl, rfl, rfl, rfl⟩, fun _ _ => rfl, fun _ _ => rfl⟩
  | freqWrite a v x now range is =>
    cases is.symm.trans h
    refine ⟨fun _ => ⟨rfl, rfl, rfl, rfl⟩, fun _ _ => rfl, fun _ ha => ?_⟩
    rcases ha a v now with hlo | hhi
    · exact absurd hlo (BitVec.not_lt.mpr range.1)
    · exact absurd range.2 (BitVec.not_lt.mpr hhi)
  | reset now _ => exact absurd now hreset
  | outside u is only =>
    cases is.symm.trans h
    rw [only.same]
    exact ⟨fun _ => ⟨rfl, rfl, rfl, rfl⟩, fun _ _ => rfl, fun _ _ => rfl⟩

/-- Settles O58: the same case split on `step_kind`. -/
theorem flagsChangeOnlyAsListed : Obligations.FlagsChangeOnlyAsListed := by
  intro s t h hreset hclr
  have keptWign : t.wign = s.wign → (s.wign = true → t.wign = true) ∧
      (s.wign = false → t.wign = true → ∃ a v, nextWrites a v s) := by
    intro e
    rw [e]
    exact ⟨id, fun h0 h1 => absurd (h0.symm.trans h1) Bool.false_ne_true⟩
  cases step_kind s with
  | runs i now _ is =>
    obtain ⟨-, -, -, hM, hW⟩ := exec_keeps (is.symm.trans h) fun e => hclr (e ▸ now)
    exact ⟨fun hd => hM fun e => hd (e ▸ now), keptWign hW⟩
  | lost _ _ is => cases is.symm.trans h
  | illegal w _ _ is =>
    cases is.symm.trans h
    exact ⟨fun _ => rfl, keptWign rfl⟩
  | ignored a v now is =>
    cases is.symm.trans h
    exact ⟨fun _ => rfl, fun _ => rfl, fun _ _ => ⟨a, v, now⟩⟩
  | freqWrite a v x _ _ is =>
    cases is.symm.trans h
    exact ⟨fun _ => rfl, keptWign rfl⟩
  | reset now _ => exact absurd now hreset
  | outside u is only =>
    cases is.symm.trans h
    rw [only.same] at keptWign ⊢
    exact ⟨fun _ => rfl, keptWign rfl⟩

/-! The invariant over one move of each command. -/

/-- The part of the invariant about the fault record (10_state.md R24, 60_exceptions.md R160). -/
structure RecordOk (s : State) : Prop where
  errcodeLe : s.errcode.toNat ≤ 5
  errinfoZero : s.errcode = 0 → s.errinfo = 0

theorem Inv.record {s : State} (h : Inv s) : RecordOk s := ⟨h.errcodeLe, h.errinfoZero⟩

/-- Command `i` may move: its word is accepted, or it is the running command (45_job_control.md R151, R153). -/
def MayRun (i : Instr) (s : State) : Prop :=
  (s.busy = false ∧ (s.errcode = 0 ∨ i = .clr)) ∨ (s.busy = true ∧ s.op = opcodeOf i)

/-- A running state in one of its command's positions, with a sound fault record and sound tables, has the
invariant. -/
theorem Inv.runningState {s : State} (hb : s.busy = true) (hd : s.done = false)
    (hf : s.errcode = 0 ∨ s.op = opcodeOf .clr) (hp : PositionOk s) (hr : RecordOk s) (ht : TablesOk s) : Inv s where
  idle h := absurd (h.symm.trans hb) Bool.false_ne_true
  notDone _ := hd
  noFaultRuns _ := hf
  position _ := hp
  errcodeLe := hr.errcodeLe
  errinfoZero := hr.errinfoZero
  noTree := ht.noTree
  store := ht.store
  tree := ht.tree
  codeLen := ht.codeLen
  codeTable := ht.codeTable

/-- The acceptance of a command keeps the invariant when it leads to one of the command's positions. -/
theorem Inv.accepted {i : Instr} {s : State} {f : Vector Word Config.nsym} {c : Idx} {m : Bool} {p : Phase}
    (h : Inv s) (hf : s.errcode = 0 ∨ i = .clr)
    (hp : ({ s with
      busy := true, done := false, op := opcodeOf i, freq := f, cur := c, midpath := m, phase := p } : State).op =
        opcodeOf i → PositionOk { s with
      busy := true, done := false, op := opcodeOf i, freq := f, cur := c, midpath := m, phase := p }) :
    Inv { s with busy := true, done := false, op := opcodeOf i, freq := f, cur := c, midpath := m, phase := p } :=
  .runningState rfl rfl (hf.imp_right (congrArg opcodeOf)) (hp rfl) ⟨h.errcodeLe, h.errinfoZero⟩
    (h.tables.congr ⟨rfl, rfl, rfl, rfl⟩ rfl)

/-- A move inside a running command keeps the invariant when it leads to one of the command's positions. -/
theorem Inv.moved {i : Instr} {s : State} {c : Idx} {m : Bool} {x : Sym} {n : BitVec 8} {p : Phase}
    (h : Inv s) (hb : s.busy = true) (ho : s.op = opcodeOf i)
    (hp : ({ s with cur := c, midpath := m, esym := x, ebit := n, phase := p } : State).op = opcodeOf i →
      PositionOk { s with cur := c, midpath := m, esym := x, ebit := n, phase := p }) :
    Inv { s with cur := c, midpath := m, esym := x, ebit := n, phase := p } :=
  .runningState hb (h.notDone hb) (h.noFaultRuns hb) (hp ho) ⟨h.errcodeLe, h.errinfoZero⟩
    (h.tables.congr ⟨rfl, rfl, rfl, rfl⟩ rfl)

theorem finish_inv {s : State} (hr : RecordOk s) (ht : TablesOk s) : Inv (finish s) :=
  .idleState rfl rfl hr.errcodeLe hr.errinfoZero (ht.congr ⟨rfl, rfl, rfl, rfl⟩ rfl)

theorem raiseFault_inv {s : State} {code : BitVec 4} {info : Word} (hne : code ≠ 0) (hle : code.toNat ≤ 5)
    (ht : TablesOk s) : Inv (raiseFault code info s) :=
  .idleState rfl rfl hle (fun h => absurd h hne) (ht.congr ⟨rfl, rfl, rfl, rfl⟩ rfl)

theorem endCommand_inv {i : Instr} {e : Ending} {s : State} (he : EndingOk i e) (hr : RecordOk s)
    (ht : TablesOk s) : Inv (endCommand e s) := by
  cases e with
  | finish => exact finish_inv hr ht
  | fault code info =>
    rcases he with rfl | ⟨-, rfl⟩
    · exact raiseFault_inv (by decide) (by decide) ht
    · exact raiseFault_inv (by decide) (by decide) ht

/-! The positions of each command. -/

theorem positionOk_atomic {i : Instr} {s : State} (hi : i = .clr ∨ i = .build ∨ i = .derive)
    (ho : s.op = opcodeOf i) : PositionOk s ↔ ∃ n, s.phase = .working n := by
  unfold PositionOk
  rw [ho, instrOfOpcode_opcodeOf]
  rcases hi with rfl | rfl | rfl <;> cases s.phase <;> simp

theorem positionOk_count {s : State} (ho : s.op = opcodeOf .count) : PositionOk s ↔ s.phase = .take := by
  unfold PositionOk
  rw [ho, instrOfOpcode_opcodeOf]
  cases s.phase <;> simp

theorem positionOk_encode {s : State} (ho : s.op = opcodeOf .encode) :
    PositionOk s ↔ s.phase = .take ∨ (s.phase = .emitBit ∧ s.ebit.toNat < (symEntry s.code s.esym).length) ∨
      ∃ e, s.phase = .close e ∧ EndingOk .encode e := by
  unfold PositionOk
  rw [ho, instrOfOpcode_opcodeOf]
  cases s.phase <;> simp

/-- The cursor of a DECODE between two symbols or inside a path: on the root or on an internal slot
(44_decoder.md R142, R143). -/
def CursorOk (s : State) : Prop :=
  s.cur = s.rootIdx ∨ (256 ≤ s.cur.toNat ∧ s.cur.toNat ≤ s.rootIdx.toNat)

theorem positionOk_decode {s : State} (ho : s.op = opcodeOf .decode) :
    PositionOk s ↔ (s.phase = .take ∧ s.rootValid = true ∧ CursorOk s) ∨
      ((∃ v, s.phase = .emitSym v) ∧ s.rootValid = true) ∨ ∃ e, s.phase = .close e ∧ EndingOk .decode e := by
  unfold PositionOk
  rw [ho, instrOfOpcode_opcodeOf]
  cases s.phase <;> simp [CursorOk]

/-! CLR, BUILD and DERIVE. -/

/-- An atomic command keeps the invariant when its effect gives it from sound tables and a sound record. -/
theorem atomicMove_keepsInv {i : Instr} {effect : State → Outcome} {s : State}
    (hi : i = .clr ∨ i = .build ∨ i = .derive) (h : Inv s) (hr : MayRun i s)
    (heff : ∀ u, RecordOk u → TablesOk u → ∃ t, effect u = .next t ∧ Inv t) :
    ∃ t, atomicMove (opcodeOf i) effect s = .next t ∧ Inv t := by
  rcases hr with ⟨hb, hf⟩ | ⟨hb, ho⟩
  · cases hp : s.busyPeriod with
    | zero =>
      rw [atomicMove_accept hb hp]
      exact heff _ ⟨h.errcodeLe, h.errinfoZero⟩ (h.tables.congr ⟨rfl, rfl, rfl, rfl⟩ rfl)
    | succ n =>
      refine ⟨_, atomicMove_acceptWorking hb hp, ?_⟩
      exact h.accepted hf fun ho => (positionOk_atomic hi ho).mpr ⟨n, rfl⟩
  · obtain ⟨n, hp⟩ := (positionOk_atomic hi ho).mp (h.position hb)
    cases n with
    | zero =>
      rw [atomicMove_due hb hp]
      exact heff _ h.record h.tables
    | succ n =>
      refine ⟨_, atomicMove_working hb hp, ?_⟩
      exact h.moved hb ho fun ho => (positionOk_atomic hi ho).mpr ⟨n, rfl⟩

theorem clrEffect_inv (s : State) : Inv (clrEffect s) :=
  .idleState rfl rfl (Nat.zero_le 5) (fun _ => rfl) (clrEffect_tables s)

/-- BUILD's effect ends the command, with E_WGTOVF or the fault record as it was. -/
theorem buildEffect_ends (s : State) :
    (buildEffect s).busy = false ∧ (buildEffect s).done = true ∧ (buildEffect s).phase = .idle ∧
      (buildEffect s).op = s.op ∧
      ((buildEffect s).errcode = eWgtOvf ∨ sameRecord s (buildEffect s)) := by
  rcases buildEffect_spec s with ⟨-, e⟩ | ⟨-, -, b, e⟩ | ⟨-, -, b, root, t, -, e, -⟩
  · rw [e]; exact ⟨rfl, rfl, rfl, rfl, .inl rfl⟩
  · rw [e]; exact ⟨rfl, rfl, rfl, rfl, .inr ⟨rfl, rfl⟩⟩
  · rw [e]; exact ⟨rfl, rfl, rfl, rfl, .inr ⟨rfl, rfl⟩⟩

theorem buildEffect_inv {s : State} (hr : RecordOk s) : Inv (buildEffect s) := by
  obtain ⟨hb, -, hp, -, he⟩ := buildEffect_ends s
  rcases he with he | ⟨he, hi⟩
  · refine .idleState hb hp (by rw [he]; decide) (fun h0 => ?_) (buildEffect_tables s)
    exact absurd (he.symm.trans h0) (by decide)
  · refine .idleState hb hp ?_ ?_ (buildEffect_tables s)
    · rw [he]; exact hr.errcodeLe
    · rw [he, hi]; exact hr.errinfoZero

theorem deriveEffect_inv {s : State} (hr : RecordOk s) (ht : TablesOk s) :
    ∃ t, deriveEffect s = .next t ∧ Inv t := by
  obtain ⟨c, e, -⟩ := deriveEffect_spec ht
  exact ⟨_, e, .idleState rfl rfl hr.errcodeLe hr.errinfoZero (deriveEffect_tables ht e)⟩

/-! COUNT. -/

theorem countItem_inv (it : InItem 8) {s : State} (h : Inv s) : Inv (countItem it s) := by
  cases it with
  | data x =>
    unfold countItem
    dsimp only
    split
    · exact raiseFault_inv (by decide) (by decide) h.tables
    · exact h.congr ⟨rfl, rfl, rfl, rfl⟩ rfl ⟨rfl, rfl⟩ rfl rfl rfl rfl rfl ⟨rfl, rfl⟩
  | endItem => exact finish_inv h.record h.tables
  | errorItem => exact raiseFault_inv (by decide) (by decide) h.tables

/-- The invariant does not speak of the items a source offers. -/
theorem Inv.withSymIn {s : State} (h : Inv s) (l : List (RawItem 8)) : Inv { s with symIn := l } :=
  h.congr ⟨rfl, rfl, rfl, rfl⟩ rfl ⟨rfl, rfl⟩ rfl rfl rfl rfl rfl ⟨rfl, rfl⟩

theorem Inv.withBitIn {s : State} (h : Inv s) (l : List (RawItem 1)) : Inv { s with bitIn := l } :=
  h.congr ⟨rfl, rfl, rfl, rfl⟩ rfl ⟨rfl, rfl⟩ rfl rfl rfl rfl rfl ⟨rfl, rfl⟩

theorem Inv.withBitOut {s : State} (h : Inv s) (l : List (OutItem 1)) : Inv { s with bitOut := l } :=
  h.congr ⟨rfl, rfl, rfl, rfl⟩ rfl ⟨rfl, rfl⟩ rfl rfl rfl rfl rfl ⟨rfl, rfl⟩

theorem Inv.withSymOut {s : State} (h : Inv s) (l : List (OutItem 8)) : Inv { s with symOut := l } :=
  h.congr ⟨rfl, rfl, rfl, rfl⟩ rfl ⟨rfl, rfl⟩ rfl rfl rfl rfl rfl ⟨rfl, rfl⟩

theorem takeSym_keepsInv {s : State} {k : InItem 8 → State → Outcome} (h : Inv s)
    (hk : ∀ it rest, ∃ t, k it { s with symIn := rest } = .next t ∧ Inv t) :
    ∃ t, takeSym s k = .next t ∧ Inv t := by
  cases hs : s.symIn with
  | nil => exact ⟨s, takeSym_nil hs, h⟩
  | cons it rest =>
    rw [takeSym_cons hs]
    exact hk _ _

theorem takeBit_keepsInv {s : State} {k : InItem 1 → State → Outcome} (h : Inv s)
    (hk : ∀ it rest, ∃ t, k it { s with bitIn := rest } = .next t ∧ Inv t) :
    ∃ t, takeBit s k = .next t ∧ Inv t := by
  cases hs : s.bitIn with
  | nil => exact ⟨s, takeBit_nil hs, h⟩
  | cons it rest =>
    rw [takeBit_cons hs]
    exact hk _ _

theorem putBit_keepsInv {s : State} {item : OutItem 1} {k : State → State} (h : Inv s)
    (hk : Inv (k { s with bitOut := s.bitOut ++ [item] })) : ∃ t, putBit item s k = .next t ∧ Inv t := by
  rcases Bool.eq_false_or_eq_true s.boReady with hr | hr
  · exact ⟨_, putBit_taken hr, hk⟩
  · exact ⟨s, putBit_waits hr, h⟩

theorem putSym_keepsInv {s : State} {item : OutItem 8} {k : State → State} (h : Inv s)
    (hk : Inv (k { s with symOut := s.symOut ++ [item] })) : ∃ t, putSym item s k = .next t ∧ Inv t := by
  rcases Bool.eq_false_or_eq_true s.soReady with hr | hr
  · exact ⟨_, putSym_taken hr, hk⟩
  · exact ⟨s, putSym_waits hr, h⟩

theorem execCount_keepsInv {s : State} (h : Inv s) (hr : MayRun .count s) :
    ∃ t, exec .count s = .next t ∧ Inv t := by
  rw [exec_count]
  rcases hr with ⟨hb, hf⟩ | ⟨hb, ho⟩
  · refine ⟨_, streamMove_accept hb, ?_⟩
    exact h.accepted hf fun ho => (positionOk_count ho).mpr rfl
  · have hp := (positionOk_count ho).mp (h.position hb)
    rw [streamMove_running hb, countTransfer, hp]
    exact takeSym_keepsInv h fun it rest => ⟨_, rfl, countItem_inv it (h.withSymIn rest)⟩

/-! ENCODE. -/

theorem encodeItem_inv (it : InItem 8) {s : State} (h : Inv s) (hb : s.busy = true)
    (ho : s.op = opcodeOf .encode) : Inv (encodeItem it s) := by
  have closing : ∀ e, EndingOk .encode e → Inv { s with phase := .close e } := fun e he =>
    h.moved hb ho fun ho =>
      (positionOk_encode ho).mpr (.inr (.inr ⟨e, rfl, he⟩))
  cases it with
  | data x =>
    unfold encodeItem
    dsimp only
    split
    case isTrue => exact closing _ (.inr ⟨rfl, rfl⟩)
    case isFalse hne =>
      refine h.moved hb ho fun ho =>
        (positionOk_encode ho).mpr (.inr (.inl ⟨rfl, ?_⟩))
      exact List.length_pos_iff.mpr hne
  | endItem => exact closing _ trivial
  | errorItem => exact closing _ (.inl rfl)

theorem encodeAdvance_inv {s : State} (h : Inv s) (hb : s.busy = true) (ho : s.op = opcodeOf .encode)
    (hp : s.phase = .emitBit) : Inv (encodeAdvance s) := by
  unfold encodeAdvance
  split
  case isTrue hlt =>
    refine h.moved hb ho fun ho =>
      (positionOk_encode ho).mpr (.inr (.inl ⟨hp, ?_⟩))
    have hlen := h.codeLen s.esym
    have hone : (s.ebit + 1).toNat = s.ebit.toNat + 1 := by
      have : s.ebit.toNat + 1 < 256 := by unfold Config.lenMax at hlen; omega
      bv_omega
    rw [← hone] at hlt
    exact hlt
  case isFalse =>
    exact h.moved hb ho fun ho => (positionOk_encode ho).mpr (.inl rfl)

theorem execEncode_keepsInv {s : State} (h : Inv s) (hr : MayRun .encode s) :
    ∃ t, exec .encode s = .next t ∧ Inv t := by
  rw [exec_encode]
  rcases hr with ⟨hb, hf⟩ | ⟨hb, ho⟩
  · refine ⟨_, streamMove_accept hb, ?_⟩
    exact h.accepted hf fun ho => (positionOk_encode ho).mpr (.inl rfl)
  · rw [streamMove_running hb, encodeTransfer]
    rcases (positionOk_encode ho).mp (h.position hb) with hp | ⟨hp, -⟩ | ⟨e, hp, he⟩ <;> rw [hp]
    · exact takeSym_keepsInv h fun it rest => ⟨_, rfl, encodeItem_inv it (h.withSymIn rest) hb ho⟩
    · exact putBit_keepsInv h (encodeAdvance_inv (h.withBitOut _) hb ho hp)
    · exact putBit_keepsInv h (endCommand_inv he (h.withBitOut _).record (h.withBitOut _).tables)

/-! DECODE. -/

theorem childOf_eq (n : Slot) (b : BitVec 1) : childOf n b = n.l ∨ childOf n b = n.r := by
  unfold childOf
  split
  · exact .inr rfl
  · exact .inl rfl

/-- The children of a live leaf are null (10_state.md R15). -/
theorem LeafOk.child {node : Vector Slot Config.nnode} {i : Idx} (h : LeafOk node i) :
    ∃ n, slotAt node i = some n ∧ n.leaf = true ∧ ∀ b, childOf n b = Config.nil := by
  obtain ⟨n, hn, hleaf, -, hl, hr, -⟩ := h
  refine ⟨n, hn, hleaf, fun b => ?_⟩
  rcases childOf_eq n b with e | e
  · rw [e, hl]
  · rw [e, hr]

/-- The children of a live internal slot are slots of smaller index (10_state.md R16). -/
theorem InternalOk.child {node : Vector Slot Config.nnode} {i : Idx} (h : InternalOk node i) :
    ∃ n, slotAt node i = some n ∧ n.leaf = false ∧ ∀ b, (childOf n b).toNat < i.toNat ∧
      ChildOk node (childOf n b) ∧ ∃ m, slotAt node (childOf n b) = some m := by
  obtain ⟨n, a, c, hn, hleaf, -, hl, hr, -, cl, cr, ha, hc, -⟩ := h
  refine ⟨n, hn, hleaf, fun b => ?_⟩
  rcases childOf_eq n b with e | e
  · rw [e]; exact ⟨hl, cl, a, ha⟩
  · rw [e]; exact ⟨hr, cr, c, hc⟩

/-- On a sound tree a bit leads to a symbol to emit, or to an internal slot below the root (44_decoder.md R143). -/
theorem decodeBit_answers (b : BitVec 1) {s : State} (hs : StoreOk s.node s.rootIdx) (hc : CursorOk s) :
    ∃ c, (∃ v, decodeBit b s = .next { s with cur := c, phase := .emitSym v }) ∨
      (decodeBit b s = .next { s with cur := c } ∧ 256 ≤ c.toNat ∧ c.toNat ≤ s.rootIdx.toNat) := by
  obtain ⟨hroot, hchild, hinner⟩ := hs
  have hle : s.cur.toNat ≤ s.rootIdx.toNat := by
    rcases hc with e | ⟨-, h⟩
    · rw [e]
    · exact h
  by_cases hlo : s.cur.toNat < 256
  · have e : s.cur = s.rootIdx := hc.resolve_right fun h => by omega
    obtain ⟨n, hn, -, hnil⟩ := (hchild (e ▸ hlo)).child
    exact ⟨Config.nil, .inl ⟨n.sym, by simp [decodeBit, e, hn, hnil]⟩⟩
  · obtain ⟨n, hn, -, hch⟩ := (hinner s.cur (by omega) hle).child
    obtain ⟨hlt, hcok, m, hm⟩ := hch b
    have hne : childOf n b ≠ Config.nil := by
      intro e
      have : Config.nil.toNat = 511 := rfl
      rw [e] at hlt
      omega
    refine ⟨childOf n b, ?_⟩
    cases hleaf : m.leaf with
    | true => exact .inl ⟨m.sym, by simp [decodeBit, hn, hne, hm, hleaf]⟩
    | false =>
      refine .inr ⟨by simp [decodeBit, hn, hne, hm, hleaf], ?_, by omega⟩
      by_contra hlt'
      obtain ⟨m', hm', hleaf', -⟩ := hcok (by omega)
      rw [hm] at hm'
      cases hm'
      exact Bool.false_ne_true (hleaf.symm.trans hleaf')

theorem decodeItem_inv (it : InItem 1) {s : State} (h : Inv s) (hb : s.busy = true) (ho : s.op = opcodeOf .decode)
    (hp : s.phase = .take) (hv : s.rootValid = true) (hc : CursorOk s) :
    ∃ t, decodeItem it s = .next t ∧ Inv t := by
  cases it with
  | data b =>
    obtain ⟨c, ⟨v, e⟩ | ⟨e, hlo, hhi⟩⟩ := decodeBit_answers b (h.store hv) hc
    · exact ⟨_, e, h.moved hb ho fun ho =>
        (positionOk_decode ho).mpr (.inr (.inl ⟨⟨v, rfl⟩, hv⟩))⟩
    · exact ⟨_, e, h.moved hb ho fun ho =>
        (positionOk_decode ho).mpr (.inl ⟨hp, hv, .inr ⟨hlo, hhi⟩⟩)⟩
  | endItem =>
    exact ⟨_, rfl, h.moved hb ho fun ho =>
      (positionOk_decode ho).mpr (.inr (.inr ⟨.finish, rfl, trivial⟩))⟩
  | errorItem =>
    exact ⟨_, rfl, h.moved hb ho fun ho =>
      (positionOk_decode ho).mpr (.inr (.inr ⟨_, rfl, .inl rfl⟩))⟩

theorem decodeStart_inv {s : State} (h : Inv s) (hf : s.errcode = 0) :
    Inv (decodeStart (accept (opcodeOf .decode) s)) := by
  unfold decodeStart
  split
  case isTrue hv =>
    exact h.accepted (.inl hf) fun ho =>
      (positionOk_decode ho).mpr (.inl ⟨rfl, hv, .inl rfl⟩)
  case isFalse =>
    exact h.accepted (.inl hf) fun ho =>
      (positionOk_decode ho).mpr (.inr (.inr ⟨.finish, rfl, trivial⟩))

theorem execDecode_keepsInv {s : State} (h : Inv s) (hr : MayRun .decode s) :
    ∃ t, exec .decode s = .next t ∧ Inv t := by
  rw [exec_decode]
  rcases hr with ⟨hb, hf⟩ | ⟨hb, ho⟩
  · exact ⟨_, streamMove_accept hb, decodeStart_inv h (hf.resolve_right (by decide))⟩
  · rw [streamMove_running hb, decodeTransfer]
    rcases (positionOk_decode ho).mp (h.position hb) with ⟨hp, hv, hc⟩ | ⟨⟨v, hp⟩, hv⟩ | ⟨e, hp, he⟩ <;> rw [hp]
    · exact takeBit_keepsInv h fun it rest => decodeItem_inv it (h.withBitIn rest) hb ho hp hv hc
    · exact putSym_keepsInv h ((h.withSymOut _).moved hb ho fun ho =>
        (positionOk_decode ho).mpr (.inl ⟨rfl, hv, .inl rfl⟩))
    · exact putSym_keepsInv h (endCommand_inv he (h.withSymOut _).record (h.withSymOut _).tables)

/-! Every command, every step. -/

theorem exec_keepsInv {i : Instr} {s : State} (h : Inv s) (hr : MayRun i s) :
    ∃ t, exec i s = .next t ∧ Inv t := by
  cases i with
  | clr => exact atomicMove_keepsInv (.inl rfl) h hr fun u _ _ => ⟨_, rfl, clrEffect_inv u⟩
  | count => exact execCount_keepsInv h hr
  | build => exact atomicMove_keepsInv (.inr (.inl rfl)) h hr fun u hR _ => ⟨_, rfl, buildEffect_inv hR⟩
  | derive => exact atomicMove_keepsInv (.inr (.inr rfl)) h hr fun u hR hT => deriveEffect_inv hR hT
  | encode => exact execEncode_keepsInv h hr
  | decode => exact execDecode_keepsInv h hr

/-- The reset values are the empty job with no command running, whatever the state was before (10_state.md R34). -/
theorem resetCore_inv (s : State) : Inv (resetCore s) :=
  .idleState rfl rfl (Nat.zero_le 5) (fun _ => rfl) (.empty rfl rfl rfl rfl)

theorem nextRuns.mayRun {i : Instr} {s : State} (now : nextRuns i s)
    (allowed : s.busy = true ∨ s.errcode = 0 ∨ i = .clr) : MayRun i s := by
  rcases now with ⟨hb, -⟩ | ⟨hb, ho, -⟩
  · exact .inl ⟨hb, allowed.resolve_left (by simp [hb])⟩
  · exact .inr ⟨hb, ho⟩

/-- A running command of a state with the invariant is one of the six. -/
theorem PositionOk.op_known {s : State} (h : PositionOk s) : instrOfOpcode s.op ≠ none := by
  intro e
  unfold PositionOk at h
  rw [e] at h
  exact h

/-- Settles O56: by the kind of the step; a command's move by `exec_keepsInv`, every other move writes nothing the
invariant speaks of, records a fault with the machine idle, or resets. -/
theorem everyStepKeepsInv : Obligations.EveryStepKeepsInv := by
  intro s h
  have hpop : Inv s.popped := h.congr ⟨rfl, rfl, rfl, rfl⟩ rfl ⟨rfl, rfl⟩ rfl rfl rfl rfl rfl ⟨rfl, rfl⟩
  cases step_kind s with
  | runs i now allowed is =>
    rw [is]
    exact exec_keepsInv hpop (nextRuns.mayRun (s := s) now allowed)
  | lost hb hop _ => exact absurd hop (h.position hb).op_known
  | illegal w _ _ is =>
    exact ⟨_, is, raiseFault_inv (by decide) (by decide) (hpop.tables.congr ⟨rfl, rfl, rfl, rfl⟩ rfl)⟩
  | ignored a v _ is =>
    exact ⟨_, is, hpop.congr ⟨rfl, rfl, rfl, rfl⟩ rfl ⟨rfl, rfl⟩ rfl rfl rfl rfl rfl ⟨rfl, rfl⟩⟩
  | freqWrite a v x _ _ is =>
    exact ⟨_, is, hpop.congr ⟨rfl, rfl, rfl, rfl⟩ rfl ⟨rfl, rfl⟩ rfl rfl rfl rfl rfl ⟨rfl, rfl⟩⟩
  | reset _ is => exact ⟨_, is, resetCore_inv _⟩
  | outside t is only =>
    refine ⟨t, is, ?_⟩
    rw [only.same]
    exact hpop.congr ⟨rfl, rfl, rfl, rfl⟩ rfl ⟨rfl, rfl⟩ rfl rfl rfl rfl rfl ⟨rfl, rfl⟩

/-- Settles O55: reset is an idle state with no fault recorded and the empty tables. -/
theorem invAtReset : Obligations.InvAtReset :=
  resetCore_inv State.reset

/-! BUILD: what is live in the tree it leaves. -/

/-- When its effect is due, an atomic command's move is the effect, in the state with the command running
(45_job_control.md R153). -/
theorem atomicMove_effectDue {i : Instr} {effect : State → Outcome} {s : State} (h : effectDue i s) :
    ∃ b d, atomicMove (opcodeOf i) effect s = effect { s with busy := b, done := d, op := opcodeOf i } := by
  rcases h with ⟨hb, hp⟩ | ⟨hb, ho, hp⟩
  · exact ⟨true, false, atomicMove_accept hb hp⟩
  · exact ⟨s.busy, s.done, by rw [atomicMove_due hb hp, ← ho]⟩

theorem reaches_of_slot {node : Vector Slot Config.nnode} {f : Nat} {i j : Idx} {n : Slot}
    (hn : slotAt node i = some n) : reaches node (f + 1) i j = true ↔
      i = j ∨ (n.leaf = false ∧ (reaches node f n.l j = true ∨ reaches node f n.r j = true)) := by
  rw [reaches_succ]
  simp [hn]

/-- The tree below a slot is the leaf it holds, or joins the trees below its two children (10_state.md R18). -/
theorem treeAt_cases {node : Vector Slot Config.nnode} {f : Nat} {i : Idx} {t : Tree}
    (h : treeAt node (f + 1) i = some t) : ∃ n, slotAt node i = some n ∧
      ((n.leaf = true ∧ t = .leaf n.w.toNat n.sym) ∨ (n.leaf = false ∧ ∃ a b, treeAt node f n.l = some a ∧
        treeAt node f n.r = some b ∧ t = .node n.w.toNat a b)) := by
  rw [treeAt] at h
  split at h
  case h_1 => cases h
  case h_2 n hn =>
    refine ⟨n, hn, ?_⟩
    split at h
    case isTrue hl => exact .inl ⟨hl, (Option.some.inj h).symm⟩
    case isFalse hl =>
      split at h
      case h_1 a b ha hb =>
        exact .inr ⟨Bool.eq_false_iff.mpr hl, a, b, ha, hb, (Option.some.inj h).symm⟩
      case h_2 => cases h

/-- With a slot its children are reached, with one more level of fuel. -/
theorem reaches_child {node : Vector Slot Config.nnode} {f : Nat} {i j : Idx} {n : Slot}
    (h : reaches node f i j = true) (hn : slotAt node j = some n) (hleaf : n.leaf = false) (b : BitVec 1)
    (hc : ∃ m, slotAt node (childOf n b) = some m) : reaches node (f + 1) i (childOf n b) = true := by
  obtain ⟨m, hm⟩ := hc
  induction f generalizing i with
  | zero => cases h
  | succ f ih =>
    obtain ⟨n', hn', rfl | ⟨hl, h | h⟩⟩ := reaches_succ.mp h
    · have hself : reaches node (f + 1) (childOf n b) (childOf n b) = true := reaches_succ.mpr ⟨m, hm, .inl rfl⟩
      refine reaches_succ.mpr ⟨n, hn, .inr ⟨hleaf, ?_⟩⟩
      rcases childOf_eq n b with e | e
      · rw [e] at hself ⊢; exact .inl hself
      · rw [e] at hself ⊢; exact .inr hself
    · exact reaches_succ.mpr ⟨n', hn', .inr ⟨hl, .inl (ih h)⟩⟩
    · exact reaches_succ.mpr ⟨n', hn', .inr ⟨hl, .inr (ih h)⟩⟩

/-- From the root of a sound tree only slots up to the root are reached, and leaf slots among them are live leaves
(10_state.md R15, R16). -/
theorem reaches_le {node : Vector Slot Config.nnode} {f : Nat} {root i j : Idx} (hs : StoreOk node root)
    (hi : ChildOk node i) (hle : i.toNat ≤ root.toNat) (h : reaches node f i j = true) :
    ChildOk node j ∧ j.toNat ≤ root.toNat := by
  induction f generalizing i with
  | zero => cases h
  | succ f ih =>
    obtain ⟨n, hn, rfl | ⟨hleaf, h⟩⟩ := reaches_succ.mp h
    · exact ⟨hi, hle⟩
    have hge : 256 ≤ i.toNat := by
      by_contra hlt
      obtain ⟨n', hn', hleaf', -⟩ := hi (by omega)
      cases hn.symm.trans hn'
      exact Bool.false_ne_true (hleaf.symm.trans hleaf')
    obtain ⟨n', a, b, hn', -, -, hl, hr, -, cl, cr, -⟩ := hs.2.2 i hge hle
    cases hn.symm.trans hn'
    rcases h with h | h
    · exact ih cl (by omega) h
    · exact ih cr (by omega) h

/-- The leaves of the tree below a slot are the leaf slots reached from it. -/
theorem mem_leaves_iff {node : Vector Slot Config.nnode} {f : Nat} {i : Idx} {t : Tree}
    (h : treeAt node f i = some t) {x : Sym} {w : Nat} :
    (x, w) ∈ t.leaves ↔ ∃ j n, reaches node f i j = true ∧ slotAt node j = some n ∧ n.leaf = true ∧
      n.sym = x ∧ n.w.toNat = w := by
  induction f generalizing i t with
  | zero => cases h
  | succ f ih =>
    obtain ⟨n, hn, ⟨hl, rfl⟩ | ⟨hl, a, b, ha, hb, rfl⟩⟩ := treeAt_cases h
    · simp only [reaches_of_slot hn, hl, Bool.true_eq_false, false_and, or_false, Tree.leaves, List.mem_singleton,
        Prod.mk.injEq]
      constructor
      · rintro ⟨rfl, rfl⟩
        exact ⟨i, n, rfl, hn, hl, rfl, rfl⟩
      · rintro ⟨j, m, rfl, hm, -, rfl, rfl⟩
        cases hn.symm.trans hm
        exact ⟨rfl, rfl⟩
    · simp only [reaches_of_slot hn, hl, true_and, Tree.leaves, List.mem_append, ih ha, ih hb]
      constructor
      · rintro (⟨j, m, hr, hm⟩ | ⟨j, m, hr, hm⟩)
        · exact ⟨j, m, .inr (.inl hr), hm⟩
        · exact ⟨j, m, .inr (.inr hr), hm⟩
      · rintro ⟨j, m, rfl | hr | hr, hm, hleaf, hx⟩
        · cases hn.symm.trans hm
          exact absurd (hl.symm.trans hleaf) Bool.false_ne_true
        · exact .inl ⟨j, m, hr, hm, hleaf, hx⟩
        · exact .inr ⟨j, m, hr, hm, hleaf, hx⟩

/-- Every internal slot made so far is in the collection or a child of a later one (41_tree_builder.md R104). -/
def Covered (b : Store) : Prop :=
  ∀ i : Idx, 256 ≤ i.toNat → i.toNat < b.next.toNat → b.has i = true ∨
    ∃ (j : Idx) (n : Slot) (c : BitVec 1), i.toNat < j.toNat ∧ j.toNat < b.next.toNat ∧
      slotAt b.node j = some n ∧ childOf n c = i

theorem Forest.has_lt_next {b : Store} {F : List (Idx × Tree)} {L : List (Sym × Nat)} (h : Forest b F L) {i : Idx}
    (hi : b.has i = true) : i.toNat < b.next.toNat := by
  obtain ⟨e, he, rfl⟩ := List.mem_map.mp ((h.members i).mp hi)
  exact (h.below e he).1

/-- Members, slots and NEXT after one merge (41_tree_builder.md R104). -/
theorem merge_effect {b b' : Store} (hm : b.merge = some b') (hnext : b.next.toNat < 511) :
    ∃ m₁ m₂, b.isLeast m₁ ∧ (b.remove m₁).isLeast m₂ ∧ b'.next.toNat = b.next.toNat + 1 ∧
      (∀ j, slotAt b'.node j =
        if b.next = j then some (joinSlot m₁ (b.weightAt m₁) m₂ (b.weightAt m₂)) else slotAt b.node j) ∧
      ∀ j, b'.has j = if b.next = j then true else if m₂ = j then false else if m₁ = j then false else b.has j := by
  obtain ⟨m₁, m₂, l₁, l₂, rfl⟩ := merge_spec hm
  refine ⟨m₁, m₂, l₁, l₂, ?_, fun j => insertNext_slotAt hnext j, fun j => ?_⟩
  · have one : (1 : Idx).toNat = 1 := rfl
    rw [insertNext_next, remove_next, remove_next, BitVec.toNat_add, one]
    omega
  · rw [insertNext_has (by exact hnext), remove_has, remove_has]
    rfl

/-- A merge keeps the internal slots covered: the two members it takes become children of the new one. -/
theorem Covered.merge {b b' : Store} (hc : Covered b) (hnext : b.next.toNat < 511) (hm : b.merge = some b') :
    Covered b' := by
  obtain ⟨m₁, m₂, -, -, hnext', hslot, hhas⟩ := merge_effect hm hnext
  intro i hlo hhi
  by_cases hi : b.next = i
  · exact .inl (by rw [hhas, if_pos hi])
  have hlt : i.toNat < b.next.toNat := by
    have : b.next.toNat ≠ i.toNat := fun e => hi (BitVec.eq_of_toNat_eq e)
    omega
  have child : ∀ c, childOf (joinSlot m₁ (b.weightAt m₁) m₂ (b.weightAt m₂)) c = i →
      ∃ (j : Idx) (n : Slot) (c : BitVec 1), i.toNat < j.toNat ∧ j.toNat < b'.next.toNat ∧
        slotAt b'.node j = some n ∧ childOf n c = i :=
    fun c hch => ⟨b.next, _, c, hlt, by omega, by rw [hslot, if_pos rfl], hch⟩
  by_cases h1 : m₁ = i
  · exact .inr (child 0 h1)
  by_cases h2 : m₂ = i
  · exact .inr (child 1 h2)
  rcases hc i hlo hlt with hb | ⟨j, n, c, hij, hj, hn, hch⟩
  · exact .inl (by rw [hhas, if_neg hi, if_neg h2, if_neg h1, hb])
  · have hne : b.next ≠ j := fun e => absurd hj (by rw [e]; exact Nat.lt_irrefl _)
    exact .inr ⟨j, n, c, hij, by omega, by rw [hslot, if_neg hne, hn], hch⟩

theorem Forest.mergeAll_covered {fuel : Nat} {b : Store} {F : List (Idx × Tree)} {L : List (Sym × Nat)}
    (h : Forest b F L) (hL : L.length ≤ 256) (hsum : (L.map (·.2)).sum < 2 ^ 32) (hc : Covered b) :
    Covered (b.mergeAll fuel) := by
  induction fuel generalizing b F with
  | zero => exact hc
  | succ fuel ih =>
    simp only [Store.mergeAll]
    cases hm : b.merge with
    | none => exact hc
    | some b' =>
      obtain ⟨F', h', hlen, hin, -⟩ := h.merge hL hsum hm
      have hpos : 0 < F'.length := by
        cases F' with
        | nil => cases hin
        | cons e F' => exact Nat.succ_pos _
      have hcount := h.count
      exact ih h' (hc.merge (by omega) hm)

/-- With at least one count BUILD's collection ends with one tree, over the mapping (41_tree_builder.md R105). -/
theorem buildStore_forest (freq : Vector Word Config.nsym) (node : Vector Slot Config.nnode)
    (hk : 0 < leafCount freq) (hsum : freqSum freq < 2 ^ 32) :
    (∃ root t, Forest (buildStore freq node) [(root, t)] (mapping freq)) ∧ Covered (buildStore freq node) := by
  have h0 := makeLeaves_forest freq node
  have hlen : (leafForest freq).length = leafCount freq := by
    rw [leafForest, List.length_map, mapping_length]
  have hL : (mapping freq).length ≤ 256 := by rw [mapping_length]; exact leafCount_le freq
  have hS : ((mapping freq).map (·.2)).sum < 2 ^ 32 := by rw [mapping_sum]; exact hsum
  constructor
  · obtain ⟨F, hF, h1, hne, -⟩ := h0.mergeAll (fuel := Config.lenMax) hL hS
      (by rw [hlen]; exact leafCount_le freq) (.inl rfl)
    have hF0 : F ≠ [] := hne fun e => by rw [e] at hlen; exact absurd hlen (by simp; omega)
    obtain ⟨⟨root, t⟩, rfl⟩ := List.length_eq_one_iff.mp
      (Nat.le_antisymm h1 (List.length_pos_iff.mpr hF0))
    exact ⟨root, t, hF⟩
  · refine h0.mergeAll_covered hL hS fun i hlo hhi => absurd hhi (Nat.not_lt.mpr ?_)
    exact hlo

/-- In the tree of a store whose internal slots are covered, each of them is reached from the root. -/
theorem reaches_internal {b : Store} {root : Idx} (hs : StoreOk b.node root)
    (hmem : ∀ i, b.has i = true ↔ i = root) (hnext : b.next.toNat ≤ root.toNat + 1) (hc : Covered b) {i : Idx}
    (hlo : 256 ≤ i.toNat) (hhi : i.toNat ≤ root.toNat) (hlt : i.toNat < b.next.toNat) :
    reaches b.node (root.toNat - i.toNat + 1) root i = true := by
  generalize hd : root.toNat - i.toNat = d
  induction d using Nat.strong_induction_on generalizing i with
  | _ d ih =>
    rcases hc i hlo hlt with hhas | ⟨j, n, c, hij, hj, hn, hch⟩
    · obtain rfl := (hmem i).mp hhas
      exact reaches_succ.mpr ⟨_, slotAt_eq_some hs.1, .inl rfl⟩
    · have hr := ih (root.toNat - j.toNat) (by omega) (i := j) (by omega) (by omega) hj rfl
      obtain ⟨n', hn', hleaf, hchild⟩ := (hs.2.2 j (by omega) (by omega)).child
      cases hn.symm.trans hn'
      have := reaches_child hr hn hleaf c (hchild c).2.2
      rw [hch] at this
      exact reaches_mono (by omega) this

/-- The slots of the tree BUILD leaves: the leaf slots of the symbols with a count, and every internal slot from 256 to
the root (10_state.md R17). -/
theorem reaches_root_iff {freq : Vector Word Config.nsym} {b : Store} {root : Idx} {t : Tree}
    (hs : StoreOk b.node root) (hmem : ∀ i, b.has i = true ↔ i = root)
    (hnext : 256 ≤ root.toNat → b.next.toNat = root.toNat + 1) (hc : Covered b)
    (ht : treeAt b.node (Config.lenMax + 1) root = some t) (hp : t.leaves.Perm (mapping freq)) (j : Idx) :
    reaches b.node (Config.lenMax + 1) root j = true ↔
      (j.toNat < 256 ∧ symEntry freq (j.setWidth 8) ≠ 0) ∨ (256 ≤ j.toNat ∧ j.toNat ≤ root.toNat) := by
  constructor
  · intro h
    obtain ⟨hok, hle⟩ := reaches_le hs hs.2.1 (Nat.le_refl _) h
    by_cases hlt : j.toNat < 256
    · obtain ⟨n, hn, hleaf, hsym, -⟩ := hok hlt
      have hx := (mem_leaves_iff ht).mpr ⟨j, n, h, hn, hleaf, hsym, rfl⟩
      exact .inl ⟨hlt, (mem_mapping.mp (hp.mem_iff.mp hx)).1⟩
    · exact .inr ⟨by omega, hle⟩
  · rintro (⟨hlt, hne⟩ | ⟨hlo, hhi⟩)
    · have hx := hp.mem_iff.mpr (mem_mapping.mpr ⟨hne, rfl⟩)
      obtain ⟨i, n, hr, hn, hleaf, hsym, -⟩ := (mem_leaves_iff ht).mp hx
      obtain ⟨hok, hle⟩ := reaches_le hs hs.2.1 (Nat.le_refl _) hr
      have hi : i.toNat < 256 := by
        by_contra hge
        obtain ⟨m, hm, hl, -⟩ := (hs.2.2 i (by omega) hle).child
        cases hn.symm.trans hm
        exact Bool.false_ne_true (hl.symm.trans hleaf)
      obtain ⟨m, hm, -, hsym', -⟩ := hok hi
      cases hn.symm.trans hm
      have e : i = j := by
        have := congrArg BitVec.toNat (hsym'.symm.trans hsym)
        simp only [BitVec.toNat_setWidth] at this
        exact BitVec.eq_of_toNat_eq (by omega)
      rwa [← e]
    · have hn := hnext (by omega)
      refine reaches_mono ?_ (reaches_internal hs hmem (by omega) hc hlo hhi (by omega))
      have := hs.1
      unfold Config.lenMax
      omega

/-- With a tree in the collection BUILD's effect plants it (41_tree_builder.md R105). -/
theorem buildEffect_of_least {s : State} {root : Idx} {w : Word} (hsum : freqSum s.freq < 2 ^ 32)
    (hl : (buildStore s.freq s.node).least = some (root, w)) :
    buildEffect s = finish { buildClear s with
      node := (buildStore s.freq s.node).node, act := (buildStore s.freq s.node).act,
      nextSlot := (buildStore s.freq s.node).next, rootValid := true, rootIdx := root,
      nleaf := BitVec.ofNat 9 (leafCount s.freq) } := by
  rw [buildEffect, if_neg (by omega), plantRoot, hl]

/-- Settles O30: `buildStore_spec` for the tree, `reaches_root_iff` for the live slots; the latter rests on `Covered`,
which every merge keeps. -/
theorem buildMakesTheTree : Obligations.BuildMakesTheTree := by
  intro s hdue hk hsum
  obtain ⟨busy, done, hexec⟩ := atomicMove_effectDue (effect := fun t => .next (buildEffect t)) hdue
  obtain ⟨⟨root', T', hF⟩, hcov⟩ := buildStore_forest s.freq s.node hk hsum
  obtain ⟨h0, -⟩ | ⟨-, root, w, T, hl, hstore, ht, hw, hp, hmem, hroot⟩ := buildStore_spec s.freq s.node hsum
  · omega
  have heff := buildEffect_of_least (s := { s with busy := busy, done := done, op := opcodeOf .build }) hsum hl
  obtain ⟨-, -, hweight⟩ := TreeOk.ofMapping hw hp hsum
  refine ⟨_, T, hexec.trans (congrArg _ heff), ⟨rfl, rfl, rfl⟩, ⟨rfl, rfl⟩, rfl, ht, hw, hp, hweight, ?_, hstore,
    symEntry_emptyCode, hroot, fun j => ?_⟩
  · have := leafCount_le s.freq
    change (BitVec.ofNat 9 (leafCount s.freq)).toNat = _
    rw [BitVec.toNat_ofNat]
    omega
  · refine reaches_root_iff hstore hmem (fun hge => ?_) hcov ht hp j
    have hcount := hF.count
    have hlt := hF.has_lt_next ((hmem root).mpr rfl)
    rw [mapping_length] at hcount
    simp only [List.length_cons, List.length_nil] at hcount
    have := hroot (by omega)
    omega

/-! Reset and the status registers. -/

/-- Settles O1: the tables are empty entry by entry; every other element is its literal. -/
theorem resetState : Obligations.ResetState :=
  ⟨symEntry_emptyFreq, symEntry_emptyCode, rfl, rfl, rfl, rfl, rfl, rfl, rfl, rfl, rfl, rfl, rfl, rfl, rfl, rfl, rfl,
    rfl, rfl⟩

/-- The one-bit fields of STATUS (10_state.md R27). -/
theorem statusWord_flags (s : State) :
    (statusWord s).getLsbD 0 = s.busy ∧ (statusWord s).getLsbD 1 = s.done ∧ (statusWord s).getLsbD 2 = s.err ∧
      (statusWord s).getLsbD 3 = s.rootValid ∧ (statusWord s).getLsbD 4 = s.midpath ∧
      (statusWord s).getLsbD 5 = s.wign := by
  simp only [statusWord, BitVec.getLsbD_append, BitVec.getLsbD_ofBool]
  simp

/-- The wider fields of STATUS (10_state.md R27). -/
theorem statusWord_fields (s : State) :
    (statusWord s).extractLsb' 6 2 = 0 ∧ (statusWord s).extractLsb' 8 4 = s.errcode ∧
      (statusWord s).extractLsb' 12 4 = s.op ∧ (statusWord s).extractLsb' 16 16 = 0 := by
  have skip := @BitVec.extractLsb'_append_eq_of_le
  have stop := @BitVec.extractLsb'_append_eq_of_add_le
  unfold statusWord
  refine ⟨?_, ?_, ?_, ?_⟩
  all_goals repeat rw [skip (by decide)]
  · exact (stop (by decide)).trans BitVec.extractLsb'_eq_self
  · exact (stop (by decide)).trans BitVec.extractLsb'_eq_self
  · exact (stop (by decide)).trans BitVec.extractLsb'_eq_self
  · exact BitVec.extractLsb'_eq_self

theorem err_iff (s : State) : s.err = true ↔ s.errcode ≠ 0 := by simp [State.err]

/-- The fields of TREEINFO (10_state.md R29). -/
theorem treeinfoWord_fields (s : State) :
    (treeinfoWord s).extractLsb' 0 9 = s.rootIdx ∧ (treeinfoWord s).extractLsb' 9 7 = 0 ∧
      (treeinfoWord s).extractLsb' 16 9 = s.nleaf ∧ (treeinfoWord s).extractLsb' 25 6 = 0 ∧
      (treeinfoWord s).getLsbD 31 = s.rootValid := by
  have skip := @BitVec.extractLsb'_append_eq_of_le
  have stop := @BitVec.extractLsb'_append_eq_of_add_le
  refine ⟨?_, ?_, ?_, ?_, ?_⟩
  case refine_5 =>
    simp only [treeinfoWord, BitVec.getLsbD_append, BitVec.getLsbD_ofBool]
    simp
  all_goals
    unfold treeinfoWord
    repeat rw [skip (by decide)]
    exact (stop (by decide)).trans BitVec.extractLsb'_eq_self

/-- Settles O6: STATUS is never unspecified, and its word is `statusWord`. -/
theorem statusLayout : Obligations.StatusLayout := by
  intro s
  obtain ⟨hbusy, hdone, herr, htree, hmid, hwign⟩ := statusWord_flags s
  obtain ⟨hz, hcode, hop, hz'⟩ := statusWord_fields s
  exact ⟨statusWord s, rfl, hbusy, hdone, by rw [herr, err_iff], htree, hmid, hwign, hz, hcode, hop, hz', rfl, rfl⟩

/-- Settles O7: ERRINFO is never unspecified; TREEINFO is `treeinfoWord` exactly while BUSY = 0. -/
theorem errinfoAndTreeinfoLayout : Obligations.ErrinfoAndTreeinfoLayout := by
  intro s
  refine ⟨rfl, fun hb => ⟨treeinfoWord s, ?_, treeinfoWord_fields s⟩, fun hb => ?_, rfl⟩
  · have hr : readRegister (registerAt 0x003) s = some (treeinfoWord s) := by
      change (if s.busy then none else some (treeinfoWord s)) = _
      rw [hb, if_neg Bool.false_ne_true]
    rw [hostRead, hr]
  · change (if s.busy then none else some (treeinfoWord s)) = _
    rw [if_pos hb]

end Sys2Proof

namespace Sys2Proof

open Sys2Proof.Machine

/-! The streams: when an input is ready and what an output offers (20_memory.md R50 to R55). -/

theorem siReady_iff (s : State) : s.siReady = true ↔ waitsToTake .count s ∨ waitsToTake .encode s := by
  simp only [State.siReady, waitsToTake, Bool.and_eq_true, Bool.or_eq_true, beq_iff_eq]
  tauto

theorem biReady_iff (s : State) : s.biReady = true ↔ waitsToTake .decode s := by
  simp only [State.biReady, waitsToTake, Bool.and_eq_true, beq_iff_eq]
  tauto

theorem boOffer_iff (s : State) (item : OutItem 1) :
    s.boOffer = some item ↔ s.busy = true ∧ s.op = opcodeOf .encode ∧
      ((s.phase = .emitBit ∧ item = .data (BitVec.ofBool s.codeBit)) ∨
        ((∃ e, s.phase = .close e) ∧ item = .endItem)) := by
  by_cases hr : s.busy = true ∧ s.op = opcodeOf .encode
  · cases hp : s.phase <;> simp [State.boOffer, hr, hp, eq_comm]
  · rw [← and_assoc, State.boOffer, if_neg (by simpa using hr)]
    simp [hr]

theorem soOffer_iff (s : State) (item : OutItem 8) :
    s.soOffer = some item ↔ s.busy = true ∧ s.op = opcodeOf .decode ∧
      ((∃ v, s.phase = .emitSym v ∧ item = .data v) ∨ ((∃ e, s.phase = .close e) ∧ item = .endItem)) := by
  by_cases hr : s.busy = true ∧ s.op = opcodeOf .decode
  · cases hp : s.phase <;> simp [State.soOffer, hr, hp, eq_comm]
  · rw [← and_assoc, State.soOffer, if_neg (by simpa using hr)]
    simp [hr]

/-! One transfer in each position of a streaming command. -/

theorem countTransfer_take {s : State} (hp : s.phase = .take) :
    countTransfer s = takeSym s fun it t => .next (countItem it t) := by rw [countTransfer, hp]

theorem encodeTransfer_take {s : State} (hp : s.phase = .take) :
    encodeTransfer s = takeSym s fun it t => .next (encodeItem it t) := by rw [encodeTransfer, hp]

theorem encodeTransfer_emitBit {s : State} (hp : s.phase = .emitBit) :
    encodeTransfer s = putBit (.data (BitVec.ofBool s.codeBit)) s encodeAdvance := by rw [encodeTransfer, hp]

theorem encodeTransfer_close {s : State} {e : Ending} (hp : s.phase = .close e) :
    encodeTransfer s = putBit .endItem s (endCommand e) := by rw [encodeTransfer, hp]

theorem decodeTransfer_take {s : State} (hp : s.phase = .take) :
    decodeTransfer s = takeBit s decodeItem := by rw [decodeTransfer, hp]

theorem decodeTransfer_emitSym {s : State} {v : Sym} (hp : s.phase = .emitSym v) :
    decodeTransfer s = putSym (.data v) s decodeAdvance := by rw [decodeTransfer, hp]

theorem decodeTransfer_close {s : State} {e : Ending} (hp : s.phase = .close e) :
    decodeTransfer s = putSym .endItem s (endCommand e) := by rw [decodeTransfer, hp]

/-! What a transfer leaves on the streams. -/

@[simp] theorem countItem_symIn (it : InItem 8) (s : State) : (countItem it s).symIn = s.symIn := by
  obtain ⟨f, b, d, p, code, info, e⟩ := countItem_changes it s
  rw [e]

@[simp] theorem encodeItem_symIn (it : InItem 8) (s : State) : (encodeItem it s).symIn = s.symIn := by
  obtain ⟨x, n, p, e⟩ := encodeItem_changes it s
  rw [e]

theorem decodeItem_bitIn {it : InItem 1} {s t : State} (h : decodeItem it s = .next t) : t.bitIn = s.bitIn := by
  obtain ⟨c, p, m, rfl⟩ := decodeItem_changes h
  rfl

@[simp] theorem encodeAdvance_bitOut (s : State) : (encodeAdvance s).bitOut = s.bitOut := by
  obtain ⟨n, p, e⟩ := encodeAdvance_changes s
  rw [e]

@[simp] theorem decodeAdvance_symOut (s : State) : (decodeAdvance s).symOut = s.symOut := rfl

@[simp] theorem endCommand_bitOut (e : Ending) (s : State) : (endCommand e s).bitOut = s.bitOut := by
  cases e <;> rfl

@[simp] theorem endCommand_symOut (e : Ending) (s : State) : (endCommand e s).symOut = s.symOut := by
  cases e <;> rfl

/-! A move of the running command takes or puts exactly the item on offer (20_memory.md R52, R53). -/

theorem execCount_takes {s t : State} {it : RawItem 8} {rest : List (RawItem 8)} (hb : s.busy = true)
    (hp : s.phase = .take) (hi : s.symIn = it :: rest) (h : exec .count s = .next t) : t.symIn = rest := by
  rw [exec_count, streamMove_running hb, countTransfer_take hp, takeSym_cons hi] at h
  rw [← Host.Outcome.next.inj h, countItem_symIn]

theorem execEncode_takes {s t : State} {it : RawItem 8} {rest : List (RawItem 8)} (hb : s.busy = true)
    (hp : s.phase = .take) (hi : s.symIn = it :: rest) (h : exec .encode s = .next t) : t.symIn = rest := by
  rw [exec_encode, streamMove_running hb, encodeTransfer_take hp, takeSym_cons hi] at h
  rw [← Host.Outcome.next.inj h, encodeItem_symIn]

theorem execDecode_takes {s t : State} {it : RawItem 1} {rest : List (RawItem 1)} (hb : s.busy = true)
    (hp : s.phase = .take) (hi : s.bitIn = it :: rest) (h : exec .decode s = .next t) : t.bitIn = rest := by
  rw [exec_decode, streamMove_running hb, decodeTransfer_take hp, takeBit_cons hi] at h
  exact decodeItem_bitIn h

theorem execEncode_puts {s t : State} {item : OutItem 1} (ho : s.boOffer = some item) (hr : s.boReady = true)
    (h : exec .encode s = .next t) : t.bitOut = s.bitOut ++ [item] := by
  obtain ⟨hb, -, ⟨hp, rfl⟩ | ⟨⟨e, hp⟩, rfl⟩⟩ := (boOffer_iff s item).mp ho
  · rw [exec_encode, streamMove_running hb, encodeTransfer_emitBit hp, putBit_taken hr] at h
    rw [← Host.Outcome.next.inj h, encodeAdvance_bitOut]
  · rw [exec_encode, streamMove_running hb, encodeTransfer_close hp, putBit_taken hr] at h
    rw [← Host.Outcome.next.inj h, endCommand_bitOut]

theorem execDecode_puts {s t : State} {item : OutItem 8} (ho : s.soOffer = some item) (hr : s.soReady = true)
    (h : exec .decode s = .next t) : t.symOut = s.symOut ++ [item] := by
  obtain ⟨hb, -, ⟨v, hp, rfl⟩ | ⟨⟨e, hp⟩, rfl⟩⟩ := (soOffer_iff s item).mp ho
  · rw [exec_decode, streamMove_running hb, decodeTransfer_emitSym hp, putSym_taken hr] at h
    rw [← Host.Outcome.next.inj h, decodeAdvance_symOut]
  · rw [exec_decode, streamMove_running hb, decodeTransfer_close hp, putSym_taken hr] at h
    rw [← Host.Outcome.next.inj h, endCommand_symOut]

/-- While BUSY = 1 the next move of a command is a move of the core (45_job_control.md R153). -/
theorem step_of_nextRuns_busy {i : Instr} {s : State} (hb : s.busy = true) (now : nextRuns i s) :
    step s = exec i s.popped := by
  rcases now with ⟨hidle, -⟩ | ⟨-, ho, hs | hs⟩
  · exact absurd (hidle.symm.trans hb) Bool.false_ne_true
  · rw [popped_of_nil hs]
    exact (step_core hs).trans (coreMove_runs hb ho)
  · obtain ⟨rest, hs⟩ := List.head?_eq_some_iff.mp hs
    rw [popped_of_cons hs]
    exact (step_scheduled hs).trans (coreMove_runs hb ho)

/-! Idle streams stay. -/

theorem execClr_changes {s t : State} (h : exec .clr s = .next t) :
    t = { s with
      freq := t.freq, rootValid := t.rootValid, rootIdx := t.rootIdx, nleaf := t.nleaf, code := t.code,
      errcode := t.errcode, errinfo := t.errinfo, midpath := t.midpath, wign := t.wign, busy := t.busy,
      done := t.done, op := t.op, phase := t.phase } := by
  rw [exec_clr] at h
  obtain ⟨b, d, o, ⟨p, rfl⟩ | he⟩ := atomicMove_changes h
  · rfl
  · obtain rfl := Host.Outcome.next.inj he
    rfl

/-- Only COUNT and ENCODE move items on SYM_IN, only DECODE on BIT_IN and SYM_OUT, only ENCODE on BIT_OUT
(20_memory.md R50). -/
theorem exec_keepsStreams {i : Instr} {s t : State} (h : exec i s = .next t) :
    (i ≠ .count → i ≠ .encode → t.symIn = s.symIn) ∧
      (i ≠ .decode → t.bitIn = s.bitIn ∧ t.symOut = s.symOut) ∧ (i ≠ .encode → t.bitOut = s.bitOut) := by
  cases i with
  | clr =>
    rw [execClr_changes h]
    exact ⟨fun _ _ => rfl, fun _ => ⟨rfl, rfl⟩, fun _ => rfl⟩
  | count =>
    rw [execCount_changes h]
    exact ⟨fun e => absurd rfl e, fun _ => ⟨rfl, rfl⟩, fun _ => rfl⟩
  | build =>
    rw [execBuild_changes h]
    exact ⟨fun _ _ => rfl, fun _ => ⟨rfl, rfl⟩, fun _ => rfl⟩
  | derive =>
    rw [execDerive_changes h]
    exact ⟨fun _ _ => rfl, fun _ => ⟨rfl, rfl⟩, fun _ => rfl⟩
  | encode =>
    rw [execEncode_changes h]
    exact ⟨fun _ e => absurd rfl e, fun _ => ⟨rfl, rfl⟩, fun e => absurd rfl e⟩
  | decode =>
    rw [execDecode_changes h]
    exact ⟨fun _ _ => rfl, fun e => absurd rfl e, fun _ => rfl⟩

/-- A step is a move of a command, or it leaves the streams as they are but for items the sources add. -/
theorem step_runs_or_keepsStreams {s t : State} (h : step s = .next t) :
    (∃ i, nextRuns i s ∧ exec i s.popped = .next t) ∨
      (s.symIn <+: t.symIn ∧ s.bitIn <+: t.bitIn ∧ t.bitOut = s.bitOut ∧ t.symOut = s.symOut) := by
  cases step_kind s with
  | runs i now _ is => exact .inl ⟨i, now, is.symm.trans h⟩
  | lost _ _ is => cases is.symm.trans h
  | illegal w _ _ is =>
    cases is.symm.trans h
    exact .inr ⟨List.prefix_rfl, List.prefix_rfl, rfl, rfl⟩
  | ignored a v _ is =>
    cases is.symm.trans h
    exact .inr ⟨List.prefix_rfl, List.prefix_rfl, rfl, rfl⟩
  | freqWrite a v x _ _ is =>
    cases is.symm.trans h
    exact .inr ⟨List.prefix_rfl, List.prefix_rfl, rfl, rfl⟩
  | reset _ is =>
    cases is.symm.trans h
    exact .inr ⟨List.prefix_rfl, List.prefix_rfl, rfl, rfl⟩
  | outside u is only =>
    cases is.symm.trans h
    refine .inr ⟨only.symIn, only.bitIn, ?_, ?_⟩
    · rw [only.same]; rfl
    · rw [only.same]; rfl

/-- A step that is no move of a stream's commands puts nothing on it and takes nothing from it; a source may offer
more items (20_memory.md R55). -/
theorem step_idleStreams {s t : State} (h : step s = .next t) :
    (¬ nextRuns .count s → ¬ nextRuns .encode s → s.symIn <+: t.symIn) ∧
      (¬ nextRuns .decode s → s.bitIn <+: t.bitIn ∧ t.symOut = s.symOut) ∧
      (¬ nextRuns .encode s → t.bitOut = s.bitOut) := by
  rcases step_runs_or_keepsStreams h with ⟨i, now, he⟩ | ⟨hSI, hBI, hBO, hSO⟩
  · have other : ∀ {j}, ¬ nextRuns j s → i ≠ j := fun hj e => hj (e ▸ now)
    obtain ⟨hSI, hD, hBO⟩ := exec_keepsStreams he
    refine ⟨fun hc he => ?_, fun hd => ?_, fun he => hBO (other he)⟩
    · rw [hSI (other hc) (other he)]
      exact List.prefix_rfl
    · obtain ⟨hBI, hSO⟩ := hD (other hd)
      rw [hBI]
      exact ⟨List.prefix_rfl, hSO⟩
  · exact ⟨fun _ _ => hSI, fun _ => ⟨hBI, hSO⟩, fun _ => hBO⟩

/-- Settles O60: ready and offered by the sequencer's fields; a move of a running command by its transfer in that
position (`execCount_takes` and the like); idle streams by the kind of the step. -/
theorem idleStreamsStay : Obligations.IdleStreamsStay := by
  intro s
  refine ⟨siReady_iff s, biReady_iff s, boOffer_iff s, soOffer_iff s, fun t h =>
    ⟨fun it rest hw hi now => ?_, fun it rest hw hi now => ?_, fun item ho hr now => ?_, fun item ho hr now => ?_,
      step_idleStreams h⟩⟩
  · obtain ⟨hb, hp⟩ : s.busy = true ∧ s.phase = .take := by
      rcases (siReady_iff s).mp hw with ⟨hb, -, hp⟩ | ⟨hb, -, hp⟩ <;> exact ⟨hb, hp⟩
    rcases now with now | now
    · exact execCount_takes (s := s.popped) hb hp hi ((step_of_nextRuns_busy hb now).symm.trans h)
    · exact execEncode_takes (s := s.popped) hb hp hi ((step_of_nextRuns_busy hb now).symm.trans h)
  · obtain ⟨hb, -, hp⟩ := (biReady_iff s).mp hw
    exact execDecode_takes (s := s.popped) hb hp hi ((step_of_nextRuns_busy hb now).symm.trans h)
  · have hb := ((boOffer_iff s item).mp ho).1
    exact execEncode_puts (s := s.popped) ho hr ((step_of_nextRuns_busy hb now).symm.trans h)
  · have hb := ((soOffer_iff s item).mp ho).1
    exact execDecode_puts (s := s.popped) ho hr ((step_of_nextRuns_busy hb now).symm.trans h)

/-! The address map, range by range (20_memory.md R44). -/

theorem registerAt_low {a : Addr} (hlo : 0x004 ≤ a) (hhi : a ≤ 0x0FF) : registerAt a = .unmapped := by
  unfold registerAt
  iterate 4 rw [if_neg (by bv_omega)]
  rw [if_pos (by bv_omega)]

theorem registerAt_high {a : Addr} (hlo : 0x300 ≤ a) (hhi : a ≤ 0x3FF) : registerAt a = .unmapped := by
  unfold registerAt
  iterate 7 rw [if_neg (by bv_omega)]
  rw [if_pos (by bv_omega)]

/-- A field of an address, by arithmetic on the address. -/
theorem addrField_eq {a : Addr} {k n : Nat} {x : BitVec n} (h : a.toNat / 2 ^ k % 2 ^ n = x.toNat) :
    a.extractLsb' k n = x := by
  apply BitVec.eq_of_toNat_eq
  rw [BitVec.extractLsb'_toNat, Nat.shiftRight_eq_div_pow, h]

theorem registerAt_freq (x : Sym) : registerAt (0x100 + x.setWidth 12) = .freq x := by
  unfold registerAt
  iterate 5 rw [if_neg (by bv_omega)]
  rw [if_pos (by bv_omega), addrField_eq (x := x) (by bv_omega)]

theorem registerAt_codelen (x : Sym) : registerAt (0x200 + x.setWidth 12) = .codelen x := by
  unfold registerAt
  iterate 6 rw [if_neg (by bv_omega)]
  rw [if_pos (by bv_omega), addrField_eq (x := x) (by bv_omega)]

theorem registerAt_node {a : Addr} (hlo : 0x400 ≤ a) (hhi : a < 0x7FE) :
    registerAt a = if a.getLsbD 0 then .nodeL (a.extractLsb' 1 9) else .nodeW (a.extractLsb' 1 9) := by
  unfold registerAt
  iterate 8 rw [if_neg (by bv_omega)]
  rw [if_pos (by bv_omega)]

theorem registerAt_nodeW {i : Idx} (hi : i.toNat ≤ 510) : registerAt (0x400 + 2 * i.setWidth 12) = .nodeW i := by
  rw [registerAt_node (by bv_omega) (by bv_omega), addrField_eq (x := i) (by bv_omega), if_neg]
  rw [BitVec.getLsbD, Nat.testBit_zero, decide_eq_true_iff]
  bv_omega

theorem registerAt_nodeL {i : Idx} (hi : i.toNat ≤ 510) :
    registerAt (0x400 + 2 * i.setWidth 12 + 1) = .nodeL i := by
  rw [registerAt_node (by bv_omega) (by bv_omega), addrField_eq (x := i) (by bv_omega), if_pos]
  rw [BitVec.getLsbD, Nat.testBit_zero, decide_eq_true_iff]
  bv_omega

theorem registerAt_codebits (x : Sym) (j : BitVec 3) :
    registerAt (0x800 + 8 * x.setWidth 12 + j.setWidth 12) = .codebits x j := by
  unfold registerAt
  iterate 10 rw [if_neg (by bv_omega)]
  rw [addrField_eq (x := x) (by bv_omega), addrField_eq (x := j) (by bv_omega)]

/-- Settles O8: the map range by range. -/
theorem addressMap : Obligations.AddressMap :=
  ⟨rfl, rfl, rfl, rfl, fun _ => registerAt_low, registerAt_freq, registerAt_codelen, fun _ => registerAt_high,
    fun _ => registerAt_nodeW, fun _ => registerAt_nodeL, rfl, rfl, registerAt_codebits⟩

/-! Host reads. -/

/-- A slot that is reached exists (10_state.md R17). -/
theorem exists_slotAt_of_reaches {node : Vector Slot Config.nnode} {f : Nat} {i j : Idx}
    (h : reaches node f i j = true) : ∃ n, slotAt node j = some n := by
  induction f generalizing i with
  | zero => cases h
  | succ f ih =>
    obtain ⟨n, hn, rfl | ⟨-, h | h⟩⟩ := reaches_succ.mp h
    · exact ⟨n, hn⟩
    · exact ih h
    · exact ih h

theorem exists_slotAt_of_live {s : State} {i : Idx} (h : s.live i = true) : ∃ n, slotAt s.node i = some n :=
  exists_slotAt_of_reaches (Bool.and_eq_true_iff.mp h).2

/-- The guard of a word that is unspecified while BUSY = 1 (20_memory.md R47). -/
theorem ite_none_some_eq_none {c : Prop} [Decidable c] {w : Word} : (if c then none else some w) = none ↔ c := by
  simp

/-- A word of a slot, guarded as `readRegister` guards it, is missing exactly while BUSY = 1 or when the slot is not
live (20_memory.md R47, 10_state.md R35). -/
theorem slotWord_eq_none {s : State} {i : Idx} (f : Slot → Word) :
    (if s.busy || !s.live i then none else (slotAt s.node i).map f) = none ↔ s.busy = true ∨ s.live i = false := by
  cases hb : s.busy with
  | true => simp
  | false =>
    cases hl : s.live i with
    | false => simp
    | true =>
      obtain ⟨n, hn⟩ := exists_slotAt_of_live hl
      simp [hn]

/-- Settles O13: by `readRegister`'s guards; a live slot exists (`exists_slotAt_of_live`). -/
theorem unspecifiedReads : Obligations.UnspecifiedReads :=
  fun _ => ⟨rfl, rfl, Option.some_ne_none _, Option.some_ne_none _, ite_none_some_eq_none,
    fun _ => ite_none_some_eq_none, fun _ => ite_none_some_eq_none, fun _ _ => ite_none_some_eq_none,
    fun _ => slotWord_eq_none _, fun _ => slotWord_eq_none _⟩

theorem hostRead_shown {s : State} {a : Addr} {w : Word} (h : readRegister (registerAt a) s = some w) :
    hostRead a s = { s with hReads := s.hReads ++ [(a, w)] } := by rw [hostRead, h]

theorem hostRead_unspecified {s : State} {a : Addr} (h : readRegister (registerAt a) s = none) :
    hostRead a s = { s with hReads := s.hReads ++ [(a, Config.freeWord s.draws)], draws := s.draws + 1 } := by
  rw [hostRead, h]

/-- What a register shows does not depend on the schedule. -/
theorem readRegister_script (r : Register) (s : State) (l : List Move) :
    readRegister r { s with script := l } = readRegister r s := by cases r <;> rfl

/-- Settles O12: by what the register shows. -/
theorem hostReadChangesNothing : Obligations.HostReadChangesNothing := by
  intro s a rest hs
  rw [step_scheduled hs, ← readRegister_script _ s rest]
  refine ⟨fun w h => ?_, fun h => ?_⟩
  · exact congrArg Host.Outcome.next (hostRead_shown h)
  · exact congrArg Host.Outcome.next (hostRead_unspecified h)

/-! Host writes. -/

theorem writeRegister_freq_idle {s : State} (x : Sym) (v : Word) (hb : s.busy = false) :
    writeRegister (.freq x) v s = { s with freq := setSymEntry s.freq x v } := if_neg (by simp [hb])

theorem writeRegister_freq_busy {s : State} (x : Sym) (v : Word) (hb : s.busy = true) :
    writeRegister (.freq x) v s = ignoreWrite s := if_pos hb

theorem hostWrite_freq {s : State} (x : Sym) (v : Word) (hb : s.busy = false) :
    hostWrite (0x100 + x.setWidth 12) v s = .next { s with freq := setSymEntry s.freq x v } := by
  rw [hostWrite, registerAt_freq]
  exact congrArg Host.Outcome.next (writeRegister_freq_idle x v hb)

/-- A host write that names no command word, nor a count while the machine is idle, is ignored (20_memory.md R43,
R45 to R47). -/
theorem hostWrite_ignored {s : State} {a : Addr} (v : Word) (hcmd : a ≠ 0)
    (hfreq : ∀ x, registerAt a = .freq x → s.busy = true) : hostWrite a v s = .next (ignoreWrite s) := by
  unfold hostWrite
  cases hr : registerAt a with
  | cmd => exact absurd (registerAt_eq_cmd hr) hcmd
  | freq x => exact congrArg Host.Outcome.next (writeRegister_freq_busy x v (hfreq x hr))
  | status => rfl
  | errinfo => rfl
  | treeinfo => rfl
  | codelen x => rfl
  | nodeW i => rfl
  | nodeL i => rfl
  | codebits x j => rfl
  | unmapped => rfl

/-- Settles O14: a count while idle by `hostWrite_freq`, every other address by `hostWrite_ignored`, as FREQ lies in
0x100 to 0x1FF (`registerAt_eq_freq`). -/
theorem hostWrites : Obligations.HostWrites := by
  refine ⟨fun s x v rest hb hs => ?_, fun s a v rest hs ha => ?_⟩
  · refine ⟨_, (step_scheduled hs).trans (hostWrite_freq x v hb), ?_, fun y hy => ?_, rfl⟩
    · rw [symEntry_setSymEntry, if_pos rfl]
    · rw [symEntry_setSymEntry, if_neg hy.symm]
  · rw [step_scheduled hs]
    rcases ha with ⟨hne, hout⟩ | ⟨hlo, -, hb⟩
    · refine hostWrite_ignored v hne fun x hx => ?_
      obtain ⟨hlo, hhi⟩ := registerAt_eq_freq hx
      bv_omega
    · exact hostWrite_ignored v (by bv_omega) fun _ _ => hb

end Sys2Proof

namespace Sys2Proof

open Sys2Proof.Machine

/-! Command words: decoding by the two fields, and the encoder as its inverse (30_encoding.md R70 to R72, R84). -/

/-- The word of two fields gives them back (30_encoding.md R70). -/
@[simp] theorem splitWord_joinWord (c : CommandWord) : splitWord (joinWord c) = c := by
  have hopc : (joinWord c).extractLsb' 0 4 = c.opc :=
    (BitVec.extractLsb'_append_eq_of_add_le (by decide)).trans BitVec.extractLsb'_eq_self
  have hzero : (joinWord c).extractLsb' 4 28 = c.zero :=
    (BitVec.extractLsb'_append_eq_of_le (by decide)).trans BitVec.extractLsb'_eq_self
  rw [splitWord, hopc, hzero]

theorem decode_of_opcode {w : Word} {i : Instr} (hz : (splitWord w).zero = 0)
    (ho : (splitWord w).opc = opcodeOf i) : decode w = .ok i := by
  rw [decode, if_pos hz, ho, instrOfOpcode_opcodeOf]

theorem decode_of_unusedOpcode {w : Word} (hz : (splitWord w).zero = 0)
    (ho : instrOfOpcode (splitWord w).opc = none) : decode w = .error .unusedOpcode := by
  rw [decode, if_pos hz, ho]

theorem decode_of_nonzeroField {w : Word} (hz : (splitWord w).zero ≠ 0) : decode w = .error .nonzeroField :=
  if_neg hz

/-- The opcodes outside the map (30_encoding.md R72). -/
theorem instrOfOpcode_eq_none {o : BitVec 4} (h : o = 0x0 ∨ 0x7 ≤ o) : instrOfOpcode o = none := by
  revert o
  decide

/-- A command's word decodes to it (30_encoding.md R70, R71). -/
@[simp] theorem decode_encode (i : Instr) : decode (encode i) = .ok i :=
  have hsplit := splitWord_joinWord { opc := opcodeOf i, zero := 0 }
  decode_of_opcode (congrArg CommandWord.zero hsplit) (congrArg CommandWord.opc hsplit)

/-- Settles O5: a word that decodes is rebuilt from its fields (`eq_encode_of_decode`), and the fields of a command's
word are read back (`decode_encode`). -/
theorem decodeEncodeAgree : Obligations.DecodeEncodeAgree := by
  intro i w
  refine ⟨eq_encode_of_decode, ?_⟩
  rintro rfl
  exact decode_encode i

/-- Settles O3: six words are the encodings of their commands; the others have an opcode outside the map or a nonzero
`[31:4]`. -/
theorem commandWordsDecode : Obligations.CommandWordsDecode :=
  ⟨decode_encode .clr, decode_encode .count, decode_encode .build, decode_encode .derive, decode_encode .encode,
    decode_encode .decode, decode_of_unusedOpcode rfl (instrOfOpcode_eq_none (by decide)),
    decode_of_unusedOpcode rfl (instrOfOpcode_eq_none (by decide)), decode_of_nonzeroField (by decide)⟩

/-- Settles O4: by `[31:4]`, then by the opcode. -/
theorem decoderIsTotal : Obligations.DecoderIsTotal := by
  intro w
  refine ⟨fun hz => ⟨_, decode_of_nonzeroField hz⟩, fun hz => ?_⟩
  exact ⟨decode_of_opcode (i := .clr) hz, decode_of_opcode (i := .count) hz, decode_of_opcode (i := .build) hz,
    decode_of_opcode (i := .derive) hz, decode_of_opcode (i := .encode) hz, decode_of_opcode (i := .decode) hz,
    fun ho => ⟨_, decode_of_unusedOpcode hz (instrOfOpcode_eq_none ho)⟩⟩

/-! Stream items (30_encoding.md R74, R75). -/

/-- An input item is read by its kind. -/
theorem readItem_of_kind {n : Nat} {it : RawItem n} {k : BitVec 2} (h : it.kind = k) :
    readItem it = readItem { kind := k, data := it.data } := by rw [← h]

/-- Settles O11: each kind of an input item by `readItem_of_kind`; an output item's pins are its definition. -/
theorem streamItems : Obligations.StreamItems := by
  intro n
  refine ⟨fun it => ⟨?_, ?_, ?_, ?_⟩, fun v => rfl, rfl⟩
  · exact fun hdata => readItem_of_kind hdata
  · exact fun hend => readItem_of_kind hend
  · exact fun herror => readItem_of_kind herror
  · exact fun hreserved => readItem_of_kind hreserved

/-! The table words (30_encoding.md R76 to R78). -/

theorem readRegister_freq {s : State} (x : Sym) (hb : s.busy = false) :
    readRegister (.freq x) s = some (symEntry s.freq x) := if_neg (by simp [hb])

theorem readRegister_codelen {s : State} (x : Sym) (hb : s.busy = false) :
    readRegister (.codelen x) s = some (codelenWord (symEntry s.code x)) := if_neg (by simp [hb])

theorem readRegister_codebits {s : State} (x : Sym) (j : BitVec 3) (hb : s.busy = false) :
    readRegister (.codebits x j) s = some (codebitsWord (symEntry s.code x) j) := if_neg (by simp [hb])

/-- The fields of CODELEN (30_encoding.md R77): eight bits hold a length of at most 255 (10_state.md R19). -/
theorem codelenWord_fields {c : Bits} (h : c.length ≤ 255) :
    ((codelenWord c).extractLsb' 0 8).toNat = c.length ∧ (codelenWord c).extractLsb' 8 24 = 0 := by
  have hnat : (codelenWord c).toNat = c.length := by
    rw [codelenWord, BitVec.toNat_setWidth, BitVec.toNat_ofNat]
    omega
  constructor
  · rw [BitVec.extractLsb'_toNat, hnat]
    exact Nat.mod_eq_of_lt (by omega)
  · apply BitVec.eq_of_toNat_eq
    rw [BitVec.extractLsb'_toNat, hnat, Nat.shiftRight_eq_div_pow, Nat.div_eq_of_lt (by omega)]
    rfl

theorem getLsbD_codebitsWord (c : Bits) (j : BitVec 3) {t : Nat} (ht : t < 32) :
    (codebitsWord c j).getLsbD t = c.getD (32 * j.toNat + t) false := by
  rw [codebitsWord, BitVec.getLsbD_ofFnLE, dif_pos ht]

/-- Settles O9: the address map names the register, which shows its entry while BUSY = 0; the word is then read field
by field. -/
theorem tableWords : Obligations.TableWords := by
  intro s x hb hlen
  rw [registerAt_freq, registerAt_codelen]
  refine ⟨readRegister_freq x hb, fun v => ?_, ⟨_, readRegister_codelen x hb, codelenWord_fields hlen⟩, fun j => ?_⟩
  · rw [writeRegister_freq_idle x v hb, readRegister_freq x, symEntry_setSymEntry, if_pos rfl]
    exact hb
  · rw [registerAt_codebits]
    exact ⟨_, readRegister_codebits x j hb, fun t => getLsbD_codebitsWord _ j⟩

/-! The two words of a slot (30_encoding.md R79, R80, 10_state.md R35). -/

theorem readRegister_slot_dead {s : State} {i : Idx} (hl : s.live i = false) :
    readRegister (.nodeW i) s = none ∧ readRegister (.nodeL i) s = none :=
  ⟨if_pos (by simp [hl]), if_pos (by simp [hl])⟩

theorem readRegister_slot_live {s : State} {i : Idx} {n : Slot} (hb : s.busy = false) (hl : s.live i = true)
    (hn : slotAt s.node i = some n) :
    readRegister (.nodeW i) s = some n.w ∧ readRegister (.nodeL i) s = some (nodeLWord n) := by
  simp [readRegister, hb, hl, hn]

/-- The fields of NODE_L (30_encoding.md R80). -/
theorem nodeLWord_fields (n : Slot) :
    (nodeLWord n).extractLsb' 0 8 = n.sym ∧ (nodeLWord n).extractLsb' 8 9 = n.l ∧
      (nodeLWord n).extractLsb' 17 9 = n.r ∧ (nodeLWord n).extractLsb' 26 5 = 0 ∧
      (nodeLWord n).getLsbD 31 = n.leaf := by
  have skip := @BitVec.extractLsb'_append_eq_of_le
  have stop := @BitVec.extractLsb'_append_eq_of_add_le
  refine ⟨?_, ?_, ?_, ?_, ?_⟩
  case refine_5 =>
    simp only [nodeLWord, BitVec.getLsbD_append, BitVec.getLsbD_ofBool]
    simp
  all_goals
    unfold nodeLWord
    repeat rw [skip (by decide)]
    exact (stop (by decide)).trans BitVec.extractLsb'_eq_self

/-- An appended word, by arithmetic. -/
theorem toNat_append_eq_add {n m : Nat} (x : BitVec n) (y : BitVec m) :
    (x ++ y).toNat = x.toNat * 2 ^ m + y.toNat := by
  rw [BitVec.toNat_append, ← Nat.shiftLeft_add_eq_or_of_lt y.isLt, Nat.shiftLeft_eq]

/-- NODE_L as a number: each field at its place (30_encoding.md R80). -/
theorem toNat_nodeLWord (n : Slot) :
    (nodeLWord n).toNat = n.leaf.toNat * 2 ^ 31 + n.r.toNat * 2 ^ 17 + n.l.toNat * 2 ^ 8 + n.sym.toNat := by
  simp only [nodeLWord, toNat_append_eq_add, BitVec.toNat_ofBool, BitVec.toNat_ofNat]
  omega

/-- The word of a leaf (30_encoding.md R80). -/
theorem nodeLWord_leaf {n : Slot} (hleaf : n.leaf = true) (hl : n.l = Config.nil) (hr : n.r = Config.nil) :
    nodeLWord n = 0x83FFFF00#32 + n.sym.setWidth 32 := by
  have hw := toNat_nodeLWord n
  rw [hleaf, hl, hr] at hw
  simp only [Bool.toNat_true] at hw
  bv_omega

/-- The word of an internal slot (30_encoding.md R80): the two links do not overlap. -/
theorem nodeLWord_internal {n : Slot} (hleaf : n.leaf = false) (hsym : n.sym = 0) :
    nodeLWord n = (n.r.setWidth 32 <<< 17) ||| (n.l.setWidth 32 <<< 8) := by
  have hw := toNat_nodeLWord n
  rw [hleaf, hsym] at hw
  simp only [Bool.toNat_false] at hw
  have hr : (n.r.setWidth 32 <<< 17).toNat = n.r.toNat <<< 17 := by bv_omega
  have hl : (n.l.setWidth 32 <<< 8).toNat = n.l.toNat <<< 8 := by bv_omega
  have hlt : n.l.toNat <<< 8 < 2 ^ 17 := by bv_omega
  apply BitVec.eq_of_toNat_eq
  rw [BitVec.toNat_or, hr, hl, ← Nat.shiftLeft_add_eq_or_of_lt hlt, hw]
  bv_omega

/-- Settles O10: the address map names the register; a dead slot shows no word, a live one its weight and
`nodeLWord`, read field by field. -/
theorem nodeWords : Obligations.NodeWords := by
  intro s i hb hi
  rw [registerAt_nodeW hi, registerAt_nodeL hi]
  refine ⟨readRegister_slot_dead, fun n hl hn => ?_⟩
  obtain ⟨hweight, hword⟩ := readRegister_slot_live hb hl hn
  obtain ⟨hsym, hleft, hright, hzero, hleaf⟩ := nodeLWord_fields n
  exact ⟨hweight, nodeLWord n, hword, hsym, hleft, hright, hzero, hleaf, nodeLWord_leaf, nodeLWord_internal⟩

end Sys2Proof

namespace Sys2Proof

open Sys2Proof.Machine

/-! COUNT: its acceptance and its transfers, one equation each (40_frequency_counter.md R90 to R92). -/

theorem execCount_accept {s : State} (hb : s.busy = false) :
    exec .count s = .next (countStart (accept (opcodeOf .count) s)) :=
  streamMove_accept hb

theorem execCount_take {s : State} {it : RawItem 8} {rest : List (RawItem 8)} (hw : waitsToTake .count s)
    (hi : s.symIn = it :: rest) : exec .count s = .next (countItem (readItem it) { s with symIn := rest }) := by
  obtain ⟨hb, -, hp⟩ := hw
  rw [exec_count, streamMove_running hb, countTransfer_take hp, takeSym_cons hi]

theorem countItem_counts {s : State} {x : Sym} (h : symEntry s.freq x ≠ countMax) :
    countItem (.data x) s = { s with freq := setSymEntry s.freq x (symEntry s.freq x + 1) } :=
  if_neg h

theorem countItem_overflows {s : State} {x : Sym} (h : symEntry s.freq x = countMax) :
    countItem (.data x) s = raiseFault eCntOvf (x.setWidth 32) s :=
  if_pos h

/-- A symbol below the greatest count is counted, and COUNT goes on waiting (40_frequency_counter.md R90). -/
theorem execCount_counts {s : State} {it : RawItem 8} {rest : List (RawItem 8)} {x : Sym} (hw : waitsToTake .count s)
    (hi : s.symIn = it :: rest) (hit : readItem it = .data x) (h : symEntry s.freq x ≠ countMax) :
    exec .count s =
      .next { s with symIn := rest, freq := setSymEntry s.freq x (symEntry s.freq x + 1) } := by
  rw [execCount_take hw hi, hit, countItem_counts (s := { s with symIn := rest }) h]

/-- Below the greatest count the increment does not wrap around (40_frequency_counter.md R92). -/
theorem toNat_add_one_of_ne_countMax {w : Word} (h : w ≠ countMax) : (w + 1).toNat = w.toNat + 1 := by
  unfold countMax at h
  bv_omega

/-- Settles O22: the acceptance of COUNT is `countStart`. -/
theorem countStartsFresh : Obligations.CountStartsFresh := by
  intro s hb
  exact ⟨_, execCount_accept hb, symEntry_emptyFreq, ⟨rfl, rfl, rfl⟩, rfl, rfl⟩

/-- Settles O24: the transfer of END and of ERROR, read off `countItem`. -/
theorem countEnds : Obligations.CountEnds := by
  intro s it rest hw hi
  constructor
  · intro hit
    rw [execCount_take hw hi, hit]
    rfl
  · intro hit
    rw [execCount_take hw hi, hit]
    rfl

/-- Settles O23: the two cases of `countItem` on a symbol, by whether its count is the greatest. -/
theorem countTakesSymbol : Obligations.CountTakesSymbol := by
  intro s it rest x hw hi hit
  by_cases hmax : symEntry s.freq x = countMax
  · rw [execCount_take hw hi, hit, countItem_overflows (s := { s with symIn := rest }) hmax]
    exact ⟨_, rfl, rfl, fun _ _ => rfl, fun hne => absurd hmax hne,
      fun _ => ⟨hmax, ⟨rfl, rfl, hw.2.1⟩, rfl, rfl⟩⟩
  · refine ⟨_, execCount_counts hw hi hit hmax, rfl, fun y hy => ?_, fun _ => ⟨?_, hw, ⟨rfl, rfl⟩, rfl⟩,
      fun he => absurd he hmax⟩
    · rw [symEntry_setSymEntry, if_neg hy.symm]
    · rw [symEntry_setSymEntry, if_pos rfl]
      exact toNat_add_one_of_ne_countMax hmax

/-- A move of COUNT takes at most the head of SYM_IN (20_memory.md R52). -/
theorem execCount_symIn {s t : State} (h : exec .count s = .next t) :
    t.symIn = s.symIn ∨ ∃ it, s.symIn = it :: t.symIn := by
  rcases streamMove_cases h with ⟨-, rfl⟩ | ⟨-, h⟩
  · exact .inl rfl
  rcases countTransfer_cases h with ⟨-, -, rfl⟩ | ⟨it, rest, -, hi, rfl⟩
  · exact .inl rfl
  · exact .inr ⟨it, by rw [hi, countItem_symIn]⟩

/-- Settles O25: `execCount_changes` names the elements that may change, `execCount_symIn` what SYM_IN loses. -/
theorem countFrame : Obligations.CountFrame := by
  intro s t h
  have hsym := execCount_symIn h
  rw [execCount_changes h]
  exact ⟨⟨rfl, rfl, rfl, rfl⟩, rfl, rfl, rfl, rfl, ⟨rfl, rfl⟩, rfl, ⟨rfl, rfl⟩, rfl, rfl, rfl, hsym,
    ⟨rfl, rfl, rfl, rfl, rfl, rfl⟩⟩

/-! Runs of one command: the write of its word, then moves of the core (30_encoding.md R81). -/

/-- The word of a command written to CMD is the command's first move (45_job_control.md R151). -/
theorem step_commandWritten {i : Instr} {s : State} (hb : s.busy = false) (he : s.errcode = 0 ∨ i = .clr) :
    step { s with script := [.hWrite 0 (encode i)] } = exec i { s with script := [] } := by
  have hoffer := offerCommand_accepted (s := { s with script := [] }) hb (he.imp_right (congrArg encode))
  rw [decode_encode] at hoffer
  rw [step_scheduled rfl]
  exact hoffer

/-- With nothing scheduled the running command moves (45_job_control.md R153). -/
theorem step_running {i : Instr} {s : State} (hb : s.busy = true) (ho : s.op = opcodeOf i) (hs : s.script = []) :
    step s = exec i s :=
  (step_core hs).trans (coreMove_runs hb ho)

/-! COUNT on a whole input (40_frequency_counter.md R94). -/

/-- One symbol counted, then the occurrences in the rest, are the occurrences in the whole. -/
theorem toNat_counted_add_count {f : Vector Word Config.nsym} {y : Sym} (h : symEntry f y ≠ countMax) (ys : List Sym)
    (x : Sym) : (symEntry (setSymEntry f y (symEntry f y + 1)) x).toNat + ys.count x =
      (symEntry f x).toNat + (y :: ys).count x := by
  rw [symEntry_setSymEntry]
  by_cases hx : y = x
  · subst hx
    rw [if_pos rfl, toNat_add_one_of_ne_countMax h, List.count_cons_self, Nat.add_right_comm, Nat.add_assoc]
  · rw [if_neg hx, List.count_cons_of_ne hx]

/-- From any counts that leave room for the input, the transfers of `xs END` add to every count the occurrences of its
symbol, and finish. -/
theorem countRun_adds {s : State} {xs : List Sym} {rest : List (RawItem 8)} (hw : waitsToTake .count s)
    (hs : s.script = []) (hi : s.symIn = xs.map symItem ++ endOfInput 8 :: rest)
    (hroom : ∀ x, (symEntry s.freq x).toNat + xs.count x < 2 ^ 32) :
    ∃ f, Reaches s (finish { s with freq := f, symIn := rest }) ∧
      ∀ x, (symEntry f x).toNat = (symEntry s.freq x).toNat + xs.count x := by
  induction xs generalizing s with
  | nil =>
    have hstep : step s = .next (finish { s with symIn := rest }) :=
      (step_running hw.1 hw.2.1 hs).trans ((countEnds s _ _ hw hi).1 rfl)
    exact ⟨s.freq, .head hstep (.refl _), fun _ => rfl⟩
  | cons y ys ih =>
    have hmax : symEntry s.freq y ≠ countMax := by
      intro he
      have hy := hroom y
      rw [he, List.count_cons_self] at hy
      have : countMax.toNat = 2 ^ 32 - 1 := rfl
      omega
    have hstep := (step_running hw.1 hw.2.1 hs).trans (execCount_counts hw hi (readItem_symItem y) hmax)
    have hadd := toNat_counted_add_count hmax ys
    obtain ⟨f, hrun, hf⟩ := ih (s := { s with
        symIn := ys.map symItem ++ endOfInput 8 :: rest,
        freq := setSymEntry s.freq y (symEntry s.freq y + 1) })
      hw hs rfl (fun x => (hadd x).trans_lt (hroom x))
    exact ⟨f, .head hstep hrun, fun x => (hf x).trans (hadd x)⟩

/-- Counts that are the occurrences in a list add up to its length (40_frequency_counter.md R94). -/
theorem freqSum_eq_length {f : Vector Word Config.nsym} {xs : List Sym}
    (h : ∀ x, (symEntry f x).toNat = xs.count x) : freqSum f = xs.length := by
  have hcount : ∀ i : Fin 256, f[i].toNat = (xs.map BitVec.toFin).count i := fun i =>
    (h (BitVec.ofFin i)).trans
      (List.count_map_of_injective xs BitVec.toFin (fun _ _ => BitVec.eq_of_toFin_eq) (BitVec.ofFin i)).symm
  calc freqSum f = ((List.finRange 256).map fun i => (xs.map BitVec.toFin).count i).sum := by
        rw [freqSum, toList_eq_map_finRange, List.map_map]
        exact congrArg List.sum (List.map_congr_left fun i _ => hcount i)
    _ = ∑ i : Fin 256, Multiset.count i (xs.map BitVec.toFin) := by
        rw [Fin.sum_univ_def]
        simp
    _ = xs.length := by
        rw [Multiset.sum_count_eq_card fun _ _ => Finset.mem_univ _]
        simp

/-- COUNT on the input `xs END`, from its word to its end: the state it leaves, with the exact counts. -/
theorem count_reaches_finish {s : State} {xs : List Sym} {rest : List (RawItem 8)} (ha : acceptsCommand s)
    (hlt : ∀ x, xs.count x < 2 ^ 32) (hi : s.symIn = xs.map symItem ++ endOfInput 8 :: rest) :
    ∃ f, Reaches { s with script := [.hWrite 0 (encode .count)] }
        (finish { accept (opcodeOf .count) s with freq := f, symIn := rest, script := [] }) ∧
      ∀ x, (symEntry f x).toNat = xs.count x := by
  obtain ⟨hb, he⟩ := ha
  have hstart := (step_commandWritten (i := .count) hb (.inl he)).trans (execCount_accept hb)
  obtain ⟨f, hrun, hf⟩ := countRun_adds (s := countStart (accept (opcodeOf .count) { s with script := [] }))
    ⟨rfl, rfl, rfl⟩ rfl hi (fun x => by simpa [countStart] using hlt x)
  exact ⟨f, .head hstart hrun, fun x => by simpa [countStart] using hf x⟩

/-- Settles O26: the run of COUNT on the whole input, by induction over the input, and the sum of exact counts. -/
theorem countIsExact : Obligations.CountIsExact := by
  intro s xs rest ha hlt hi
  obtain ⟨f, hrun, hf⟩ := count_reaches_finish ha hlt hi
  exact ⟨_, ⟨hrun, rfl, rfl⟩, ⟨rfl, rfl, rfl⟩, ha.2, rfl, hf, freqSum_eq_length hf, ⟨rfl, rfl, rfl, rfl⟩, rfl⟩

end Sys2Proof

namespace Sys2Proof

open Sys2Proof.Machine

/-! BUILD: one merge of a forest, and what all merges keep (41_tree_builder.md R104). -/

/-- `i` is before `j` in the order of the collection (41_tree_builder.md R106). -/
def Machine.Store.before (b : Store) (i j : Idx) : Prop :=
  b.weightAt i < b.weightAt j ∨ (b.weightAt i = b.weightAt j ∧ i < j)

/-- `b'` is `b` after a merge of its members `m₁` and `m₂` into slot NEXT. -/
structure Joins (b b' : Store) (m₁ m₂ : Idx) : Prop where
  start : 256 ≤ b.next.toNat
  next : b'.next.toNat = b.next.toNat + 1
  fresh : ∀ j, b.has j = true → j.toNat < b.next.toNat
  first : b.has m₁ = true
  second : b.has m₂ = true
  ordered : b.before m₁ m₂
  least : ∀ j, b.has j = true → j ≠ m₁ → j ≠ m₂ → b.before m₂ j
  slotNew : slotAt b'.node b.next = some (joinSlot m₁ (b.weightAt m₁) m₂ (b.weightAt m₂))
  slotOld : ∀ j, j ≠ b.next → slotAt b'.node j = slotAt b.node j
  members : ∀ j, b'.has j = true ↔ j = b.next ∨ (b.has j = true ∧ j ≠ m₁ ∧ j ≠ m₂)

theorem Forest.joins {b b' : Store} {F : List (Idx × Tree)} {L : List (Sym × Nat)} (h : Forest b F L)
    (hnext : b.next.toNat < 511) (hm : b.merge = some b') : ∃ m₁ m₂, Joins b b' m₁ m₂ := by
  obtain ⟨m₁, m₂, l₁, l₂, hn, hslot, hhas⟩ := merge_effect hm hnext
  have h₂ : b.has m₂ = true ∧ m₁ ≠ m₂ := by
    have := l₂.1
    rw [remove_has] at this
    split at this
    case isTrue => cases this
    case isFalse hne => exact ⟨this, hne⟩
  have notNext : ∀ j, b.has j = true → j ≠ b.next := by
    rintro j hj rfl
    exact Nat.lt_irrefl _ (h.has_lt_next hj)
  refine ⟨m₁, m₂, h.start, hn, fun j hj => h.has_lt_next hj, l₁.1, h₂.1, l₁.2 m₂ h₂.1 h₂.2.symm, fun j hj h1 h2 => ?_,
    by rw [hslot, if_pos rfl], fun j hj => by rw [hslot, if_neg hj.symm], fun j => ?_⟩
  · exact l₂.2 j (by rw [remove_has, if_neg h1.symm, hj]) h2
  · rw [hhas]
    by_cases hj : b.next = j
    · simp [hj]
    · by_cases h2 : m₂ = j
      · simp [hj, h2, Ne.symm hj]
      · by_cases h1 : m₁ = j
        · simp [hj, h1, h2, Ne.symm hj]
        · simp [hj, h1, h2, Ne.symm hj, Ne.symm h1, Ne.symm h2]

/-- What every merge of a forest over the mapping keeps, BUILD's collection keeps from its leaves to its end. -/
theorem buildStore_keeps {freq : Vector Word Config.nsym} {node : Vector Slot Config.nnode} {P : Store → Prop}
    (hsum : freqSum freq < 2 ^ 32) (h0 : P (makeLeaves freq node))
    (step : ∀ {b b' F F' m₁ m₂}, Forest b F (mapping freq) → Forest b' F' (mapping freq) → Joins b b' m₁ m₂ →
      P b → P b') : P (buildStore freq node) := by
  have hL : (mapping freq).length ≤ 256 := by rw [mapping_length]; exact leafCount_le freq
  have hS : ((mapping freq).map (·.2)).sum < 2 ^ 32 := by rw [mapping_sum]; exact hsum
  suffices ∀ fuel b F, Forest b F (mapping freq) → P b → P (b.mergeAll fuel) from
    this _ _ _ (makeLeaves_forest freq node) h0
  intro fuel
  induction fuel with
  | zero => exact fun b F _ hP => hP
  | succ fuel ih =>
    intro b F hF hP
    rw [Store.mergeAll]
    split
    case h_1 => exact hP
    case h_2 b' hm =>
      obtain ⟨F', hF', hlen, hin, -⟩ := hF.merge hL hS hm
      have hpos : 0 < F'.length := by simpa using List.length_pos_of_mem hin
      have hcount := hF.count
      obtain ⟨m₁, m₂, hj⟩ := hF.joins (by omega) hm
      exact ih b' F' hF' (step hF hF' hj hP)

section
variable {b b' : Store} {m₁ m₂ : Idx}

theorem Machine.Store.ne_next {i : Idx} (hi : i.toNat < b.next.toNat) : i ≠ b.next := by
  rintro rfl
  exact Nat.lt_irrefl _ hi

theorem Joins.eq_next (h : Joins b b' m₁ m₂) {i : Idx} (hi : i.toNat < b'.next.toNat)
    (hge : ¬ i.toNat < b.next.toNat) : i = b.next :=
  BitVec.eq_of_toNat_eq (by have := h.next; omega)

theorem Joins.weightAt_old (h : Joins b b' m₁ m₂) {i : Idx} (hi : i.toNat < b.next.toNat) :
    b'.weightAt i = b.weightAt i := by
  rw [Store.weightAt, Store.weightAt, h.slotOld i (Store.ne_next hi)]

theorem Joins.before_old (h : Joins b b' m₁ m₂) {i j : Idx} (hi : i.toNat < b.next.toNat)
    (hj : j.toNat < b.next.toNat) : b'.before i j ↔ b.before i j := by
  rw [Store.before, Store.before, h.weightAt_old hi, h.weightAt_old hj]

/-! BUILD: the order of the merges (41_tree_builder.md R104, R106). -/

/-- `c` waits at the merge into slot `i`: it is still in the collection, or a later slot has taken it. -/
def Waiting (b : Store) (i c : Idx) : Prop :=
  b.has c = true ∨ ∃ (j : Idx) (m : Slot), i.toNat < j.toNat ∧ j.toNat < b.next.toNat ∧
    slotAt b.node j = some m ∧ (c = m.l ∨ c = m.r)

/-- Every merge so far took the two least members: left before right, and right before all that waited. -/
def MergesOrdered (b : Store) : Prop :=
  ∀ (i : Idx) (n : Slot), 256 ≤ i.toNat → i.toNat < b.next.toNat → slotAt b.node i = some n →
    b.before n.l n.r ∧ ∀ c : Idx, c.toNat < i.toNat → Waiting b i c → b.before n.r c

/-- What waits after a merge, waited before it. -/
theorem Joins.waiting (h : Joins b b' m₁ m₂) {i c : Idx} (hi : i.toNat < b.next.toNat) (hc : c.toNat < i.toNat)
    (hw : Waiting b' i c) : Waiting b i c := by
  rcases hw with hhas | ⟨j, m, hij, hj, hm, hch⟩
  · rcases (h.members c).mp hhas with rfl | ⟨hhas, -⟩
    · omega
    · exact .inl hhas
  · by_cases hlt : j.toNat < b.next.toNat
    · exact .inr ⟨j, m, hij, hlt, (h.slotOld j (Store.ne_next hlt)).symm.trans hm, hch⟩
    · obtain rfl := h.eq_next hj hlt
      cases h.slotNew.symm.trans hm
      rcases hch with rfl | rfl
      · exact .inl h.first
      · exact .inl h.second

theorem MergesOrdered.join {F : List (Idx × Tree)} {L : List (Sym × Nat)} (hF : Forest b F L)
    (h : Joins b b' m₁ m₂) (ho : MergesOrdered b) : MergesOrdered b' := by
  intro i n hlo hhi hn
  by_cases hi : i.toNat < b.next.toNat
  · rw [h.slotOld i (Store.ne_next hi)] at hn
    obtain ⟨n', _, _, hn', -, -, hl, hr, -⟩ := hF.inner i hlo hi
    cases hn.symm.trans hn'
    obtain ⟨hpair, hrest⟩ := ho i n hlo hi hn
    refine ⟨(h.before_old (by omega) (by omega)).mpr hpair, fun c hc hw => ?_⟩
    exact (h.before_old (by omega) (by omega)).mpr (hrest c hc (h.waiting hi hc hw))
  · obtain rfl := h.eq_next hhi hi
    cases h.slotNew.symm.trans hn
    have h1 := h.fresh _ h.first
    have h2 := h.fresh _ h.second
    refine ⟨(h.before_old h1 h2).mpr h.ordered, fun c hc hw => (h.before_old h2 hc).mpr ?_⟩
    rcases hw with hhas | ⟨j, -, hij, hj, -⟩
    · rcases (h.members c).mp hhas with rfl | ⟨hhas, hne1, hne2⟩
      · exact absurd hc (Nat.lt_irrefl _)
      · exact h.least c hhas hne1 hne2
    · have := h.next
      omega

theorem buildStore_mergesOrdered (freq : Vector Word Config.nsym) (node : Vector Slot Config.nnode)
    (hsum : freqSum freq < 2 ^ 32) : MergesOrdered (buildStore freq node) :=
  buildStore_keeps hsum (fun _ _ hlo hhi => absurd hhi (Nat.not_lt.mpr hlo)) fun hF _ hj => MergesOrdered.join hF hj

theorem Machine.Store.weightAt_of_slot {i : Idx} {n : Slot} (h : slotAt b.node i = some n) : b.weightAt i = n.w := by
  rw [Store.weightAt, h]

theorem Machine.Store.weight_le_of_before {i j : Idx} (h : b.before i j) :
    (b.weightAt i).toNat ≤ (b.weightAt j).toNat := by
  rcases h with h | ⟨h, -⟩
  · exact Nat.le_of_lt h
  · rw [h]

/-- The children of an internal slot and its weight, the sum of theirs (10_state.md R16, R18). -/
theorem InternalOk.weightAt {i : Idx} (h : InternalOk b.node i) : ∃ n, slotAt b.node i = some n ∧
    n.l.toNat < i.toNat ∧ n.r.toNat < i.toNat ∧ n.l ≠ n.r ∧
    (b.weightAt i).toNat = (b.weightAt n.l).toNat + (b.weightAt n.r).toNat := by
  obtain ⟨n, n₁, n₂, hn, -, -, hl, hr, hne, -, -, hn₁, hn₂, hw⟩ := h
  refine ⟨n, hn, hl, hr, hne, ?_⟩
  rw [Store.weightAt_of_slot hn, Store.weightAt_of_slot hn₁, Store.weightAt_of_slot hn₂, hw]

/-- An internal slot weighs no more than the next one: of the next one's children, at most one is the slot itself, and
the other waited when the slot was made. -/
theorem MergesOrdered.weight_succ {root : Idx} (ho : MergesOrdered b) (hs : StoreOk b.node root)
    (hnext : b.next.toNat = root.toNat + 1) {i j : Idx} (hlo : 256 ≤ i.toNat) (hij : j.toNat = i.toNat + 1)
    (hj : j.toNat ≤ root.toNat) : (b.weightAt i).toNat ≤ (b.weightAt j).toNat := by
  obtain ⟨n, hn, -, -, -, hw⟩ := (hs.2.2 i hlo (by omega)).weightAt
  obtain ⟨m, hm, hl, hr, hne, hv⟩ := (hs.2.2 j (by omega) hj).weightAt
  obtain ⟨hpair, hrest⟩ := ho i n hlo (by omega) hn
  have hle := Store.weight_le_of_before hpair
  have waited : ∀ c : Idx, c = m.l ∨ c = m.r → c ≠ i → (b.weightAt n.r).toNat ≤ (b.weightAt c).toNat := by
    intro c hc hci
    have : c.toNat ≠ i.toNat := fun e => hci (BitVec.eq_of_toNat_eq e)
    exact Store.weight_le_of_before
      (hrest c (by rcases hc with rfl | rfl <;> omega) (.inr ⟨j, m, by omega, by omega, hm, hc⟩))
  by_cases hli : m.l = i
  · rw [hv, hli]
    exact Nat.le_add_right _ _
  · have := waited m.l (.inl rfl) hli
    by_cases hri : m.r = i
    · rw [hv, hri]
      exact Nat.le_add_left _ _
    · have := waited m.r (.inr rfl) hri
      omega

/-- The weights of the internal slots do not decrease. -/
theorem MergesOrdered.weight_mono {root : Idx} (ho : MergesOrdered b) (hs : StoreOk b.node root)
    (hnext : b.next.toNat = root.toNat + 1) {i : Idx} (hlo : 256 ≤ i.toNat) {d : Nat} :
    ∀ j : Idx, j.toNat = i.toNat + d → j.toNat ≤ root.toNat → (b.weightAt i).toNat ≤ (b.weightAt j).toNat := by
  induction d with
  | zero => exact fun j e _ => by rw [BitVec.eq_of_toNat_eq e]
  | succ d ih =>
    intro j e hj
    have hlt := j.isLt
    have hprev : (j - 1).toNat = i.toNat + d := by
      rw [BitVec.toNat_sub, show (1 : Idx).toNat = 1 from rfl]
      omega
    exact (ih (j - 1) hprev (by omega)).trans (ho.weight_succ hs hnext (by omega) (by omega) hj)

/-- When its effect is due, BUILD's move is `buildEffect`, in the state with BUILD running. -/
theorem execBuild_due {s : State} (hdue : effectDue .build s) :
    ∃ b d, exec .build s = .next (buildEffect { s with busy := b, done := d, op := opcodeOf .build }) :=
  atomicMove_effectDue (effect := fun t => .next (buildEffect t)) hdue

/-- With two counts or more and no overflow BUILD leaves the store of its merges, the tree rooted in the last slot
made (41_tree_builder.md R105). -/
theorem execBuild_tree {s : State} (hdue : effectDue .build s) (hk : 2 ≤ leafCount s.freq)
    (hsum : freqSum s.freq < 2 ^ 32) : ∃ t T, exec .build s = .next t ∧
      t.node = (buildStore s.freq s.node).node ∧ t.tree = some T ∧
      treeAt (buildStore s.freq s.node).node (Config.lenMax + 1) t.rootIdx = some T ∧
      T.weightsOk ∧ T.leaves.Perm (mapping s.freq) ∧
      StoreOk (buildStore s.freq s.node).node t.rootIdx ∧
      (∀ i, (buildStore s.freq s.node).has i = true ↔ i = t.rootIdx) ∧
      (buildStore s.freq s.node).next.toNat = t.rootIdx.toNat + 1 := by
  obtain ⟨busy, done, hexec⟩ := execBuild_due hdue
  obtain ⟨⟨root', T', hF⟩, -⟩ := buildStore_forest s.freq s.node (by omega) hsum
  obtain ⟨h0, -⟩ | ⟨-, root, w, T, hl, hstore, ht, hw, hp, hmem, hroot⟩ := buildStore_spec s.freq s.node hsum
  · omega
  have heff := buildEffect_of_least (s := { s with busy := busy, done := done, op := opcodeOf .build }) hsum hl
  refine ⟨_, T, hexec.trans (congrArg _ heff), rfl, ht, ht, hw, hp, hstore, hmem, ?_⟩
  have hcount := hF.count
  rw [mapping_length] at hcount
  simp only [List.length_cons, List.length_nil] at hcount
  have : root.toNat = _ := hroot hk
  change _ = root.toNat + 1
  omega

end

/-- Settles O31: every merge keeps `MergesOrdered`; the weights of neighbouring slots follow from it. -/
theorem buildMergesTheLightest : Obligations.BuildMergesTheLightest := by
  intro s hdue hk hsum
  obtain ⟨t, T, hexec, hnode, -, -, -, -, hstore, -, hnext⟩ := execBuild_tree hdue hk hsum
  have ho := buildStore_mergesOrdered s.freq s.node hsum
  refine ⟨t, hexec, ?_⟩
  rw [hnode]
  refine ⟨fun i n a d hlo hhi hn ha hd => ?_, fun i i' c n m d e hlo hii' hhi hn hm hc hci hd he => ?_,
    fun i j n m hlo hij hhi hn hm => ?_⟩
  · have := (ho i n hlo (by omega) hn).1
    rwa [Store.before, Store.weightAt_of_slot ha, Store.weightAt_of_slot hd] at this
  · have := (ho i n hlo (by omega) hn).2 c hci (.inr ⟨i', m, hii', by omega, hm, hc⟩)
    rwa [Store.before, Store.weightAt_of_slot hd, Store.weightAt_of_slot he] at this
  · have := ho.weight_mono hstore hnext hlo (d := j.toNat - i.toNat) j (by omega) hhi
    rwa [Store.weightAt_of_slot hn, Store.weightAt_of_slot hm] at this

end Sys2Proof

namespace Sys2Proof

open Sys2Proof.Machine

/-! Code lengths: the Kraft sum and the cost, and what joining the two lightest entries does to them. -/

section
variable {ι : Type}

/-- The Kraft sum of the code lengths `ℓ` of the entries in `S`. -/
def kraft (S : Finset ι) (ℓ : ι → ℕ) : ℚ := ∑ i ∈ S, (1 / 2) ^ ℓ i

/-- The cost of the code lengths `ℓ` for the weights `w` of the entries in `S`. -/
def lengthCost (S : Finset ι) (w ℓ : ι → ℕ) : ℕ := ∑ i ∈ S, w i * ℓ i

variable {S : Finset ι} {w ℓ : ι → ℕ} {a b p : ι}

/-- The Kraft sum of lengths of at most `n` is a multiple of `2^(-n)`, so below 1 it leaves room for one more. -/
theorem kraft_room {n : ℕ} (hn : ∀ i ∈ S, ℓ i ≤ n) (h : kraft S ℓ < 1) : kraft S ℓ + (1 / 2) ^ n ≤ 1 := by
  have hpow : (0 : ℚ) < 2 ^ n := by positivity
  have hscale : kraft S ℓ * 2 ^ n = ((∑ i ∈ S, 2 ^ (n - ℓ i) : ℕ) : ℚ) := by
    rw [kraft, Finset.sum_mul]
    push_cast
    refine Finset.sum_congr rfl fun i hi => ?_
    rw [pow_sub₀ _ two_ne_zero (hn i hi), mul_comm, one_div, inv_pow]
  have hlt : (∑ i ∈ S, 2 ^ (n - ℓ i)) + 1 ≤ 2 ^ n := by
    have : ((∑ i ∈ S, 2 ^ (n - ℓ i) : ℕ) : ℚ) < ((2 ^ n : ℕ) : ℚ) := by
      rw [← hscale]
      push_cast
      nlinarith
    exact_mod_cast this
  have hle : kraft S ℓ * 2 ^ n + 1 ≤ 2 ^ n := by
    rw [hscale]
    exact_mod_cast hlt
  have hone : (1 / 2 : ℚ) ^ n * 2 ^ n = 1 := by rw [← mul_pow]; norm_num
  nlinarith

variable [DecidableEq ι]

theorem kraft_erase (ha : a ∈ S) : kraft S ℓ = (1 / 2) ^ ℓ a + kraft (S.erase a) ℓ :=
  (Finset.add_sum_erase S (fun i => (1 / 2 : ℚ) ^ ℓ i) ha).symm

theorem lengthCost_erase (ha : a ∈ S) : lengthCost S w ℓ = w a * ℓ a + lengthCost (S.erase a) w ℓ :=
  (Finset.add_sum_erase S (fun i => w i * ℓ i) ha).symm

theorem swap_mem_iff (ha : a ∈ S) (hp : p ∈ S) {i : ι} : Equiv.swap a p i ∈ S ↔ i ∈ S := by
  rw [Equiv.swap_apply_def]
  split
  case isTrue hi => simp [hi, ha, hp]
  case isFalse =>
    split
    case isTrue hi => simp [hi, ha, hp]
    case isFalse => rfl

theorem kraft_swap (ha : a ∈ S) (hp : p ∈ S) : kraft S (ℓ ∘ Equiv.swap a p) = kraft S ℓ :=
  Finset.sum_equiv (Equiv.swap a p) (fun _ => (swap_mem_iff ha hp).symm) fun _ _ => rfl

/-- Giving the lighter of two entries the longer of their codes does not raise the cost. -/
theorem lengthCost_swap_le (ha : a ∈ S) (hp : p ∈ S) (hw : w a ≤ w p) (hl : ℓ a ≤ ℓ p) :
    lengthCost S w (ℓ ∘ Equiv.swap a p) ≤ lengthCost S w ℓ := by
  by_cases hap : a = p
  · subst hap
    simp
  have hp' : p ∈ S.erase a := Finset.mem_erase.mpr ⟨Ne.symm hap, hp⟩
  have hrest : lengthCost ((S.erase a).erase p) w (ℓ ∘ Equiv.swap a p) = lengthCost ((S.erase a).erase p) w ℓ := by
    refine Finset.sum_congr rfl fun i hi => ?_
    simp only [Finset.mem_erase] at hi
    rw [Function.comp_apply, Equiv.swap_apply_of_ne_of_ne hi.2.1 hi.1]
  rw [lengthCost_erase ha, lengthCost_erase ha, lengthCost_erase hp', lengthCost_erase hp', hrest]
  simp only [Function.comp_apply, Equiv.swap_apply_left, Equiv.swap_apply_right]
  have := mul_add_mul_le_mul_add_mul hw hl
  omega

/-- The lightest entry may have the longest code: some exchange of codes brings this about at no cost. -/
theorem exists_longest (ha : a ∈ S) (hw : ∀ i ∈ S, w a ≤ w i) : ∃ p ∈ S,
    (∀ i ∈ S, (ℓ ∘ Equiv.swap a p) i ≤ (ℓ ∘ Equiv.swap a p) a) ∧
      lengthCost S w (ℓ ∘ Equiv.swap a p) ≤ lengthCost S w ℓ := by
  obtain ⟨p, hp, hmax⟩ := S.exists_max_image ℓ ⟨a, ha⟩
  refine ⟨p, hp, fun i hi => ?_, lengthCost_swap_le ha hp (hw p hp) (hmax a ha)⟩
  simpa using hmax _ ((swap_mem_iff ha hp).mpr hi)

/-- Joining the two lightest entries: whatever the lengths, the rest with one entry of the joint weight has lengths
whose cost is less by at least the joint weight. -/
theorem exists_joined_lengths (ha : a ∈ S) (hb : b ∈ S) (hab : a ≠ b) (hwa : ∀ i ∈ S, w a ≤ w i)
    (hwb : ∀ i ∈ S, i ≠ a → w b ≤ w i) (hK : kraft S ℓ ≤ 1) :
    ∃ (ℓ' : ι → ℕ) (n : ℕ), (1 / 2) ^ n + kraft ((S.erase a).erase b) ℓ' ≤ 1 ∧
      (w a + w b) * n + lengthCost ((S.erase a).erase b) w ℓ' + (w a + w b) ≤ lengthCost S w ℓ := by
  obtain ⟨p, hp, hmax₁, hcost₁⟩ := exists_longest (ℓ := ℓ) ha hwa
  rw [← kraft_swap ha hp] at hK
  generalize ℓ ∘ Equiv.swap a p = ℓ₁ at hmax₁ hcost₁ hK
  have hb' : b ∈ S.erase a := Finset.mem_erase.mpr ⟨hab.symm, hb⟩
  obtain ⟨q, hq, hmax₂, hcost₂⟩ := exists_longest (ℓ := ℓ₁) hb' (w := w) fun i hi =>
    hwb i (Finset.mem_of_mem_erase hi) (Finset.ne_of_mem_erase hi)
  have hle : (ℓ₁ ∘ Equiv.swap b q) b ≤ ℓ₁ a := by
    simpa using hmax₁ q (Finset.mem_of_mem_erase hq)
  rw [kraft_erase ha, ← kraft_swap hb' hq] at hK
  rw [lengthCost_erase ha] at hcost₁
  generalize ℓ₁ ∘ Equiv.swap b q = ℓ₂ at hmax₂ hcost₂ hle hK
  have hroom := kraft_room hmax₂ (by
    have : (0 : ℚ) < (1 / 2) ^ ℓ₁ a := by positivity
    linarith)
  rw [kraft_erase hb'] at hroom
  rw [lengthCost_erase hb'] at hcost₂
  obtain ⟨n, hn⟩ : ∃ n, ℓ₂ b = n + 1 := by
    refine Nat.exists_eq_succ_of_ne_zero fun h0 => ?_
    have : 0 ≤ kraft ((S.erase a).erase b) ℓ₂ := Finset.sum_nonneg fun _ _ => by positivity
    rw [h0, pow_zero] at hroom
    linarith
  refine ⟨ℓ₂, n, ?_, ?_⟩
  · rw [hn, pow_succ] at hroom
    linarith
  · have := Nat.mul_le_mul_left (w a) hle
    rw [hn] at this hcost₂
    nlinarith

end

end Sys2Proof

namespace Sys2Proof

open Sys2Proof.Machine

/-! BUILD: the cost of its tree against the lengths of any code (41_tree_builder.md R111). -/

/-- The collection as a set. -/
def Machine.Store.collection (b : Store) : Finset Idx := Finset.univ.filter fun i => b.has i = true

/-- The sum of the weights of the internal nodes of the tree below slot `i`. -/
def Machine.Store.innerSum (b : Store) (i : Idx) : ℕ :=
  ((treeAt b.node (Config.lenMax + 1) i).map fun t => t.innerWeights.sum).getD 0

/-- Some code lengths for the roots in the collection, with a Kraft sum of at most 1, cost together with the internal
weights below the roots no more than `C`. -/
def CostWithin (C : ℕ) (b : Store) : Prop :=
  ∃ ℓ : Idx → ℕ, kraft b.collection ℓ ≤ 1 ∧
    lengthCost b.collection (fun i => (b.weightAt i).toNat) ℓ + ∑ i ∈ b.collection, b.innerSum i ≤ C

section
variable {b b' : Store} {F F' : List (Idx × Tree)} {L : List (Sym × Nat)} {m₁ m₂ : Idx}

@[simp] theorem mem_collection {i : Idx} : i ∈ b.collection ↔ b.has i = true := by
  simp [Store.collection]

theorem innerSum_eq {i : Idx} {t : Tree} (h : treeAt b.node (Config.lenMax + 1) i = some t) :
    b.innerSum i = t.innerWeights.sum := by
  rw [Store.innerSum, h]
  rfl

theorem levels_le {i : Idx} (hi : i.toNat < 511) : levels i ≤ Config.lenMax + 1 := by
  unfold levels Config.lenMax
  split <;> omega

/-- Below every root of the forest stands its tree, with fuel for every tree BUILD makes. -/
theorem Forest.tree_of_mem (h : Forest b F L) {e : Idx × Tree} (he : e ∈ F) :
    treeAt b.node (Config.lenMax + 1) e.1 = some e.2 :=
  treeAt_mono (levels_le (has_lt ((h.members e.1).mpr (List.mem_map_of_mem he)))) (h.trees e he).1

theorem Forest.tree_of_has (h : Forest b F L) {i : Idx} (hi : b.has i = true) :
    ∃ t, treeAt b.node (Config.lenMax + 1) i = some t := by
  obtain ⟨e, he, rfl⟩ := List.mem_map.mp ((h.members i).mp hi)
  exact ⟨e.2, h.tree_of_mem he⟩

/-- A sum over the collection is a sum over the forest. -/
theorem Forest.sum_collection {M : Type} [AddCommMonoid M] (h : Forest b F L) (f : Idx → M) :
    ∑ i ∈ b.collection, f i = (F.map fun e => f e.1).sum := by
  have : b.collection = (F.map (·.1)).toFinset := by
    ext i
    rw [mem_collection, List.mem_toFinset, h.members]
  rw [this, List.sum_toFinset f h.nodup, List.map_map]
  rfl

/-- A merge leaves the trees it does not take as they were. -/
theorem Joins.treeAt_old (h : Joins b b' m₁ m₂) (hF : Forest b F L) {f : Nat} {i : Idx} {t : Tree}
    (hi : b.has i = true) (ht : treeAt b.node f i = some t) : treeAt b'.node f i = some t := by
  obtain ⟨e, he, rfl⟩ := List.mem_map.mp ((hF.members i).mp hi)
  exact treeAt_congr (P := fun i => i.toNat < b.next.toNat ∧ ChildOk b.node i)
    (fun j hj => h.slotOld j (Store.ne_next hj.1)) hF.down (hF.below e he) ht

theorem Joins.innerSum_old (h : Joins b b' m₁ m₂) (hF : Forest b F L) {i : Idx} (hi : b.has i = true) :
    b'.innerSum i = b.innerSum i := by
  obtain ⟨t, ht⟩ := hF.tree_of_has hi
  rw [innerSum_eq ht, innerSum_eq (h.treeAt_old hF hi ht)]

/-- The new node weighs as much as the two it joins: with the sum of counts below `2^32` nothing wraps
(41_tree_builder.md R102, R109). -/
theorem Joins.weight_new (h : Joins b b' m₁ m₂) (hF' : Forest b' F' L) :
    (b'.weightAt b.next).toNat = (b.weightAt m₁).toNat + (b.weightAt m₂).toNat := by
  obtain ⟨n, hn, -, -, -, hw⟩ := (hF'.inner b.next h.start (by rw [h.next]; exact Nat.lt_succ_self _)).weightAt
  cases h.slotNew.symm.trans hn
  rw [hw, ← h.weightAt_old (h.fresh _ h.first), ← h.weightAt_old (h.fresh _ h.second)]
  rfl

theorem Joins.innerSum_new (h : Joins b b' m₁ m₂) (hF : Forest b F L) (hF' : Forest b' F' L) :
    b'.innerSum b.next = (b'.weightAt b.next).toNat + b.innerSum m₁ + b.innerSum m₂ := by
  obtain ⟨t, ht⟩ := hF'.tree_of_has ((h.members b.next).mpr (.inl rfl))
  obtain ⟨t₁, ht₁⟩ := hF.tree_of_has h.first
  obtain ⟨t₂, ht₂⟩ := hF.tree_of_has h.second
  obtain ⟨n, hn, ⟨hleaf, -⟩ | ⟨-, a₁, a₂, ha₁, ha₂, rfl⟩⟩ := treeAt_cases ht
  · cases h.slotNew.symm.trans hn
    cases hleaf
  · cases h.slotNew.symm.trans hn
    have e₁ : a₁ = t₁ := Option.some.inj
      ((treeAt_mono (Nat.le_succ _) ha₁).symm.trans (h.treeAt_old hF h.first ht₁))
    have e₂ : a₂ = t₂ := Option.some.inj
      ((treeAt_mono (Nat.le_succ _) ha₂).symm.trans (h.treeAt_old hF h.second ht₂))
    rw [innerSum_eq ht, innerSum_eq ht₁, innerSum_eq ht₂, e₁, e₂, Store.weightAt_of_slot hn, Tree.innerWeights,
      List.sum_cons, List.sum_append, Nat.add_assoc]

theorem Joins.collection_eq (h : Joins b b' m₁ m₂) :
    b'.collection = insert b.next ((b.collection.erase m₁).erase m₂) := by
  ext j
  simp only [mem_collection, h.members, Finset.mem_insert, Finset.mem_erase]
  tauto

theorem Joins.ne (h : Joins b b' m₁ m₂) : m₁ ≠ m₂ := by
  rintro rfl
  rcases h.ordered with hlt | ⟨-, hlt⟩
  · exact BitVec.lt_irrefl _ hlt
  · exact BitVec.lt_irrefl _ hlt

/-- The second member taken weighs no more than the rest. -/
theorem Joins.second_le (h : Joins b b' m₁ m₂) : ∀ i ∈ b.collection, i ≠ m₁ →
    (b.weightAt m₂).toNat ≤ (b.weightAt i).toNat := by
  intro i hi h1
  by_cases h2 : i = m₂
  · rw [h2]
  · exact Store.weight_le_of_before (h.least i (mem_collection.mp hi) h1 h2)

/-- The first member taken weighs no more than any. -/
theorem Joins.first_le (h : Joins b b' m₁ m₂) : ∀ i ∈ b.collection,
    (b.weightAt m₁).toNat ≤ (b.weightAt i).toNat := by
  intro i hi
  by_cases h1 : i = m₁
  · rw [h1]
  · exact (Store.weight_le_of_before h.ordered).trans (h.second_le i hi h1)

/-- One merge, by `exists_joined_lengths`: what the lengths save at the least two members is what the new node adds to
the internal weights. -/
theorem CostWithin.join {C : ℕ} (hF : Forest b F L) (hF' : Forest b' F' L) (h : Joins b b' m₁ m₂)
    (hC : CostWithin C b) : CostWithin C b' := by
  obtain ⟨ℓ, hK, hle⟩ := hC
  have hm₁ : m₁ ∈ b.collection := mem_collection.mpr h.first
  have hm₂ : m₂ ∈ b.collection.erase m₁ := Finset.mem_erase.mpr ⟨h.ne.symm, mem_collection.mpr h.second⟩
  obtain ⟨ℓ', n, hK', hcost⟩ := exists_joined_lengths (w := fun i => (b.weightAt i).toNat) hm₁
    (Finset.mem_of_mem_erase hm₂) h.ne h.first_le h.second_le hK
  rw [← Finset.add_sum_erase _ _ hm₁, ← Finset.add_sum_erase _ _ hm₂] at hle
  generalize hR : (b.collection.erase m₁).erase m₂ = R at *
  have old : ∀ i ∈ R, b.has i = true := by
    intro i hi
    rw [← hR] at hi
    exact mem_collection.mp (Finset.mem_of_mem_erase (Finset.mem_of_mem_erase hi))
  have hnew : b.next ∉ R := fun hi => absurd (h.fresh _ (old _ hi)) (Nat.lt_irrefl _)
  have upd : ∀ i ∈ R, Function.update ℓ' b.next n i = ℓ' i := fun i hi =>
    Function.update_of_ne (ne_of_mem_of_not_mem hi hnew) _ _
  refine ⟨Function.update ℓ' b.next n, ?_, ?_⟩
  · rw [h.collection_eq, hR, kraft, Finset.sum_insert hnew, Function.update_self]
    rwa [Finset.sum_congr rfl fun i hi => by rw [upd i hi]]
  · rw [h.collection_eq, hR, lengthCost, Finset.sum_insert hnew, Finset.sum_insert hnew, Function.update_self,
      h.innerSum_new hF hF', h.weight_new hF']
    have hcostR : ∑ i ∈ R, (b'.weightAt i).toNat * Function.update ℓ' b.next n i =
        lengthCost R (fun i => (b.weightAt i).toNat) ℓ' :=
      Finset.sum_congr rfl fun i hi => by rw [upd i hi, h.weightAt_old (h.fresh _ (old i hi))]
    have hinner : ∑ i ∈ R, b'.innerSum i = ∑ i ∈ R, b.innerSum i :=
      Finset.sum_congr rfl fun i hi => h.innerSum_old hF (old i hi)
    rw [hcostR, hinner]
    omega

end

/-! Codes over a mapping. -/

/-- A set of code words, not empty and none the start of another, is uniquely decodable. -/
theorem uniquelyDecodable_of_prefixFree {S : Set Bits} (hne : [] ∉ S)
    (hp : ∀ u ∈ S, ∀ v ∈ S, u <+: v → u = v) : InformationTheory.UniquelyDecodable S := by
  intro us
  induction us with
  | nil =>
    intro vs _ hvs h
    cases vs with
    | nil => rfl
    | cons v vs =>
      obtain ⟨rfl, -⟩ := List.append_eq_nil_iff.mp h.symm
      exact absurd (hvs [] (by simp)) hne
  | cons u us ih =>
    intro vs hus hvs h
    have hu := hus u (by simp)
    cases vs with
    | nil =>
      obtain ⟨rfl, -⟩ := List.append_eq_nil_iff.mp h
      exact absurd hu hne
    | cons v vs =>
      rw [List.flatten_cons, List.flatten_cons] at h
      have hv := hvs v (by simp)
      have huv : u = v := by
        rcases List.prefix_or_prefix_of_prefix (List.prefix_append u us.flatten)
          (h ▸ List.prefix_append v vs.flatten) with hpre | hpre
        · exact hp u hu v hv hpre
        · exact (hp v hv u hu hpre).symm
      subst huv
      rw [ih vs (fun w hw => hus w (by simp [hw])) (fun w hw => hvs w (by simp [hw])) (List.append_cancel_left h)]

/-- Symbols without a count cost nothing. -/
theorem codeCost_eq (freq : Vector Word Config.nsym) (c : Sym → Bits) :
    codeCost freq c = ((mapping freq).map fun e => e.2 * (c e.1).length).sum := by
  rw [codeCost, mapping, List.map_map]
  generalize List.finRange Config.nsym = l
  induction l with
  | nil => rfl
  | cons i l ih =>
    rw [List.map_cons, List.sum_cons, ih, List.filter_cons]
    by_cases h : freq[i] = 0
    · rw [if_neg (by simp [h]), h]
      simp
    · rw [if_pos (by simpa using h)]
      rfl

/-- Kraft's inequality for the codes of the symbols of a mapping, two or more, when they are `prefixFree`. -/
theorem kraft_of_prefixFree {freq : Vector Word Config.nsym} {c : Sym → Bits} (hk : 2 ≤ leafCount freq)
    (hp : prefixFree freq c) : ((mapping freq).map fun e => (1 / 2 : ℚ) ^ (c e.1).length).sum ≤ 1 := by
  have hmem : ∀ x ∈ (mapping freq).map (·.1), symEntry freq x ≠ 0 := by
    intro x hx
    obtain ⟨⟨y, n⟩, he, rfl⟩ := List.mem_map.mp hx
    exact (mem_mapping.mp he).1
  have hpre : ∀ x ∈ (mapping freq).map (·.1), ∀ y ∈ (mapping freq).map (·.1), c x <+: c y → x = y := by
    intro x hx y hy h
    by_contra hne
    exact hp x y (hmem x hx) (hmem y hy) hne h
  have hnodup : (((mapping freq).map (·.1)).map c).Nodup :=
    (mapping_nodup freq).map_on fun x hx y hy h => hpre x hx y hy (h ▸ List.prefix_rfl)
  have hne : [] ∉ ((mapping freq).map (·.1)).map c := by
    intro h
    obtain ⟨x, hx, hcx⟩ := List.mem_map.mp h
    have hone : ∀ y ∈ (mapping freq).map (·.1), y = x := fun y hy =>
      (hpre x hx y hy (hcx ▸ List.nil_prefix)).symm
    have hrep := List.eq_replicate_of_mem hone
    have hnd := mapping_nodup freq
    rw [hrep, List.nodup_replicate, List.length_map, mapping_length] at hnd
    omega
  have hud : InformationTheory.UniquelyDecodable ((((mapping freq).map (·.1)).map c).toFinset : Set Bits) := by
    refine uniquelyDecodable_of_prefixFree (by simpa using hne) fun u hu v hv h => ?_
    rw [Finset.mem_coe, List.mem_toFinset] at hu hv
    obtain ⟨x, hx, rfl⟩ := List.mem_map.mp hu
    obtain ⟨y, hy, rfl⟩ := List.mem_map.mp hv
    rw [hpre x hx y hy h]
  have hkm := InformationTheory.kraft_mcmillan_inequality hud
  rw [List.sum_toFinset _ hnodup, Fintype.card_bool, List.map_map, List.map_map] at hkm
  have hcast : (((mapping freq).map fun e => (1 / 2 : ℚ) ^ (c e.1).length).sum : ℝ) ≤ 1 := by
    rw [Rat.cast_list_sum, List.map_map]
    simpa [Function.comp_def] using hkm
  exact_mod_cast hcast

/-! The cost of a tree's own code. -/

namespace Tree

/-- The number of steps from the root to the leaf of symbol `x`. -/
def pathLength (t : Tree) (x : Sym) : ℕ := ((t.paths.lookup x).getD []).length

theorem exists_path {t : Tree} {x : Sym} (h : x ∈ t.leaves.map (·.1)) : ∃ p, t.paths.lookup x = some p := by
  rw [← paths_symbols] at h
  obtain ⟨e, he, rfl⟩ := List.mem_map.mp h
  exact Option.isSome_iff_exists.mp (List.lookup_isSome_iff.mpr ⟨e, he, beq_self_eq_true _⟩)

theorem pathLength_left {w : ℕ} {l r : Tree} {x : Sym} (h : x ∈ l.leaves.map (·.1)) :
    (node w l r).pathLength x = l.pathLength x + 1 := by
  obtain ⟨p, hp⟩ := exists_path h
  simp [pathLength, paths, List.lookup_append, lookup_map, hp]

theorem pathLength_right {w : ℕ} {l r : Tree} {x : Sym} (hl : x ∉ l.leaves.map (·.1))
    (h : x ∈ r.leaves.map (·.1)) : (node w l r).pathLength x = r.pathLength x + 1 := by
  obtain ⟨p, hp⟩ := exists_path h
  rw [← paths_symbols] at hl
  simp [pathLength, paths, List.lookup_append, lookup_map, hp, lookup_eq_none_of_not_mem _ _ hl]

/-- One more step to every leaf costs the sum of the leaves' weights. -/
theorem sum_deeper {E : List (Sym × ℕ)} {f g : Sym → ℕ} (h : ∀ e ∈ E, f e.1 = g e.1 + 1) :
    (E.map fun e => e.2 * f e.1).sum = (E.map fun e => e.2 * g e.1).sum + (E.map (·.2)).sum := by
  rw [← List.sum_map_add]
  exact congrArg List.sum (List.map_congr_left fun e he => by rw [h e he, Nat.mul_succ])

/-- Weight times depth, summed over the leaves, is the sum of the weights of the internal nodes
(42_code_table.md R126). -/
theorem sum_pathLength {t : Tree} (hd : t.distinct) (hw : t.weightsOk) :
    (t.leaves.map fun e => e.2 * t.pathLength e.1).sum = t.innerWeights.sum := by
  induction t with
  | leaf w x => simp [leaves, pathLength, paths, innerWeights]
  | node w l r ihl ihr =>
    obtain ⟨rfl, hwl, hwr⟩ := hw
    rw [distinct, leaves, List.map_append, List.nodup_append'] at hd
    obtain ⟨hl, hr, hdis⟩ := hd
    have left := sum_deeper (E := l.leaves) fun e he => pathLength_left (w := l.weight + r.weight) (r := r)
      (List.mem_map_of_mem (f := (·.1)) he)
    have right := sum_deeper (E := r.leaves) fun e he => pathLength_right (w := l.weight + r.weight)
      (fun hx => hdis hx (List.mem_map_of_mem (f := (·.1)) he)) (List.mem_map_of_mem (f := (·.1)) he)
    rw [leaves, List.map_append, List.sum_append, left, right, ihl hl hwl, ihr hr hwr, ← weight_eq_sum hwl,
      ← weight_eq_sum hwr, innerWeights, List.sum_cons, List.sum_append]
    omega

end Tree

/-- The cost of a tree's code under its mapping. -/
theorem codeCost_codeOf {freq : Vector Word Config.nsym} {t : Tree} (hk : 2 ≤ leafCount freq) (hw : t.weightsOk)
    (hp : t.leaves.Perm (mapping freq)) : codeCost freq t.codeOf = t.innerWeights.sum := by
  have hd : t.distinct := (hp.map _).nodup_iff.mpr (mapping_nodup freq)
  have hlen := hp.length_eq
  rw [mapping_length] at hlen
  rw [codeCost_eq, ← (hp.map _).sum_eq]
  cases t with
  | leaf w x =>
    rw [Tree.leaves, List.length_singleton] at hlen
    omega
  | node w l r => exact Tree.sum_pathLength hd hw

/-! BUILD is optimal. -/

/-- A `prefixFree` code gives lengths for the forest of leaves, at its cost. -/
theorem makeLeaves_costWithin {freq : Vector Word Config.nsym} (node : Vector Slot Config.nnode) {c : Sym → Bits}
    (hk : 2 ≤ leafCount freq) (hp : prefixFree freq c) : CostWithin (codeCost freq c) (makeLeaves freq node) := by
  have hF := makeLeaves_forest freq node
  have hsym : ∀ x : Sym, (x.setWidth 9).setWidth 8 = x := fun x => by simp
  have hleaf : ∀ e ∈ mapping freq, (e.1.setWidth 9, Tree.leaf e.2 e.1) ∈ leafForest freq := fun e he =>
    List.mem_map_of_mem he
  refine ⟨fun i => (c (i.setWidth 8)).length, ?_, ?_⟩
  · rw [kraft, hF.sum_collection, leafForest, List.map_map]
    simpa [Function.comp_def, hsym] using kraft_of_prefixFree hk hp
  · have hinner : ∑ i ∈ (makeLeaves freq node).collection, (makeLeaves freq node).innerSum i = 0 := by
      refine Finset.sum_eq_zero fun i hi => ?_
      obtain ⟨e, he, rfl⟩ := List.mem_map.mp ((hF.members i).mp (mem_collection.mp hi))
      rw [innerSum_eq (hF.tree_of_mem he)]
      obtain ⟨e', -, rfl⟩ := List.mem_map.mp he
      rfl
    rw [hinner, Nat.add_zero, lengthCost, hF.sum_collection, codeCost_eq, leafForest, List.map_map]
    refine Nat.le_of_eq (congrArg List.sum (List.map_congr_left fun e he => ?_))
    obtain ⟨n, -, hn, hw⟩ := hF.weight (hleaf e he)
    dsimp only [Function.comp_apply] at hw ⊢
    rw [hw, hn, hsym]
    rfl

/-- Settles O33: every merge keeps `CostWithin`, the cost of the given code; at the end only the root is left, and the
internal weights below it are the cost of the tree's own code. -/
theorem buildIsOptimal : Obligations.BuildIsOptimal := by
  intro s hdue hk hsum
  obtain ⟨t, T, hexec, -, hT, htree, hw, hp, -, hmem, -⟩ := execBuild_tree hdue hk hsum
  refine ⟨t, T, hexec, hT, fun c hc => ?_⟩
  obtain ⟨ℓ, -, hle⟩ := buildStore_keeps hsum (makeLeaves_costWithin s.node hk hc) fun hF hF' hj =>
    CostWithin.join hF hF' hj
  have hroot : t.rootIdx ∈ (buildStore s.freq s.node).collection := mem_collection.mpr ((hmem _).mpr rfl)
  calc codeCost s.freq T.codeOf = (buildStore s.freq s.node).innerSum t.rootIdx := by
        rw [codeCost_codeOf hk hw hp, innerSum_eq htree]
    _ ≤ ∑ i ∈ (buildStore s.freq s.node).collection, (buildStore s.freq s.node).innerSum i :=
        Finset.single_le_sum (fun _ _ => Nat.zero_le _) hroot
    _ ≤ codeCost s.freq c := (Nat.le_add_left _ _).trans hle

end Sys2Proof

namespace Sys2Proof

open Sys2Proof.Machine

/-! BUILD: the slots it does not write (41_tree_builder.md R103, R104). -/

/-- Slot `i` is no slot of BUILD on `freq`: the leaf slot of a symbol with count 0, or past the internal slots the
merges take. -/
def Spare (freq : Vector Word Config.nsym) (i : Idx) : Prop :=
  (i.toNat < 256 ∧ symEntry freq (i.setWidth 8) = 0) ∨ 256 + (leafCount freq - 1) ≤ i.toNat

theorem makeLeaves_spare {freq : Vector Word Config.nsym} (node : Vector Slot Config.nnode) {i : Idx}
    (hi : Spare freq i) : slotAt (makeLeaves freq node).node i = slotAt node i := by
  rw [makeLeaves_slotAt]
  split
  case isFalse => rfl
  case isTrue h =>
    rcases hi with ⟨-, hz⟩ | hge
    · have e : freq[i.toNat] = symEntry freq (i.setWidth 8) := by
        simp only [symEntry, BitVec.toNat_setWidth, Nat.mod_eq_of_lt h]
      rw [if_pos (e.trans hz)]
    · omega

theorem buildStore_spare {freq : Vector Word Config.nsym} (node : Vector Slot Config.nnode)
    (hsum : freqSum freq < 2 ^ 32) : ∀ i, Spare freq i → slotAt (buildStore freq node).node i = slotAt node i := by
  refine buildStore_keeps (P := fun b => ∀ i, Spare freq i → slotAt b.node i = slotAt node i) hsum
    (fun _ => makeLeaves_spare node) fun {b b' F F' _ _} _ hF' hj hP i hi => ?_
  have hpos : 0 < F'.length := by
    have hnew := (hF'.members b.next).mp ((hj.members b.next).mpr (.inl rfl))
    simpa using List.length_pos_of_mem hnew
  have hcount := hF'.count
  have hnext := hj.next
  have hstart := hj.start
  rw [mapping_length] at hcount
  have hne : i ≠ b.next := by
    rintro rfl
    rcases hi with ⟨hlt, -⟩ | hge <;> omega
  exact (hj.slotOld i hne).trans (hP i hi)

theorem plantRoot_node (k : Nat) (s : State) (b : Store) : (plantRoot k s b).node = b.node := by
  unfold plantRoot
  split <;> rfl

theorem buildEffect_spare (s : State) {i : Idx} (hi : Spare s.freq i) :
    slotAt (buildEffect s).node i = slotAt s.node i := by
  rw [buildEffect]
  split
  case isTrue => rfl
  case isFalse h =>
    rw [finish_node, plantRoot_node]
    exact buildStore_spare s.node (by omega) i hi

/-- Settles O34: `execBuild_changes` names the elements that may change, `buildEffect_spare` the slots that do not. -/
theorem buildFrame : Obligations.BuildFrame := by
  intro s t h
  have hspare : ∀ i, Spare s.freq i → slotAt t.node i = slotAt s.node i := by
    intro i hi
    rw [exec_build] at h
    obtain ⟨b, d, o, ⟨p, rfl⟩ | he⟩ := atomicMove_changes h
    · rfl
    · obtain rfl := Host.Outcome.next.inj he
      exact buildEffect_spare { s with busy := b, done := d, op := o } hi
  have hleaf : ∀ x : Sym, symEntry s.freq x = 0 → slotAt t.node (x.setWidth 9) = slotAt s.node (x.setWidth 9) := by
    intro x hx
    refine hspare _ (.inl ⟨by rw [setWidth_toNat]; exact x.isLt, ?_⟩)
    rw [BitVec.setWidth_setWidth_of_le _ (by decide), BitVec.setWidth_eq]
    exact hx
  have hrest : ∀ i : Idx, 256 + (leafCount s.freq - 1) ≤ i.toNat → slotAt t.node i = slotAt s.node i :=
    fun i hi => hspare i (.inr hi)
  rw [execBuild_changes h] at hleaf hrest ⊢
  exact ⟨rfl, rfl, rfl, rfl, rfl, ⟨rfl, rfl⟩, ⟨rfl, rfl, rfl, rfl⟩, ⟨rfl, rfl, rfl, rfl, rfl, rfl⟩, hleaf, hrest⟩

/-! BUILD: overflow, the empty mapping, one entry (41_tree_builder.md R102, R107, R108). -/

/-- Settles O27: the check of sub-step 2 comes before any node is written. -/
theorem buildWeightOverflow : Obligations.BuildWeightOverflow := by
  intro s hdue hsum
  obtain ⟨b, d, hexec⟩ := execBuild_due hdue
  rw [buildEffect, if_pos hsum] at hexec
  exact ⟨_, hexec, ⟨rfl, rfl, rfl⟩, rfl, rfl, rfl, rfl, rfl, symEntry_emptyCode, rfl, rfl⟩

theorem mapping_eq_nil {freq : Vector Word Config.nsym} (h : ∀ x, symEntry freq x = 0) : mapping freq = [] :=
  List.eq_nil_iff_forall_not_mem.mpr fun _ he => (mem_mapping.mp he).1 (h _)

theorem node_ext {node node' : Vector Slot Config.nnode} (h : ∀ i, slotAt node i = slotAt node' i) : node = node' := by
  refine Vector.ext fun k (hk : k < 511) => ?_
  have e : (BitVec.ofNat 9 k).toNat = k := by rw [BitVec.toNat_ofNat]; omega
  have hi := h (BitVec.ofNat 9 k)
  rw [slotAt_eq_some (by omega), slotAt_eq_some (by omega)] at hi
  simpa only [e, Option.some.injEq] using hi

/-- TREEINFO with no tree (10_state.md R29). -/
theorem readRegister_treeinfo_noTree {s : State} (hb : s.busy = false) (hv : s.rootValid = false)
    (hr : s.rootIdx = Config.nil) (hn : s.nleaf = 0) : readRegister .treeinfo s = some 0x000001FF#32 := by
  rw [readRegister, hb, treeinfoWord, hv, hr, hn]
  rfl

/-- Settles O28: with no leaf nothing is merged and no root planted, and every slot is spare. -/
theorem buildOfEmptyMapping : Obligations.BuildOfEmptyMapping := by
  intro s hdue hzero
  obtain ⟨b, d, hexec⟩ := execBuild_due hdue
  have hk : leafCount s.freq = 0 := by rw [← mapping_length, mapping_eq_nil hzero]; rfl
  have hsum : freqSum s.freq = 0 := by rw [← mapping_sum, mapping_eq_nil hzero]; rfl
  generalize hs' : { s with busy := b, done := d, op := opcodeOf .build : State } = s' at hexec
  have hfreq : s'.freq = s.freq := by rw [← hs']
  have hnode : (buildEffect s').node = s.node := by
    refine (node_ext fun i => buildEffect_spare s' ?_).trans (by rw [← hs'])
    rw [hfreq]
    by_cases hi : i.toNat < 256
    · exact .inl ⟨hi, hzero _⟩
    · exact .inr (by omega)
  obtain ⟨h, -⟩ | ⟨-, -, b', e⟩ | ⟨-, h, -⟩ := buildEffect_spec s'
  · rw [hfreq] at h
    omega
  · refine ⟨_, hexec, ?_⟩
    rw [e] at hnode ⊢
    subst hs'
    exact ⟨⟨rfl, rfl, rfl⟩, ⟨rfl, rfl⟩, rfl, rfl, rfl, symEntry_emptyCode, hnode,
      readRegister_treeinfo_noTree rfl rfl rfl rfl⟩
  · rw [hfreq] at h
    omega

theorem mapping_eq_singleton {freq : Vector Word Config.nsym} {x : Sym} (hx : symEntry freq x ≠ 0)
    (h : ∀ y, y ≠ x → symEntry freq y = 0) : mapping freq = [(x, (symEntry freq x).toNat)] := by
  have hall : ∀ e ∈ mapping freq, e = (x, (symEntry freq x).toNat) := by
    rintro ⟨y, n⟩ he
    obtain ⟨hy, rfl⟩ := mem_mapping.mp he
    by_cases hyx : y = x
    · rw [hyx]
    · exact absurd (h y hyx) hy
  have hrep := List.eq_replicate_of_mem hall
  have hnd := (mapping_nodup freq).of_map
  have hpos := List.length_pos_of_mem (mem_mapping.mpr ⟨hx, rfl⟩)
  rw [hrep, List.nodup_replicate] at hnd
  rw [hrep, Nat.le_antisymm hnd hpos]
  rfl

theorem Tree.leaves_ne_nil (t : Tree) : t.leaves ≠ [] := by
  induction t with
  | leaf w x => exact List.cons_ne_nil _ _
  | node w l r ihl ihr => exact List.append_ne_nil_of_left_ne_nil ihl _

/-- A tree with one leaf is that leaf. -/
theorem Tree.eq_leaf {t : Tree} {x : Sym} {w : Nat} (h : t.leaves = [(x, w)]) : t = .leaf w x := by
  cases t with
  | leaf w' x' =>
    cases h
    rfl
  | node w' l r =>
    rw [leaves, List.append_eq_singleton_iff] at h
    rcases h with ⟨hl, -⟩ | ⟨-, hr⟩
    · exact absurd hl l.leaves_ne_nil
    · exact absurd hr r.leaves_ne_nil

/-- A sound tree that is a single leaf is the leaf slot of its symbol (10_state.md R15, R18). -/
theorem StoreOk.root_of_leaf {node : Vector Slot Config.nnode} {root : Idx} {x : Sym} {w : Word}
    (hs : StoreOk node root) {f : Nat} (ht : treeAt node (f + 1) root = some (.leaf w.toNat x)) :
    root = x.setWidth 9 ∧
      slotAt node root = some { w := w, leaf := true, sym := x, l := Config.nil, r := Config.nil } := by
  obtain ⟨hlt, hchild, hinner⟩ := hs
  obtain ⟨n, hn, ⟨hleaf, ht'⟩ | ⟨-, _, _, -, -, ht'⟩⟩ := treeAt_cases ht
  · injection ht' with hw hx
    have hroot : root.toNat < 256 := by
      by_contra hge
      obtain ⟨m, _, _, hm, hl, -⟩ := hinner root (by omega) (Nat.le_refl _)
      cases hn.symm.trans hm
      exact Bool.false_ne_true (hl.symm.trans hleaf)
    obtain ⟨m, hm, -, hsym, hl, hr, -⟩ := hchild hroot
    cases hn.symm.trans hm
    obtain ⟨w', leaf', sym', l', r'⟩ := n
    obtain rfl : w = w' := BitVec.eq_of_toNat_eq hw
    dsimp only at hx hleaf hl hr hsym
    refine ⟨?_, by rw [hn, hx, hleaf, hl, hr]⟩
    rw [hx, hsym]
    apply BitVec.eq_of_toNat_eq
    rw [setWidth_toNat, BitVec.toNat_setWidth, Nat.mod_eq_of_lt hroot]
  · cases ht'

/-- Settles O29: the one tree over the mapping is a leaf; the live slots are those `buildMakesTheTree` names. -/
theorem buildOfOneEntry : Obligations.BuildOfOneEntry := by
  intro s x hdue hx hother
  have hmap := mapping_eq_singleton hx hother
  have hk : leafCount s.freq = 1 := by rw [← mapping_length, hmap]; rfl
  have hsum : freqSum s.freq < 2 ^ 32 := by
    rw [← mapping_sum, hmap]
    simpa using (symEntry s.freq x).isLt
  obtain ⟨t, T, hexec, hended, hrecord, hvalid, hT, -, hp, -, hnleaf, hstore, hcode, -, hlive⟩ :=
    buildMakesTheTree s hdue (by omega) hsum
  rw [hmap] at hp
  have hleaf := Tree.eq_leaf (List.perm_singleton.mp hp)
  rw [State.tree, if_pos hvalid, hleaf] at hT
  obtain ⟨hroot, hslot⟩ := hstore.root_of_leaf hT
  refine ⟨t, hexec, hended, hrecord, hvalid, hroot, BitVec.eq_of_toNat_eq (hnleaf.trans hk), hcode, hslot, fun i => ?_⟩
  have hx' := setWidth_toNat x
  rw [hlive, hroot]
  constructor
  · rintro (⟨hi, hne⟩ | ⟨hlo, hhi⟩)
    · have hix : i.setWidth 8 = x := by
        by_contra h
        exact hne (hother _ h)
      apply BitVec.eq_of_toNat_eq
      rw [hx', ← hix, BitVec.toNat_setWidth, Nat.mod_eq_of_lt hi]
    · have := x.isLt
      omega
  · rintro rfl
    refine .inl ⟨by rw [hx']; exact x.isLt, ?_⟩
    rw [BitVec.setWidth_setWidth_of_le _ (by decide), BitVec.setWidth_eq]
    exact hx

/-! BUILD: two stores that agree on the slots in use (41_tree_builder.md R111). -/

/-- The nodes hold the same slots wherever `W` holds, which is closed under links. -/
structure SameSlots (W : Idx → Prop) (node node' : Vector Slot Config.nnode) : Prop where
  slots : ∀ i, W i → slotAt node i = slotAt node' i
  links : ∀ i n, W i → slotAt node i = some n → n.leaf = false → W n.l ∧ W n.r

/-- The stores hold the same collection, and the same slots wherever `W` holds, in the collection too. -/
structure Agree (W : Idx → Prop) (b c : Store) : Prop where
  act : b.act = c.act
  next : b.next = c.next
  members : ∀ i, b.has i = true → W i
  nodes : SameSlots W b.node c.node

section
variable {W : Idx → Prop} {node node' : Vector Slot Config.nnode} {b c : Store}

theorem SameSlots.symm (h : SameSlots W node node') : SameSlots W node' node where
  slots i hi := (h.slots i hi).symm
  links i n hi hn := h.links i n hi ((h.slots i hi).trans hn)

theorem SameSlots.treeAt_eq (h : SameSlots W node node') (f : Nat) {i : Idx} (hi : W i) :
    treeAt node f i = treeAt node' f i := by
  ext T
  exact ⟨treeAt_congr h.symm.slots h.links hi, treeAt_congr h.slots h.symm.links hi⟩

theorem SameSlots.reaches (h : SameSlots W node node') {f : Nat} {i j : Idx} (hi : W i)
    (hr : Machine.reaches node f i j = true) : Machine.reaches node' f i j = true ∧ W j := by
  induction f generalizing i with
  | zero => cases hr
  | succ f ih =>
    obtain ⟨n, hn, rfl | ⟨hleaf, hc⟩⟩ := reaches_succ.mp hr
    · exact ⟨reaches_succ.mpr ⟨n, (h.slots i hi).symm.trans hn, .inl rfl⟩, hi⟩
    · obtain ⟨hl, hr⟩ := h.links i n hi hn hleaf
      have hn' := (h.slots i hi).symm.trans hn
      rcases hc with hc | hc
      · exact ⟨reaches_succ.mpr ⟨n, hn', .inr ⟨hleaf, .inl (ih hl hc).1⟩⟩, (ih hl hc).2⟩
      · exact ⟨reaches_succ.mpr ⟨n, hn', .inr ⟨hleaf, .inr (ih hr hc).1⟩⟩, (ih hr hc).2⟩

/-- The least member is unique. -/
theorem isLeast_unique {m m' : Idx} (h : b.isLeast m) (h' : b.isLeast m') : m = m' := by
  by_contra hne
  rcases h.2 m' h'.1 (Ne.symm hne) with hw | ⟨hw, hi⟩ <;> rcases h'.2 m h.1 hne with hw' | ⟨hw', hi'⟩ <;> bv_omega

theorem Agree.has_eq (h : Agree W b c) (i : Idx) : b.has i = c.has i := by
  rw [Store.has, Store.has, h.act]

theorem Agree.weightAt_eq (h : Agree W b c) {i : Idx} (hi : W i) : b.weightAt i = c.weightAt i := by
  rw [Store.weightAt, Store.weightAt, h.nodes.slots i hi]

theorem Agree.isLeast (h : Agree W b c) {m : Idx} (hm : b.isLeast m) : c.isLeast m := by
  obtain ⟨hhas, hmin⟩ := hm
  refine ⟨(h.has_eq m).symm.trans hhas, fun j hj hne => ?_⟩
  have hj' := (h.has_eq j).trans hj
  rw [← h.weightAt_eq (h.members m hhas), ← h.weightAt_eq (h.members j hj')]
  exact hmin j hj' hne

theorem Agree.least_eq (h : Agree W b c) : b.least = c.least := by
  cases hb : b.least with
  | none =>
    rw [least_eq_none] at hb
    exact (least_eq_none.mpr fun i => (h.has_eq i).symm.trans (hb i)).symm
  | some r =>
    obtain ⟨m, w⟩ := r
    obtain ⟨hm, rfl⟩ := least_eq_some hb
    cases hc : c.least with
    | none =>
      have := least_eq_none.mp hc m
      rw [← h.has_eq, hm.1] at this
      cases this
    | some r' =>
      obtain ⟨m', w'⟩ := r'
      obtain ⟨hm', rfl⟩ := least_eq_some hc
      obtain rfl := isLeast_unique (h.isLeast hm) hm'
      rw [h.weightAt_eq (h.members m hm.1)]

theorem Agree.remove (h : Agree W b c) (i : Idx) : Agree W (b.remove i) (c.remove i) where
  act := by rw [Store.remove, Store.remove, h.act]
  next := h.next
  members j hj := by
    rw [remove_has] at hj
    split at hj
    case isTrue => cases hj
    case isFalse => exact h.members j hj
  nodes := h.nodes

/-- A node over members of the collection keeps the agreement, now on slot NEXT too. -/
theorem Agree.insertNext (h : Agree W b c) {n : Slot} (hl : W n.l) (hr : W n.r) :
    Agree (fun i => W i ∨ i = b.next) (b.insertNext n) (c.insertNext n) where
  act := by rw [Store.insertNext, Store.insertNext, h.act, h.next]
  next := by rw [insertNext_next, insertNext_next, h.next]
  members i hi := by
    by_cases hn : i = b.next
    · exact .inr hn
    · refine .inl (h.members i ?_)
      simpa [Store.has, Store.insertNext, Vector.getElem?_setIfInBounds, BitVec.toNat_inj, Ne.symm hn] using hi
  nodes :=
    { slots := fun i hi => by
        rw [Store.insertNext, Store.insertNext, slotAt_setIfInBounds, slotAt_setIfInBounds, ← h.next]
        split
        case isTrue => rfl
        case isFalse hne => exact h.nodes.slots i (hi.resolve_right (Ne.symm hne))
      links := fun i m hi hm hleaf => by
        rw [Store.insertNext, slotAt_setIfInBounds] at hm
        split at hm
        case isTrue =>
          split at hm
          case isTrue =>
            obtain rfl := Option.some.inj hm
            exact ⟨.inl hl, .inl hr⟩
          case isFalse => cases hm
        case isFalse hne =>
          exact (h.nodes.links i m (hi.resolve_right (Ne.symm hne)) hm hleaf).imp .inl .inl }

theorem Agree.merge (h : Agree W b c) : (b.merge = none ∧ c.merge = none) ∨
    ∃ b' c' W', b.merge = some b' ∧ c.merge = some c' ∧ Agree W' b' c' := by
  rw [Store.merge, Store.merge, ← h.least_eq]
  cases h₁ : b.least with
  | none => exact .inl ⟨rfl, rfl⟩
  | some r₁ =>
    obtain ⟨m₁, w₁⟩ := r₁
    have h' := h.remove m₁
    dsimp only
    rw [← h'.least_eq]
    cases h₂ : (b.remove m₁).least with
    | none => exact .inl ⟨rfl, rfl⟩
    | some r₂ =>
      obtain ⟨m₂, w₂⟩ := r₂
      have hW₁ := h.members m₁ (least_eq_some h₁).1.1
      have hW₂ := h'.members m₂ (least_eq_some h₂).1.1
      exact .inr ⟨_, _, _, rfl, rfl, (h'.remove m₂).insertNext (n := joinSlot m₁ w₁ m₂ w₂) hW₁ hW₂⟩

theorem Agree.mergeAll (fuel : Nat) (h : Agree W b c) : ∃ W', Agree W' (b.mergeAll fuel) (c.mergeAll fuel) := by
  induction fuel generalizing W b c with
  | zero => exact ⟨W, h⟩
  | succ fuel ih =>
    rw [Store.mergeAll, Store.mergeAll]
    obtain ⟨hb, hc⟩ | ⟨b', c', W', hb, hc, h'⟩ := h.merge
    · rw [hb, hc]
      exact ⟨W, h⟩
    · rw [hb, hc]
      exact ih h'

end

/-- BUILD's leaves agree whatever the nodes held before. -/
theorem makeLeaves_agree (freq : Vector Word Config.nsym) (node node' : Vector Slot Config.nnode) :
    Agree (fun i => (makeLeaves freq node).has i = true) (makeLeaves freq node) (makeLeaves freq node') := by
  have leaf : ∀ node i, (makeLeaves freq node).has i = true → ∃ h : i.toNat < 256,
      slotAt (makeLeaves freq node).node i = some (leafSlot i.toNat (freq[i.toNat]'h)) := by
    intro node i hi
    obtain ⟨h, hne⟩ := (makeLeaves_has freq node i).mp hi
    exact ⟨h, by rw [makeLeaves_slotAt, dif_pos h, if_neg hne]⟩
  refine ⟨rfl, rfl, fun i hi => hi, fun i hi => ?_, fun i n hi hn hl => ?_⟩
  · obtain ⟨_, e⟩ := leaf node i hi
    obtain ⟨_, e'⟩ := leaf node' i hi
    rw [e, e']
  · obtain ⟨_, e⟩ := leaf node i hi
    cases e.symm.trans hn
    cases hl

theorem buildStore_agree (freq : Vector Word Config.nsym) (node node' : Vector Slot Config.nnode) :
    ∃ W, Agree W (buildStore freq node) (buildStore freq node') :=
  (makeLeaves_agree freq node node').mergeAll Config.lenMax

theorem tree_of_noRoot {s : State} (h : s.rootValid = false) : s.tree = none := by
  rw [State.tree, if_neg (by rw [h]; exact Bool.false_ne_true)]

theorem tree_of_root {s : State} (h : s.rootValid = true) : s.tree = treeAt s.node (Config.lenMax + 1) s.rootIdx := by
  rw [State.tree, if_pos h]

theorem live_of_noRoot {s : State} (h : s.rootValid = false) (i : Idx) : s.live i = false := by
  rw [State.live, h, Bool.false_and]

theorem live_of_root {s : State} (h : s.rootValid = true) (i : Idx) :
    s.live i = reaches s.node (Config.lenMax + 1) s.rootIdx i := by
  rw [State.live, h, Bool.true_and]

/-- Two states with the same root and the same slots below it hold the same tree and the same live slots. -/
theorem sameTree_of_sameSlots {s t : State} (hv : s.rootValid = t.rootValid) (hi : s.rootIdx = t.rootIdx)
    (h : s.rootValid = true → ∃ W, W s.rootIdx ∧ SameSlots W s.node t.node) :
    s.tree = t.tree ∧ ∀ i, s.live i = t.live i ∧ (s.live i = true → slotAt s.node i = slotAt t.node i) := by
  cases hval : s.rootValid with
  | false =>
    have hval' := hv.symm.trans hval
    rw [tree_of_noRoot hval, tree_of_noRoot hval']
    refine ⟨rfl, fun i => ?_⟩
    rw [live_of_noRoot hval, live_of_noRoot hval']
    exact ⟨rfl, fun h => absurd h Bool.false_ne_true⟩
  | true =>
    have hval' := hv.symm.trans hval
    obtain ⟨W, hroot, hW⟩ := h hval
    rw [tree_of_root hval, tree_of_root hval', ← hi]
    refine ⟨hW.treeAt_eq _ hroot, fun i => ?_⟩
    rw [live_of_root hval, live_of_root hval', ← hi]
    refine ⟨?_, fun hlive => hW.slots i (hW.reaches hroot hlive).2⟩
    exact Bool.eq_iff_iff.mpr ⟨fun hl => (hW.reaches hroot hl).1, fun hl => (hW.symm.reaches hroot hl).1⟩

/-- From agreeing collections the same root is planted, over the same slots. -/
theorem plantRoot_agree {W : Idx → Prop} {b c : Store} (h : Agree W b c) (k : Nat) (s s' : State) :
    (plantRoot k (buildClear s) b).rootValid = (plantRoot k (buildClear s') c).rootValid ∧
      (plantRoot k (buildClear s) b).rootIdx = (plantRoot k (buildClear s') c).rootIdx ∧
      (plantRoot k (buildClear s) b).nleaf = (plantRoot k (buildClear s') c).nleaf ∧
      ((plantRoot k (buildClear s) b).rootValid = true → W (plantRoot k (buildClear s) b).rootIdx) := by
  unfold plantRoot
  rw [← h.least_eq]
  cases hl : b.least with
  | none => exact ⟨rfl, rfl, rfl, fun h => by cases h⟩
  | some r => exact ⟨rfl, rfl, rfl, fun _ => h.members _ (least_eq_some hl).1.1⟩

/-- The tree BUILD leaves depends on FREQ alone. -/
theorem buildEffect_sameTree {s s' : State} (hfreq : s'.freq = s.freq) :
    (buildEffect s).rootValid = (buildEffect s').rootValid ∧ (buildEffect s).rootIdx = (buildEffect s').rootIdx ∧
      (buildEffect s).nleaf = (buildEffect s').nleaf ∧ (buildEffect s).tree = (buildEffect s').tree ∧
      ∀ i, (buildEffect s).live i = (buildEffect s').live i ∧
        ((buildEffect s).live i = true → slotAt (buildEffect s).node i = slotAt (buildEffect s').node i) := by
  rw [buildEffect, buildEffect, hfreq]
  by_cases hsum : 2 ^ 32 ≤ freqSum s.freq
  · rw [if_pos hsum, if_pos hsum]
    exact ⟨rfl, rfl, rfl, sameTree_of_sameSlots rfl rfl fun h => absurd h Bool.false_ne_true⟩
  · rw [if_neg hsum, if_neg hsum]
    obtain ⟨W, hW⟩ := buildStore_agree s.freq s.node s'.node
    obtain ⟨hvalid, hroot, hnleaf, hmem⟩ := plantRoot_agree hW (leafCount s.freq) s s'
    refine ⟨hvalid, hroot, hnleaf, sameTree_of_sameSlots hvalid hroot fun hv => ⟨W, hmem hv, ?_⟩⟩
    rw [finish_node, finish_node, plantRoot_node, plantRoot_node]
    exact hW.nodes

/-- Settles O32: the two stores agree after the leaves and after every merge, so the same root is planted. -/
theorem buildIsDeterministic : Obligations.BuildIsDeterministic := by
  intro s s' hdue hdue' hfreq
  obtain ⟨b, d, hexec⟩ := execBuild_due hdue
  obtain ⟨b', d', hexec'⟩ := execBuild_due hdue'
  exact ⟨_, _, hexec, hexec', buildEffect_sameTree hfreq.symm⟩

end Sys2Proof

namespace Sys2Proof

open Sys2Proof.Machine

/-! DERIVE: its effect when due, with no tree and with one (42_code_table.md R120 to R123). -/

theorem execDerive_due {s : State} (hdue : effectDue .derive s) :
    ∃ b d, exec .derive s = deriveEffect { s with busy := b, done := d, op := opcodeOf .derive } :=
  atomicMove_effectDue hdue

theorem execDerive_noTree {s : State} (hdue : effectDue .derive s) (hv : s.rootValid = false) :
    ∃ t, exec .derive s = .next t ∧ ended .derive t ∧ sameRecord s t ∧ t.code = emptyCode := by
  obtain ⟨b, d, hexec⟩ := execDerive_due hdue
  rw [deriveEffect, hv] at hexec
  exact ⟨_, hexec, ⟨rfl, rfl, rfl⟩, ⟨rfl, rfl⟩, rfl⟩

theorem rootValid_of_tree {s : State} {T : Tree} (hT : s.tree = some T) : s.rootValid = true := by
  by_contra hv
  rw [tree_of_noRoot (Bool.eq_false_iff.mpr hv)] at hT
  cases hT

/-- DERIVE leaves the code table of the tree the state holds. -/
theorem execDerive_tree {s : State} {T : Tree} (hdue : effectDue .derive s) (hT : s.tree = some T)
    (hd : T.distinct) : ∃ t, exec .derive s = .next t ∧ ended .derive t ∧ sameRecord s t ∧
      ∀ x, symEntry t.code x = T.codeOf x := by
  have hv := rootValid_of_tree hT
  rw [tree_of_root hv] at hT
  obtain ⟨c, hc, hcode⟩ := deriveTree_spec hT hd
  obtain ⟨b, d, hexec⟩ := execDerive_due hdue
  rw [deriveEffect, hv, if_pos rfl, hc] at hexec
  exact ⟨_, hexec, ⟨rfl, rfl, rfl⟩, ⟨rfl, rfl⟩, hcode⟩

/-- A leaf slot at the root is the whole tree (10_state.md R18). -/
theorem tree_of_leafRoot {s : State} {n : Slot} (hv : s.rootValid = true) (hn : slotAt s.node s.rootIdx = some n)
    (hl : n.leaf = true) : s.tree = some (.leaf n.w.toNat n.sym) := by
  rw [tree_of_root hv, treeAt, hn]
  exact if_pos hl

theorem tree_of_sameTree {s t : State} (h : sameTree s t) : t.tree = s.tree := by
  obtain ⟨hnode, hvalid, hroot, -⟩ := h
  rw [State.tree, State.tree, hnode, hvalid, hroot]

/-- Settles O35: with no tree the table is the empty one, with a single leaf the leaf's `codeOf`. -/
theorem deriveOfNoTreeOrOneLeaf : Obligations.DeriveOfNoTreeOrOneLeaf := by
  intro s hdue
  refine ⟨fun hv => ?_, fun n hv hn hl => ?_⟩
  · obtain ⟨t, hexec, hended, hrecord, hcode⟩ := execDerive_noTree hdue hv
    exact ⟨t, hexec, hended, hrecord, fun x => by rw [hcode, symEntry_emptyCode]⟩
  · obtain ⟨t, hexec, hended, hrecord, hcode⟩ :=
      execDerive_tree hdue (tree_of_leafRoot hv hn hl) (List.nodup_singleton _)
    exact ⟨t, hexec, hended, hrecord, (hcode _).trans (if_pos rfl), fun x hx => (hcode x).trans (if_neg hx)⟩

/-- Settles O37: the table is empty or the `codeOf` of the tree, which is the same in both states. -/
theorem deriveIsFresh : Obligations.DeriveIsFresh := by
  intro s s' hinv hdue hdue' hsame
  have ⟨_, hvalid, _⟩ := hsame
  cases hv : s.rootValid with
  | false =>
    obtain ⟨t, hexec, -, -, hcode⟩ := execDerive_noTree hdue hv
    obtain ⟨t', hexec', -, -, hcode'⟩ := execDerive_noTree hdue' (hvalid.trans hv)
    exact ⟨t, t', hexec, hexec', hcode.trans hcode'.symm⟩
  | true =>
    obtain ⟨T, hT, ⟨-, hd, -⟩, -⟩ := hinv.tree hv
    obtain ⟨t, hexec, -, -, hcode⟩ := execDerive_tree hdue hT hd
    obtain ⟨t', hexec', -, -, hcode'⟩ := execDerive_tree hdue' ((tree_of_sameTree hsame).trans hT) hd
    exact ⟨t, t', hexec, hexec', table_ext fun x => (hcode x).trans (hcode' x).symm⟩

/-- Settles O40: `execDerive_changes` names every element that may change. -/
theorem deriveFrame : Obligations.DeriveFrame := by
  intro s t h
  rw [execDerive_changes h]
  exact ⟨rfl, ⟨rfl, rfl, rfl, rfl⟩, ⟨rfl, rfl⟩, rfl, rfl, rfl, ⟨rfl, rfl⟩, ⟨rfl, rfl⟩, ⟨rfl, rfl, rfl, rfl⟩,
    ⟨rfl, rfl, rfl, rfl, rfl, rfl⟩⟩

/-! The paths of a tree as a code (42_code_table.md R123, R126). -/

namespace Tree

/-- With distinct symbols a leaf's path is the one found for its symbol. -/
theorem lookup_path {t : Tree} (hd : t.distinct) {e : Sym × Bits} (he : e ∈ t.paths) :
    t.paths.lookup e.1 = some e.2 := by
  have hx : e.1 ∈ t.leaves.map (·.1) := by
    rw [← paths_symbols]
    exact List.mem_map_of_mem he
  obtain ⟨p, hp⟩ := exists_path hx
  rw [distinct, ← paths_symbols] at hd
  rw [hp, List.inj_on_of_nodup_map hd he (mem_of_lookup hp) rfl]

theorem codeOf_path {t : Tree} (hleaf : t.isLeaf = false) (hd : t.distinct) {e : Sym × Bits} (he : e ∈ t.paths) :
    t.codeOf e.1 = e.2 := by
  cases t with
  | leaf w x => cases hleaf
  | node w l r => rw [codeOf, lookup_path hd he, Option.getD_some]

theorem codeOf_of_not_mem {t : Tree} (hleaf : t.isLeaf = false) {x : Sym} (hx : x ∉ t.leaves.map (·.1)) :
    t.codeOf x = [] := by
  cases t with
  | leaf w y => cases hleaf
  | node w l r =>
    rw [← paths_symbols] at hx
    rw [codeOf, lookup_eq_none_of_not_mem _ _ hx, Option.getD_none]

/-- A leaf below the root: the first step of its path leads to the subtree it is in. -/
theorem mem_paths_node {w : Nat} {l r : Tree} {e : Sym × Bits} : e ∈ (node w l r).paths ↔
    ∃ (b : Bool) (p : Bits), e = (e.1, b :: p) ∧ (e.1, p) ∈ ((node w l r).child b).paths := by
  constructor
  · intro he
    rcases List.mem_append.mp he with he | he
    · obtain ⟨e', he', rfl⟩ := List.mem_map.mp he
      exact ⟨false, e'.2, rfl, he'⟩
    · obtain ⟨e', he', rfl⟩ := List.mem_map.mp he
      exact ⟨true, e'.2, rfl, he'⟩
  · rintro ⟨b, p, he, hp⟩
    rw [he]
    cases b with
    | false => exact List.mem_append_left _ (List.mem_map_of_mem (f := fun e => (e.1, false :: e.2)) hp)
    | true => exact List.mem_append_right _ (List.mem_map_of_mem (f := fun e => (e.1, true :: e.2)) hp)

/-- No path is the beginning of another leaf's path. -/
theorem path_prefixFree {t : Tree} {e e' : Sym × Bits} (he : e ∈ t.paths) (he' : e' ∈ t.paths)
    (h : e.2 <+: e'.2) : e = e' := by
  induction t generalizing e e' with
  | leaf w x => rw [List.mem_singleton.mp he, List.mem_singleton.mp he']
  | node w l r ihl ihr =>
    obtain ⟨b, p, hb, hp⟩ := mem_paths_node.mp he
    obtain ⟨b', p', hb', hp'⟩ := mem_paths_node.mp he'
    rw [hb, hb', List.cons_prefix_cons] at h
    obtain ⟨rfl, h⟩ := h
    have hsame : (e.1, p) = (e'.1, p') := by
      cases b with
      | false => exact ihl hp hp' h
      | true => exact ihr hp hp' h
    obtain ⟨hx, rfl⟩ := Prod.mk.inj hsame
    rw [hb, hb', hx]

theorem paths_ne_nil (t : Tree) : t.paths ≠ [] := by
  intro h
  have := t.paths_symbols
  rw [h, List.map_nil, eq_comm, List.map_eq_nil_iff] at this
  exact t.leaves_ne_nil this

/-- The Kraft sum of the paths is 1, in units of `2^(-n)`. -/
theorem kraft_paths {t : Tree} {n : ℕ} (hn : ∀ e ∈ t.paths, e.2.length ≤ n) :
    (t.paths.map fun e => 2 ^ (n - e.2.length)).sum = 2 ^ n := by
  induction t generalizing n with
  | leaf w x => simp [paths]
  | node w l r ihl ihr =>
    have hchild : ∀ b : Bool, ∀ e ∈ ((node w l r).child b).paths, e.2.length + 1 ≤ n := fun b e he =>
      hn (e.1, b :: e.2) (mem_paths_node.mpr ⟨b, e.2, rfl, he⟩)
    obtain ⟨e, he⟩ := List.exists_mem_of_ne_nil _ l.paths_ne_nil
    obtain ⟨m, rfl⟩ : ∃ m, n = m + 1 := ⟨n - 1, by have := hchild false e he; omega⟩
    have left := ihl fun e he => Nat.le_of_succ_le_succ (hchild false e he)
    have right := ihr fun e he => Nat.le_of_succ_le_succ (hchild true e he)
    simp only [paths, List.map_append, List.map_map, List.sum_append, Function.comp_def, List.length_cons,
      Nat.add_sub_add_right, left, right]
    rw [pow_succ]
    omega

end Tree

/-- Settles O36: the table is the tree's `codeOf`, which for two leaves or more gives the paths. -/
theorem deriveRecordsPaths : Obligations.DeriveRecordsPaths := by
  intro s T hdue hT hleaf hd
  obtain ⟨t, hexec, hended, hrecord, hcode⟩ := execDerive_tree hdue hT hd
  exact ⟨t, hexec, hended, hrecord, fun e he => (hcode _).trans (T.codeOf_path hleaf hd he),
    fun x hx => (hcode x).trans (T.codeOf_of_not_mem hleaf hx)⟩

/-- Settles O38: by `deriveRecordsPaths` the codes are the paths, so `path_prefixFree` and `kraft_paths` speak of
them. -/
theorem derivedCodesArePrefixFree : Obligations.DerivedCodesArePrefixFree := by
  intro s T hinv hdue hT hleaf
  have hv := rootValid_of_tree hT
  obtain ⟨T', hT', ⟨-, hd, -⟩, -⟩ := hinv.tree hv
  obtain rfl : T = T' := Option.some.inj (hT.symm.trans hT')
  obtain ⟨t, hexec, -, -, hpath, -⟩ := deriveRecordsPaths s T hdue hT hleaf hd
  have hmem : ∀ x ∈ T.leaves.map (·.1), (x, symEntry t.code x) ∈ T.paths := by
    intro x hx
    rw [← T.paths_symbols] at hx
    obtain ⟨e, he, rfl⟩ := List.mem_map.mp hx
    rwa [hpath e he]
  refine ⟨t, hexec, fun x hx => ?_, fun x hx y hy hne hpre => ?_, ?_⟩
  · cases T with
    | leaf w y => cases hleaf
    | node w l r =>
      obtain ⟨b, p, hb, -⟩ := Tree.mem_paths_node.mp (hmem x hx)
      rw [(Prod.mk.inj hb).2]
      exact Nat.le_add_left 1 p.length
  · exact hne (Prod.mk.inj (Tree.path_prefixFree (hmem x hx) (hmem y hy) hpre)).1
  · rw [tree_of_root hv] at hT
    have hlen : ∀ e ∈ T.paths, e.2.length ≤ 255 := fun e he => Nat.le_of_lt_succ (treeAt_path_length hT e he)
    calc (T.leaves.map fun e => 2 ^ (255 - (symEntry t.code e.1).length)).sum
        = ((T.leaves.map (·.1)).map fun x => 2 ^ (255 - (symEntry t.code x).length)).sum := by
          rw [List.map_map]; rfl
      _ = (T.paths.map fun e => 2 ^ (255 - (symEntry t.code e.1).length)).sum := by
          rw [← T.paths_symbols, List.map_map]; rfl
      _ = (T.paths.map fun e => 2 ^ (255 - e.2.length)).sum :=
          congrArg List.sum (List.map_congr_left fun e he => by rw [hpath e he])
      _ = 2 ^ 255 := Tree.kraft_paths hlen

/-- The cost of the code of a single-leaf tree is the one count (43_encoder.md R139). -/
theorem codeCost_codeOf_single {freq : Vector Word Config.nsym} {t : Tree} (hk : leafCount freq = 1)
    (hp : t.leaves.Perm (mapping freq)) : codeCost freq t.codeOf = freqSum freq := by
  rw [← mapping_length] at hk
  obtain ⟨⟨x, w⟩, hmap⟩ := List.length_eq_one_iff.mp hk
  rw [codeCost_eq, ← mapping_sum, hmap]
  rw [hmap, List.perm_singleton] at hp
  simp [Tree.eq_leaf hp, Tree.codeOf]

/-- Settles O39: DERIVE's table is the `codeOf` of BUILD's tree over the mapping, whose cost `codeCost_codeOf` and
`codeCost_codeOf_single` give. -/
theorem codeCostIsInnerWeight : Obligations.CodeCostIsInnerWeight := by
  intro s hdue hperiod hk hsum
  obtain ⟨t, T, hbuild, ⟨hidle, -⟩, -, -, hT, hw, hp, -⟩ := buildMakesTheTree s hdue hk hsum
  obtain ⟨⟨-, hd, -⟩, -⟩ := TreeOk.ofMapping hw hp hsum
  have hdue' : effectDue .derive t := .inl ⟨hidle, by rw [execBuild_changes hbuild]; exact hperiod⟩
  obtain ⟨u, hderive, -, -, hcode⟩ := execDerive_tree hdue' hT hd
  refine ⟨t, u, T, hbuild, hT, hderive, ?_⟩
  rw [funext hcode]
  exact ⟨fun h2 => codeCost_codeOf h2 hw hp, fun h1 => codeCost_codeOf_single h1 hp⟩

end Sys2Proof

namespace Sys2Proof

open Sys2Proof.Machine

/-! ENCODE: its acceptance and its transfers, one equation each (43_encoder.md R130 to R138). -/

theorem execEncode_accept {s : State} (hb : s.busy = false) :
    exec .encode s = .next (encodeStart (accept (opcodeOf .encode) s)) :=
  streamMove_accept hb

theorem execEncode_take {s : State} {it : RawItem 8} {rest : List (RawItem 8)} (hw : waitsToTake .encode s)
    (hi : s.symIn = it :: rest) : exec .encode s = .next (encodeItem (readItem it) { s with symIn := rest }) := by
  obtain ⟨hb, -, hp⟩ := hw
  rw [exec_encode, streamMove_running hb, encodeTransfer_take hp, takeSym_cons hi]

theorem encodeItem_emits {s : State} {x : Sym} (h : symEntry s.code x ≠ []) :
    encodeItem (.data x) s = { s with esym := x, ebit := 0, phase := .emitBit } :=
  if_neg h

/-- The items of SYM_IN after which only the END of the output is left to put, each with how ENCODE then ends
(43_encoder.md R132, R133, R135). -/
inductive ClosesEncode (code : Vector Bits Config.nsym) : InItem 8 → Ending → Prop
  | finish : ClosesEncode code .endItem .finish
  | noCode {x : Sym} (h : symEntry code x = []) : ClosesEncode code (.data x) (.fault eNoCode (x.setWidth 32))
  | error : ClosesEncode code .errorItem (.fault eIo 0)

theorem encodeItem_closes {s : State} {it : InItem 8} {e : Ending} (h : ClosesEncode s.code it e) :
    encodeItem it s = { s with phase := .close e } := by
  cases h with
  | finish => rfl
  | noCode h => exact if_pos h
  | error => rfl

/-- A symbol with a code is taken, to be emitted from its first bit on (43_encoder.md R131). -/
theorem execEncode_symbol {s : State} {it : RawItem 8} {rest : List (RawItem 8)} {x : Sym}
    (hw : waitsToTake .encode s) (hi : s.symIn = it :: rest) (hit : readItem it = .data x)
    (hx : symEntry s.code x ≠ []) :
    exec .encode s = .next { s with symIn := rest, esym := x, ebit := 0, phase := .emitBit } := by
  rw [execEncode_take hw hi, hit, encodeItem_emits (s := { s with symIn := rest }) hx]

/-- An item that closes ENCODE is taken, and END is left to put. -/
theorem execEncode_closing {s : State} {it : RawItem 8} {rest : List (RawItem 8)} {e : Ending}
    (hw : waitsToTake .encode s) (hi : s.symIn = it :: rest) (hit : ClosesEncode s.code (readItem it) e) :
    exec .encode s = .next { s with symIn := rest, phase := .close e } := by
  rw [execEncode_take hw hi, encodeItem_closes (s := { s with symIn := rest }) hit]

/-- A bit that is not the last one is put, and the next one is offered (43_encoder.md R138). -/
theorem execEncode_bit {s : State} (hb : s.busy = true) (hp : s.phase = .emitBit) (hr : s.boReady = true)
    (hmore : s.ebit.toNat + 1 < (symEntry s.code s.esym).length) :
    exec .encode s =
      .next { s with bitOut := s.bitOut ++ [.data (BitVec.ofBool s.codeBit)], ebit := s.ebit + 1 } := by
  rw [exec_encode, streamMove_running hb, encodeTransfer_emitBit hp, putBit_taken hr]
  exact congrArg Host.Outcome.next (if_pos hmore)

/-- The last bit is put, and ENCODE waits for the next item (43_encoder.md R138). -/
theorem execEncode_lastBit {s : State} (hb : s.busy = true) (hp : s.phase = .emitBit) (hr : s.boReady = true)
    (hlast : (symEntry s.code s.esym).length ≤ s.ebit.toNat + 1) :
    exec .encode s = .next { s with
      bitOut := s.bitOut ++ [.data (BitVec.ofBool s.codeBit)], ebit := s.ebit + 1, phase := .take } := by
  rw [exec_encode, streamMove_running hb, encodeTransfer_emitBit hp, putBit_taken hr]
  exact congrArg Host.Outcome.next (if_neg hlast.not_gt)

theorem execEncode_close {s : State} {e : Ending} (hb : s.busy = true) (hp : s.phase = .close e)
    (hr : s.boReady = true) :
    exec .encode s = .next (endCommand e { s with bitOut := s.bitOut ++ [.endItem] }) := by
  rw [exec_encode, streamMove_running hb, encodeTransfer_close hp, putBit_taken hr]

/-- With an item on offer and a sink that is not ready ENCODE waits (20_memory.md R53). -/
theorem execEncode_waits {s : State} (hb : s.busy = true) (hp : s.phase = .emitBit ∨ ∃ e, s.phase = .close e)
    (hr : s.boReady = false) : exec .encode s = .next s := by
  rw [exec_encode, streamMove_running hb]
  rcases hp with hp | ⟨e, hp⟩
  · rw [encodeTransfer_emitBit hp, putBit_waits hr]
  · rw [encodeTransfer_close hp, putBit_waits hr]

@[simp] theorem encodeItem_bitOut (it : InItem 8) (s : State) : (encodeItem it s).bitOut = s.bitOut := by
  obtain ⟨x, n, p, e⟩ := encodeItem_changes it s
  rw [e]

@[simp] theorem encodeAdvance_symIn (s : State) : (encodeAdvance s).symIn = s.symIn := by
  obtain ⟨n, p, e⟩ := encodeAdvance_changes s
  rw [e]

@[simp] theorem endCommand_symIn (e : Ending) (s : State) : (endCommand e s).symIn = s.symIn := by
  cases e <;> rfl

theorem endCommand_ended (e : Ending) {i : Instr} {s : State} (ho : s.op = opcodeOf i) :
    ended i (endCommand e s) := by
  cases e with
  | finish => exact ⟨rfl, rfl, ho⟩
  | fault code info => exact ⟨rfl, rfl, ho⟩

/-- Settles O41: the acceptance of ENCODE is `encodeStart`; an item is a symbol with a code (`execEncode_symbol`) or
closes ENCODE (`execEncode_closing`). -/
theorem encodeTakesItem : Obligations.EncodeTakesItem := by
  refine ⟨fun s hb => execEncode_accept hb, fun s it rest hw hi => ⟨fun x hit hx => execEncode_symbol hw hi hit hx,
    fun x hit hx => ?_, fun hit => ?_, fun hit => ?_⟩⟩
  · exact execEncode_closing hw hi (hit ▸ .noCode hx)
  · exact execEncode_closing hw hi (hit ▸ .finish)
  · exact execEncode_closing hw hi (hit ▸ .error)

/-- Settles O42: a bit put is the last one (`execEncode_lastBit`) or not (`execEncode_bit`); END is put with the end of
the command (`execEncode_close`); else ENCODE waits (`execEncode_waits`). -/
theorem encodePutsItem : Obligations.EncodePutsItem := by
  intro s hb ho
  refine ⟨fun hp hr => ?_, fun e hp hr => ?_, fun hr hp => execEncode_waits hb hp hr⟩
  · by_cases hmore : s.ebit.toNat + 1 < (symEntry s.code s.esym).length
    · exact ⟨_, execEncode_bit hb hp hr hmore, rfl, rfl, rfl, rfl, fun _ => hp, fun hlast => absurd hmore hlast.not_gt⟩
    · exact ⟨_, execEncode_lastBit hb hp hr (Nat.le_of_not_gt hmore), rfl, rfl, rfl, rfl, fun h => absurd h hmore,
        fun _ => rfl⟩
  · refine ⟨_, execEncode_close hb hp hr, endCommand_bitOut e _, endCommand_ended e ho, ?_, ?_⟩
    · rintro rfl
      exact ⟨rfl, rfl⟩
    · rintro c v rfl
      exact ⟨rfl, rfl⟩

/-- A move of ENCODE takes at most the head of SYM_IN and puts at most one item on BIT_OUT (20_memory.md R52, R53). -/
theorem execEncode_streams {s t : State} (h : exec .encode s = .next t) :
    (t.symIn = s.symIn ∨ ∃ it, s.symIn = it :: t.symIn) ∧
      (t.bitOut = s.bitOut ∨ ∃ item, t.bitOut = s.bitOut ++ [item]) := by
  rcases streamMove_cases h with ⟨-, rfl⟩ | ⟨-, h⟩
  · exact ⟨.inl rfl, .inl rfl⟩
  rcases encodeTransfer_cases h with rfl | ⟨it, rest, -, hi, rfl⟩ | ⟨-, -, rfl⟩ | ⟨e, -, -, rfl⟩
  · exact ⟨.inl rfl, .inl rfl⟩
  · exact ⟨.inr ⟨it, by rw [hi, encodeItem_symIn]⟩, .inl (encodeItem_bitOut _ _)⟩
  · exact ⟨.inl (encodeAdvance_symIn _), .inr ⟨_, encodeAdvance_bitOut _⟩⟩
  · exact ⟨.inl (endCommand_symIn e _), .inr ⟨_, endCommand_bitOut e _⟩⟩

/-- Settles O45: `execEncode_changes` names the elements that may change, `execEncode_streams` what SYM_IN loses and
BIT_OUT gains. -/
theorem encodeFrame : Obligations.EncodeFrame := by
  intro s t h
  obtain ⟨hsym, hbit⟩ := execEncode_streams h
  rw [execEncode_changes h]
  exact ⟨rfl, ⟨rfl, rfl, rfl, rfl⟩, rfl, rfl, rfl, rfl, ⟨rfl, rfl⟩, rfl, rfl, rfl, hsym, hbit,
    ⟨rfl, rfl, rfl, rfl, rfl, rfl⟩⟩

/-! ENCODE on a whole input (43_encoder.md R137): runs with nothing scheduled and the sink ready. -/

theorem bitData_append (a b : Bits) : bitData (a ++ b) = bitData a ++ bitData b := List.map_append

/-- ENCODE stands in the code of ESYM with `bits` left to put (43_encoder.md R138). -/
structure Emits (s : State) (bits : Bits) : Prop where
  busy : s.busy = true
  op : s.op = opcodeOf .encode
  position : s.phase = .emitBit
  fits : (symEntry s.code s.esym).length ≤ 255
  left : (symEntry s.code s.esym).drop s.ebit.toNat = bits

section
variable {s : State} {b : Bool} {bs : Bits}

theorem Emits.length_code (h : Emits s (b :: bs)) :
    (symEntry s.code s.esym).length = s.ebit.toNat + 1 + bs.length := by
  have hlen := congrArg List.length h.left
  rw [List.length_drop, List.length_cons] at hlen
  omega

theorem Emits.codeBit (h : Emits s (b :: bs)) : s.codeBit = b := by
  have hget := List.getElem?_drop (xs := symEntry s.code s.esym) (i := s.ebit.toNat) (j := 0)
  rw [h.left, Nat.add_zero] at hget
  rw [State.codeBit, List.getD_eq_getElem?_getD, ← hget]
  rfl

/-- EBIT does not wrap around inside a code of at most 255 bits. -/
theorem Emits.toNat_ebit_succ (h : Emits s (b :: bs)) : (s.ebit + 1).toNat = s.ebit.toNat + 1 := by
  have hcode := h.length_code
  have hfits := h.fits
  bv_omega

/-- After the last bit ENCODE waits for the next item. -/
theorem Emits.move_last (h : Emits s [b]) (hr : s.boReady = true) :
    exec .encode s =
      .next { s with bitOut := s.bitOut ++ bitData [b], ebit := s.ebit + 1, phase := .take } := by
  rw [execEncode_lastBit h.busy h.position hr h.length_code.le, h.codeBit]
  rfl

/-- Before the last bit ENCODE goes on to the next one. -/
theorem Emits.move_more {c : Bool} (h : Emits s (b :: c :: bs)) (hr : s.boReady = true) :
    exec .encode s = .next { s with bitOut := s.bitOut ++ bitData [b], ebit := s.ebit + 1 } := by
  have hlen := h.length_code
  rw [List.length_cons] at hlen
  rw [execEncode_bit h.busy h.position hr (by omega), h.codeBit]
  rfl

theorem Emits.next (h : Emits s (b :: bs)) (out : List (OutItem 1)) :
    Emits { s with bitOut := out, ebit := s.ebit + 1 } bs := by
  refine ⟨h.busy, h.op, h.position, h.fits, ?_⟩
  dsimp only
  rw [h.toNat_ebit_succ, ← List.tail_drop, h.left, List.tail_cons]

end

/-- From bit EBIT on, the rest of the code is put in order, and ENCODE waits for the next item. -/
theorem Emits.run {s : State} {b : Bool} {bs : Bits} (h : Emits s (b :: bs)) (hs : s.script = [])
    (hr : s.boReady = true) :
    ∃ n, Reaches s { s with bitOut := s.bitOut ++ bitData (b :: bs), ebit := n, phase := .take } := by
  have hstep := step_running h.busy h.op hs
  induction bs generalizing s b with
  | nil => exact ⟨_, .head (hstep.trans (h.move_last hr)) (.refl _)⟩
  | cons c cs ih =>
    have hnext := h.next (s.bitOut ++ bitData [b])
    obtain ⟨n, hrun⟩ := ih hnext hs hr (step_running hnext.busy hnext.op hs)
    rw [List.append_assoc, ← bitData_append] at hrun
    exact ⟨n, .head (hstep.trans (h.move_more hr)) hrun⟩

theorem step_waitsToTake {i : Instr} {s : State} (hw : waitsToTake i s) (hs : s.script = []) : step s = exec i s := by
  obtain ⟨hb, ho, -⟩ := hw
  exact step_running hb ho hs

/-- A symbol with a code, taken and emitted (43_encoder.md R131). -/
theorem encodeRun_symbol {s : State} {x : Sym} {rest : List (RawItem 8)} (hw : waitsToTake .encode s)
    (hs : s.script = []) (hr : s.boReady = true) (hi : s.symIn = symItem x :: rest)
    (hx : symEntry s.code x ≠ []) (hlen : (symEntry s.code x).length ≤ 255) :
    ∃ n, Reaches s { s with
      symIn := rest, bitOut := s.bitOut ++ bitData (symEntry s.code x), esym := x, ebit := n, phase := .take } := by
  obtain ⟨b, bs, hcode⟩ := List.exists_cons_of_ne_nil hx
  have htake := (step_waitsToTake hw hs).trans (execEncode_symbol hw hi (readItem_symItem x) hx)
  obtain ⟨hb, ho, -⟩ := hw
  have hemits : Emits { s with symIn := rest, esym := x, ebit := 0, phase := .emitBit } (b :: bs) :=
    ⟨hb, ho, rfl, hlen, hcode⟩
  obtain ⟨n, hrun⟩ := hemits.run hs hr
  rw [hcode]
  exact ⟨n, .head htake hrun⟩

/-- Symbols with codes, taken and emitted one after the other (43_encoder.md R134). -/
theorem encodeRun_symbols {s : State} {xs : List Sym} {items : List (RawItem 8)} (hw : waitsToTake .encode s)
    (hs : s.script = []) (hr : s.boReady = true)
    (hcodes : ∀ x ∈ xs, symEntry s.code x ≠ [] ∧ (symEntry s.code x).length ≤ 255)
    (hi : s.symIn = xs.map symItem ++ items) :
    ∃ x n, Reaches s { s with
      symIn := items, bitOut := s.bitOut ++ bitData (xs.flatMap (symEntry s.code)), esym := x, ebit := n,
      phase := .take } := by
  induction xs generalizing s with
  | nil =>
    obtain ⟨-, -, hp⟩ := hw
    rw [List.map_nil, List.nil_append] at hi
    refine ⟨s.esym, s.ebit, ?_⟩
    rw [List.flatMap_nil, bitData, List.map_nil, List.append_nil, ← hp, ← hi]
    exact .refl s
  | cons y ys ih =>
    obtain ⟨⟨hy, hlen⟩, hys⟩ := List.forall_mem_cons.mp hcodes
    obtain ⟨n, hsymbol⟩ := encodeRun_symbol hw hs hr hi hy hlen
    obtain ⟨hb, ho, -⟩ := hw
    obtain ⟨x, m, hrun⟩ := ih (s := { s with
        symIn := ys.map symItem ++ items, bitOut := s.bitOut ++ bitData (symEntry s.code y), esym := y, ebit := n,
        phase := .take }) ⟨hb, ho, rfl⟩ hs hr hys rfl
    rw [List.append_assoc, ← bitData_append] at hrun
    exact ⟨x, m, hsymbol.trans hrun⟩

/-- The item that closes ENCODE is taken, END is put, and only then the command ends (43_encoder.md R132, R133,
R135). -/
theorem encodeRun_close {s : State} {it : RawItem 8} {rest : List (RawItem 8)} {e : Ending}
    (hw : waitsToTake .encode s) (hs : s.script = []) (hr : s.boReady = true) (hi : s.symIn = it :: rest)
    (hit : ClosesEncode s.code (readItem it) e) :
    Reaches s (endCommand e { s with symIn := rest, bitOut := s.bitOut ++ [.endItem], phase := .close e }) := by
  have htake := (step_waitsToTake hw hs).trans (execEncode_closing hw hi hit)
  obtain ⟨hb, ho, -⟩ := hw
  have hmove := step_running (s := { s with symIn := rest, phase := .close e }) hb ho hs
  exact .head htake (.head (hmove.trans (execEncode_close hb rfl hr)) (.refl _))

/-- ENCODE from its word to its end, on symbols with codes and an item that closes it. -/
theorem encode_reaches_end {s : State} {xs : List Sym} {it : RawItem 8} {rest : List (RawItem 8)} {e : Ending}
    (ha : acceptsCommand s) (hr : s.boReady = true)
    (hcodes : ∀ x ∈ xs, symEntry s.code x ≠ [] ∧ (symEntry s.code x).length ≤ 255)
    (hi : s.symIn = xs.map symItem ++ it :: rest) (hit : ClosesEncode s.code (readItem it) e) :
    ∃ x n, Reaches { s with script := [.hWrite 0 (encode .encode)] }
      (endCommand e { accept (opcodeOf .encode) s with
        symIn := rest, bitOut := s.bitOut ++ bitData (xs.flatMap (symEntry s.code)) ++ [.endItem], esym := x,
        ebit := n, phase := .close e, script := [] }) := by
  obtain ⟨hb, he⟩ := ha
  have hstart := (step_commandWritten (i := .encode) hb (.inl he)).trans (execEncode_accept hb)
  obtain ⟨x, n, hrun⟩ := encodeRun_symbols
    (s := encodeStart (accept (opcodeOf .encode) { s with script := [] })) ⟨rfl, rfl, rfl⟩ rfl hr hcodes hi
  have hclose := encodeRun_close (s := { accept (opcodeOf .encode) s with
      symIn := it :: rest, bitOut := s.bitOut ++ bitData (xs.flatMap (symEntry s.code)), esym := x, ebit := n,
      phase := .take, script := [] }) ⟨rfl, rfl, rfl⟩ rfl hr rfl hit
  exact ⟨x, n, .head hstart (hrun.trans hclose)⟩

/-- Settles O43: the run of ENCODE (`encode_reaches_end`), closed by END. -/
theorem encodeConcatenatesCodes : Obligations.EncodeConcatenatesCodes := by
  intro s xs rest ha hr hcodes hi
  obtain ⟨x, n, hrun⟩ := encode_reaches_end ha hr hcodes hi .finish
  exact ⟨_, ⟨hrun, rfl, rfl⟩, ⟨rfl, rfl, rfl⟩, ha.2, rfl, rfl, rfl, ⟨rfl, rfl, rfl, rfl⟩, rfl⟩

/-- Settles O44: the run of ENCODE (`encode_reaches_end`), closed by ERROR or by a symbol without a code. -/
theorem encodeFaultsPrecisely : Obligations.EncodeFaultsPrecisely := by
  intro s xs it rest ha hr hcodes hi hit
  rcases hit with hit | ⟨y, hit, hy⟩
  · obtain ⟨x, n, hrun⟩ := encode_reaches_end ha hr hcodes hi (e := .fault eIo 0) (hit ▸ .error)
    refine ⟨_, ⟨hrun, rfl, rfl⟩, ⟨rfl, rfl, rfl⟩, rfl, rfl, fun _ => ⟨rfl, rfl⟩, fun z hz => ?_⟩
    cases hit.symm.trans hz
  · obtain ⟨x, n, hrun⟩ := encode_reaches_end ha hr hcodes hi (e := .fault eNoCode (y.setWidth 32)) (hit ▸ .noCode hy)
    refine ⟨_, ⟨hrun, rfl, rfl⟩, ⟨rfl, rfl, rfl⟩, rfl, rfl, fun he => ?_, fun z hz => ?_⟩
    · cases hit.symm.trans he
    · cases hit.symm.trans hz
      exact ⟨rfl, rfl⟩

end Sys2Proof

namespace Sys2Proof

open Sys2Proof.Machine

/-! DECODE: its acceptance and its transfers, one equation each (44_decoder.md R140 to R145). -/

theorem execDecode_accept {s : State} (hb : s.busy = false) :
    exec .decode s = .next (decodeStart (accept (opcodeOf .decode) s)) :=
  streamMove_accept hb

theorem decodeStart_tree {s : State} (hv : s.rootValid = true) :
    decodeStart s = { s with midpath := false, cur := s.rootIdx, phase := .take } :=
  if_pos hv

theorem decodeStart_noTree {s : State} (hv : s.rootValid = false) :
    decodeStart s = { s with midpath := false, phase := .close .finish } :=
  if_neg (Bool.eq_false_iff.mp hv)

theorem execDecode_take {s : State} {it : RawItem 1} {rest : List (RawItem 1)} (hw : waitsToTake .decode s)
    (hi : s.bitIn = it :: rest) : exec .decode s = decodeItem (readItem it) { s with bitIn := rest } := by
  obtain ⟨hb, -, hp⟩ := hw
  rw [exec_decode, streamMove_running hb, decodeTransfer_take hp, takeBit_cons hi]

/-- The sink takes the symbol, and the cursor returns to the root (44_decoder.md R142). -/
theorem execDecode_emit {s : State} {v : Sym} (hb : s.busy = true) (hp : s.phase = .emitSym v)
    (hr : s.soReady = true) :
    exec .decode s = .next { s with symOut := s.symOut ++ [.data v], cur := s.rootIdx, phase := .take } := by
  rw [exec_decode, streamMove_running hb, decodeTransfer_emitSym hp, putSym_taken hr]
  rfl

theorem execDecode_close {s : State} {e : Ending} (hb : s.busy = true) (hp : s.phase = .close e)
    (hr : s.soReady = true) :
    exec .decode s = .next (endCommand e { s with symOut := s.symOut ++ [.endItem] }) := by
  rw [exec_decode, streamMove_running hb, decodeTransfer_close hp, putSym_taken hr]

/-- With an item on offer and a sink that is not ready DECODE waits (20_memory.md R53). -/
theorem execDecode_waits {s : State} (hb : s.busy = true)
    (hp : (∃ v, s.phase = .emitSym v) ∨ ∃ e, s.phase = .close e) (hr : s.soReady = false) :
    exec .decode s = .next s := by
  rw [exec_decode, streamMove_running hb]
  rcases hp with ⟨v, hp⟩ | ⟨e, hp⟩
  · rw [decodeTransfer_emitSym hp, putSym_waits hr]
  · rw [decodeTransfer_close hp, putSym_waits hr]

/-! One bit, by what the new cursor is (44_decoder.md R143). -/

theorem childOf_ofBool (n : Slot) (b : Bool) : childOf n (BitVec.ofBool b) = if b then n.r else n.l := by
  cases b <;> rfl

section
variable {s : State} {b : BitVec 1} {n m : Slot}

theorem decodeBit_null (hn : slotAt s.node s.cur = some n) (hm : slotAt s.node s.rootIdx = some m)
    (hc : childOf n b = Config.nil) :
    decodeBit b s = .next { s with cur := Config.nil, phase := .emitSym m.sym } := by
  simp [decodeBit, hn, hm, hc]

/-- NIL names no slot (00_scope.md R7). -/
theorem ne_nil_of_slotAt {node : Vector Slot Config.nnode} {i : Idx} (h : slotAt node i = some m) :
    i ≠ Config.nil := by
  rintro rfl
  cases h

theorem decodeBit_leaf (hn : slotAt s.node s.cur = some n) (hm : slotAt s.node (childOf n b) = some m)
    (hleaf : m.leaf = true) : decodeBit b s = .next { s with cur := childOf n b, phase := .emitSym m.sym } := by
  simp [decodeBit, hn, hm, hleaf, ne_nil_of_slotAt hm]

theorem decodeBit_internal (hn : slotAt s.node s.cur = some n) (hm : slotAt s.node (childOf n b) = some m)
    (hleaf : m.leaf = false) : decodeBit b s = .next { s with cur := childOf n b } := by
  simp [decodeBit, hn, hm, hleaf, ne_nil_of_slotAt hm]

end

/-- Settles O46: the acceptance of DECODE is `decodeStart`, by whether there is a tree. -/
theorem decodeStarts : Obligations.DecodeStarts := by
  intro s hb
  rw [execDecode_accept hb]
  exact ⟨fun hv => congrArg _ (decodeStart_tree hv), fun hv => congrArg _ (decodeStart_noTree hv)⟩

/-- Settles O47: the bit is taken, and the new cursor is null (`decodeBit_null`), a leaf (`decodeBit_leaf`) or internal
(`decodeBit_internal`). -/
theorem decodeTakesBit : Obligations.DecodeTakesBit := by
  intro s it rest b n root c hw hi hit hn hroot hc
  rw [← childOf_ofBool] at hc
  subst hc
  rw [execDecode_take hw hi, hit]
  refine ⟨fun hnil => ?_, fun m hm hleaf => decodeBit_leaf hn hm hleaf,
    fun m hm hleaf => decodeBit_internal hn hm hleaf⟩
  rw [hnil]
  exact decodeBit_null hn hroot hnil

/-- Settles O48: END and ERROR are taken by `decodeItem`; a symbol is put by `execDecode_emit`, END with the end of the
command by `execDecode_close`; else DECODE waits (`execDecode_waits`). -/
theorem decodeEnds : Obligations.DecodeEnds := by
  refine ⟨fun s it rest hw hi => ⟨fun hit => ?_, fun hit => ?_⟩, fun s hb ho =>
    ⟨fun v hp hr => execDecode_emit hb hp hr, fun e hp hr => ?_, fun hr hp => execDecode_waits hb hp hr⟩⟩
  · rw [execDecode_take hw hi, hit, decide_not]
    rfl
  · rw [execDecode_take hw hi, hit]
    rfl
  · obtain ⟨code, info, hend⟩ := endCommand_changes e { s with symOut := s.symOut ++ [.endItem] }
    refine ⟨_, execDecode_close hb hp hr, endCommand_symOut e _, endCommand_ended e ho, by rw [hend], ?_, ?_⟩
    · rintro rfl
      exact ⟨rfl, rfl⟩
    · rintro c v rfl
      exact ⟨rfl, rfl⟩

/-- A move of DECODE takes at most the head of BIT_IN and puts at most one item on SYM_OUT (20_memory.md R52, R53). -/
theorem execDecode_streams {s t : State} (h : exec .decode s = .next t) :
    (t.bitIn = s.bitIn ∨ ∃ it, s.bitIn = it :: t.bitIn) ∧
      (t.symOut = s.symOut ∨ ∃ item, t.symOut = s.symOut ++ [item]) := by
  rcases streamMove_cases h with ⟨-, rfl⟩ | ⟨-, h⟩
  · obtain ⟨c, p, e⟩ := decodeStart_changes (accept (opcodeOf .decode) s)
    rw [e]
    exact ⟨.inl rfl, .inl rfl⟩
  rcases decodeTransfer_cases h with rfl | ⟨it, rest, -, hi, h⟩ | ⟨v, -, -, rfl⟩ | ⟨e, -, -, rfl⟩
  · exact ⟨.inl rfl, .inl rfl⟩
  · obtain ⟨c, p, m, rfl⟩ := decodeItem_changes h
    exact ⟨.inr ⟨it, hi⟩, .inl rfl⟩
  · exact ⟨.inl rfl, .inr ⟨_, rfl⟩⟩
  · obtain ⟨code, info, hend⟩ := endCommand_changes e { s with symOut := s.symOut ++ [.endItem] }
    rw [hend]
    exact ⟨.inl rfl, .inr ⟨_, rfl⟩⟩

/-- Settles O52: `execDecode_changes` names the elements that may change, `execDecode_streams` what BIT_IN loses and
SYM_OUT gains. -/
theorem decodeFrame : Obligations.DecodeFrame := by
  intro s t h
  obtain ⟨hbit, hsym⟩ := execDecode_streams h
  rw [execDecode_changes h]
  exact ⟨rfl, ⟨rfl, rfl, rfl, rfl⟩, rfl, rfl, ⟨rfl, rfl⟩, rfl, ⟨rfl, rfl⟩, rfl, rfl, hbit, hsym,
    ⟨rfl, rfl, rfl, rfl, rfl, rfl⟩⟩

/-- With no tree DECODE puts END and finishes, in two moves (44_decoder.md R141). -/
theorem decode_reaches_end_noTree {s : State} (ha : acceptsCommand s) (hr : s.soReady = true)
    (hv : s.rootValid = false) : Reaches { s with script := [.hWrite 0 (encode .decode)] }
      (finish { accept (opcodeOf .decode) s with
        symOut := s.symOut ++ [.endItem], midpath := false, phase := .close .finish, script := [] }) := by
  obtain ⟨hb, he⟩ := ha
  have hstart := (step_commandWritten (i := .decode) hb (.inl he)).trans (execDecode_accept hb)
  rw [decodeStart_noTree (s := accept (opcodeOf .decode) { s with script := [] }) hv] at hstart
  exact .head hstart (.head ((step_running rfl rfl rfl).trans (execDecode_close rfl rfl hr)) (.refl _))

/-- Settles O49: the run with no tree, `decode_reaches_end_noTree`. -/
theorem decodeWithoutTree : Obligations.DecodeWithoutTree := fun _ ha hr hv =>
  ⟨_, ⟨decode_reaches_end_noTree ha hr hv, rfl, rfl⟩, ⟨rfl, rfl, rfl⟩, ha.2, rfl, rfl, rfl⟩

end Sys2Proof

namespace Sys2Proof

open Sys2Proof.Machine

/-! The tagged-tree decoder, one bit at a time (44_decoder.md R146). -/

namespace Tree

section
variable {T : Tree} {pos : Option Tree} {b : Bool} {w : Nat}

/-- The decoder of a single leaf never leaves the root; any other tree's emits a leaf's symbol and returns. -/
theorem decodeFrom_symbol {x : Sym} (hpos : T.isLeaf = true → pos = none) (h : (pos.getD T).child b = leaf w x)
    (bs : Bits) : T.decodeFrom pos (b :: bs) = (x :: (T.decodeFrom none bs).1, (T.decodeFrom none bs).2) := by
  cases T with
  | leaf w' x' =>
    obtain rfl := hpos rfl
    obtain ⟨-, rfl⟩ := leaf.inj h
    rfl
  | node w' l' r' => rw [decodeFrom, h]

theorem decodeFrom_inner {l r : Tree} (hpos : T.isLeaf = true → pos = none)
    (h : (pos.getD T).child b = node w l r) (bs : Bits) :
    T.decodeFrom pos (b :: bs) = T.decodeFrom (some (node w l r)) bs := by
  cases T with
  | leaf w' x' =>
    obtain rfl := hpos rfl
    cases h
  | node w' l' r' => rw [decodeFrom, h]

end

theorem decodeFrom_leaf (w : Nat) (x : Sym) (bs : Bits) :
    (leaf w x).decodeFrom none bs = (List.replicate bs.length x, false) := by
  induction bs with
  | nil => rfl
  | cons b bs ih =>
    rw [decodeFrom_symbol (fun _ => rfl) rfl, ih]
    rfl

/-- A subtree has fewer leaves than the tree. -/
theorem length_leaves_child (w : Nat) (l r : Tree) (b : Bool) :
    ((node w l r).child b).leaves.length < (node w l r).leaves.length := by
  have hl := List.length_pos_iff.mpr l.leaves_ne_nil
  have hr := List.length_pos_iff.mpr r.leaves_ne_nil
  rw [leaves, List.length_append]
  cases b with
  | false => exact Nat.lt_add_of_pos_right hr
  | true => exact Nat.lt_add_of_pos_left hl

end Tree

/-! The tree below a slot, through the links of the store (10_state.md R18). -/

section
variable {node : Vector Slot Config.nnode} {f : Nat} {i : Idx}

theorem treeAt_unique {g : Nat} {t u : Tree} (ht : treeAt node f i = some t) (hu : treeAt node g i = some u) :
    t = u :=
  Option.some.inj ((treeAt_mono (Nat.le_max_left f g) ht).symm.trans (treeAt_mono (Nat.le_max_right f g) hu))

theorem slot_of_treeAt_leaf {w : Nat} {x : Sym} (h : treeAt node f i = some (.leaf w x)) :
    ∃ n, slotAt node i = some n ∧ n.leaf = true ∧ n.sym = x := by
  cases f with
  | zero => cases h
  | succ f =>
    obtain ⟨n, hn, ⟨hleaf, e⟩ | ⟨-, _, _, -, -, e⟩⟩ := treeAt_cases h
    · exact ⟨n, hn, hleaf, (Tree.leaf.inj e).2.symm⟩
    · cases e

theorem slot_of_treeAt_node {w : Nat} {l r : Tree} (h : treeAt node f i = some (.node w l r)) :
    ∃ n g, slotAt node i = some n ∧ n.leaf = false ∧
      ∀ b, treeAt node g (childOf n (BitVec.ofBool b)) = some ((Tree.node w l r).child b) := by
  cases f with
  | zero => cases h
  | succ f =>
    obtain ⟨n, hn, ⟨-, e⟩ | ⟨hleaf, a, c, ha, hc, e⟩⟩ := treeAt_cases h
    · cases e
    · obtain ⟨-, rfl, rfl⟩ := Tree.node.inj e
      refine ⟨n, f, hn, hleaf, fun b => ?_⟩
      rw [childOf_ofBool]
      cases b with
      | false => exact ha
      | true => exact hc

end

/-- What DECODE needs of the store: the tree below the root, and null children where the root is a leaf. -/
structure HoldsTree (node : Vector Slot Config.nnode) (root : Idx) (T : Tree) : Prop where
  held : treeAt node (Config.lenMax + 1) root = some T
  null : ∀ n, slotAt node root = some n → n.leaf = true → n.l = Config.nil ∧ n.r = Config.nil

/-- A root leaf of a tree BUILD leaves has null children (10_state.md R15). -/
theorem StoreOk.holdsTree {node : Vector Slot Config.nnode} {root : Idx} {T : Tree} (h : StoreOk node root)
    (hT : treeAt node (Config.lenMax + 1) root = some T) : HoldsTree node root T := by
  obtain ⟨-, hleaf, hinner⟩ := h
  refine ⟨hT, fun n hn hl => ?_⟩
  by_cases hlo : root.toNat < 256
  · obtain ⟨m, hm, -, -, hnull⟩ := hleaf hlo
    obtain rfl := Option.some.inj (hn.symm.trans hm)
    exact ⟨hnull.1, hnull.2.1⟩
  · obtain ⟨m, -, -, hm, hm', -⟩ := hinner root (Nat.le_of_not_lt hlo) le_rfl
    obtain rfl := Option.some.inj (hn.symm.trans hm)
    cases hl.symm.trans hm'

/-- The simulation relation of R146: the null position is the root slot, and an internal node below the root is the
tree the store holds below the cursor. -/
inductive CursorAt (node : Vector Slot Config.nnode) (root : Idx) (T : Tree) : Idx → Option Tree → Prop
  | root : CursorAt node root T root none
  | inner {c : Idx} {f w : Nat} {l r : Tree} (held : treeAt node f c = some (.node w l r))
      (below : (Tree.node w l r).leaves.length < T.leaves.length) : CursorAt node root T c (some (.node w l r))

section
variable {node : Vector Slot Config.nnode} {root c : Idx} {T : Tree} {pos : Option Tree}

theorem CursorAt.held (h : CursorAt node root T c pos) (hT : HoldsTree node root T) :
    ∃ f, treeAt node f c = some (pos.getD T) := by
  cases h with
  | root => exact ⟨_, hT.held⟩
  | inner held _ => exact ⟨_, held⟩

theorem CursorAt.length_leaves_le (h : CursorAt node root T c pos) :
    (pos.getD T).leaves.length ≤ T.leaves.length := by
  cases h with
  | root => exact le_rfl
  | inner _ below => exact below.le

/-- No internal node lies below a single leaf. -/
theorem CursorAt.root_of_isLeaf (h : CursorAt node root T c pos) (hleaf : T.isLeaf = true) : pos = none := by
  cases h with
  | root => rfl
  | @inner _ _ w l r _ below =>
    have hpos := List.length_pos_iff.mpr (Tree.node w l r).leaves_ne_nil
    cases T with
    | leaf w x =>
      rw [Tree.leaves, List.length_singleton] at below
      omega
    | node => cases hleaf

/-- The cursor is off the root exactly inside a path: a node below the root is not the whole tree. -/
theorem CursorAt.isSome_eq (h : CursorAt node root T c pos) (hT : HoldsTree node root T) :
    pos.isSome = decide (c ≠ root) := by
  cases h with
  | root => simp
  | inner held below =>
    have hne : c ≠ root := by
      rintro rfl
      rw [treeAt_unique held hT.held] at below
      exact lt_irrefl _ below
    simp [hne]

end

/-- One bit on the store and on the tree (44_decoder.md R143, R146): both emit a symbol, or both move to the same
internal node. -/
theorem decodeBit_simulates {s : State} {T : Tree} {pos : Option Tree} (hT : HoldsTree s.node s.rootIdx T)
    (hc : CursorAt s.node s.rootIdx T s.cur pos) (b : Bool) :
    (∃ c w x, (pos.getD T).child b = .leaf w x ∧
      decodeBit (BitVec.ofBool b) s = .next { s with cur := c, phase := .emitSym x }) ∨
    ∃ c w l r, (pos.getD T).child b = .node w l r ∧ CursorAt s.node s.rootIdx T c (some (.node w l r)) ∧
      decodeBit (BitVec.ofBool b) s = .next { s with cur := c } := by
  have hle := hc.length_leaves_le
  obtain ⟨f, hheld⟩ := hc.held hT
  cases ht : pos.getD T with
  | leaf w x =>
    rw [ht] at hheld
    have hroot : s.cur = s.rootIdx := by
      generalize s.cur = c at hc
      cases hc with
      | root => rfl
      | inner _ _ => cases ht
    obtain ⟨n, hn, hleaf, rfl⟩ := slot_of_treeAt_leaf hheld
    obtain ⟨hl, hr⟩ := hT.null n (hroot ▸ hn) hleaf
    have hnull : childOf n (BitVec.ofBool b) = Config.nil := (childOf_eq n _).elim (·.trans hl) (·.trans hr)
    exact .inl ⟨_, w, n.sym, rfl, decodeBit_null hn (hroot ▸ hn) hnull⟩
  | node w l r =>
    rw [ht] at hheld hle
    obtain ⟨n, g, hn, -, hchild⟩ := slot_of_treeAt_node hheld
    cases hb : (Tree.node w l r).child b with
    | leaf w' x =>
      obtain ⟨m, hm, hleaf, rfl⟩ := slot_of_treeAt_leaf ((hchild b).trans (congrArg some hb))
      exact .inl ⟨_, w', m.sym, rfl, decodeBit_leaf hn hm hleaf⟩
    | node w' l' r' =>
      have held := (hchild b).trans (congrArg some hb)
      have below := (Tree.length_leaves_child w l r b).trans_le hle
      rw [hb] at below
      obtain ⟨m, _, hm, hinner, -⟩ := slot_of_treeAt_node held
      exact .inr ⟨_, w', l', r', rfl, .inner held below, decodeBit_internal hn hm hinner⟩

/-! DECODE on a whole input (44_decoder.md R149): runs with nothing scheduled and the sink ready. -/

theorem symData_append (xs ys : List Sym) : symData (xs ++ ys) = symData xs ++ symData ys := List.map_append

/-- One bit taken, and the symbol it leads to put, if it leads to one. -/
theorem decodeRun_bit {s : State} {T : Tree} {pos : Option Tree} {b : Bool} {rest : List (RawItem 1)}
    (hT : HoldsTree s.node s.rootIdx T) (hc : CursorAt s.node s.rootIdx T s.cur pos) (hw : waitsToTake .decode s)
    (hs : s.script = []) (hr : s.soReady = true) (hi : s.bitIn = bitItem b :: rest) :
    ∃ c pos' xs, CursorAt s.node s.rootIdx T c pos' ∧
      Reaches s { s with bitIn := rest, symOut := s.symOut ++ symData xs, cur := c, phase := .take } ∧
      ∀ bs, T.decodeFrom pos (b :: bs) = (xs ++ (T.decodeFrom pos' bs).1, (T.decodeFrom pos' bs).2) := by
  have htake := (step_waitsToTake hw hs).trans (execDecode_take hw hi)
  obtain ⟨hb, ho, hp⟩ := hw
  rcases decodeBit_simulates (s := { s with bitIn := rest }) hT hc b with
    ⟨c, w, x, ht, hbit⟩ | ⟨c, w, l, r, ht, hc', hbit⟩
  · have hemit := step_running (s := { s with bitIn := rest, cur := c, phase := .emitSym x }) hb ho hs
    exact ⟨_, _, [x], .root, .head (htake.trans hbit) (.head (hemit.trans (execDecode_emit hb rfl hr)) (.refl _)),
      Tree.decodeFrom_symbol hc.root_of_isLeaf ht⟩
  · refine ⟨c, _, [], hc', ?_, Tree.decodeFrom_inner hc.root_of_isLeaf ht⟩
    rw [symData, List.map_nil, List.append_nil, ← hp]
    exact .head (htake.trans hbit) (.refl _)

/-- All bits, from any position of the cursor: the symbols of the tree's decoder, and whether it ends inside a path. -/
theorem decodeRun_bits {s : State} {T : Tree} {pos : Option Tree} {bs : Bits} {items : List (RawItem 1)}
    (hT : HoldsTree s.node s.rootIdx T) (hc : CursorAt s.node s.rootIdx T s.cur pos) (hw : waitsToTake .decode s)
    (hs : s.script = []) (hr : s.soReady = true) (hi : s.bitIn = bs.map bitItem ++ items) :
    ∃ c, decide (c ≠ s.rootIdx) = (T.decodeFrom pos bs).2 ∧ Reaches s { s with
      bitIn := items, symOut := s.symOut ++ symData (T.decodeFrom pos bs).1, cur := c, phase := .take } := by
  induction bs generalizing s pos with
  | nil =>
    obtain ⟨-, -, hp⟩ := hw
    rw [List.map_nil, List.nil_append] at hi
    refine ⟨s.cur, (hc.isSome_eq hT).symm, ?_⟩
    rw [Tree.decodeFrom, symData, List.map_nil, List.append_nil, ← hp, ← hi]
    exact .refl s
  | cons b bs ih =>
    obtain ⟨c, pos', xs, hc', hbit, hdec⟩ := decodeRun_bit hT hc hw hs hr hi
    obtain ⟨hb, ho, -⟩ := hw
    obtain ⟨c', hmid, hrun⟩ := ih (s := { s with
        bitIn := bs.map bitItem ++ items, symOut := s.symOut ++ symData xs, cur := c, phase := .take })
      hT hc' ⟨hb, ho, rfl⟩ hs hr rfl
    rw [List.append_assoc, ← symData_append] at hrun
    rw [hdec bs]
    exact ⟨c', hmid, hbit.trans hrun⟩

/-- END is taken, END is put, and only then DECODE ends (44_decoder.md R144). -/
theorem decodeRun_end {s : State} {rest : List (RawItem 1)} (hw : waitsToTake .decode s) (hs : s.script = [])
    (hr : s.soReady = true) (hi : s.bitIn = endOfInput 1 :: rest) :
    Reaches s (finish { s with
      bitIn := rest, symOut := s.symOut ++ [.endItem], midpath := decide (s.cur ≠ s.rootIdx),
      phase := .close .finish }) := by
  have htake := (step_waitsToTake hw hs).trans ((decodeEnds.1 s _ _ hw hi).1 rfl)
  obtain ⟨hb, ho, -⟩ := hw
  have hclose := step_running (s := { s with
      bitIn := rest, midpath := decide (s.cur ≠ s.rootIdx), phase := .close .finish }) hb ho hs
  exact .head htake (.head (hclose.trans (execDecode_close hb rfl hr)) (.refl _))

/-- DECODE from its word to its end, on any bits and END: the state it leaves, by the tree's decoder. -/
theorem decode_reaches_end {s : State} {T : Tree} {bs : Bits} {rest : List (RawItem 1)} (ha : acceptsCommand s)
    (hr : s.soReady = true) (hv : s.rootValid = true) (hT : HoldsTree s.node s.rootIdx T)
    (hi : s.bitIn = bs.map bitItem ++ endOfInput 1 :: rest) :
    ∃ c, Reaches { s with script := [.hWrite 0 (encode .decode)] }
      (finish { accept (opcodeOf .decode) s with
        bitIn := rest, symOut := s.symOut ++ symData (T.decodeFrom none bs).1 ++ [.endItem],
        midpath := (T.decodeFrom none bs).2, cur := c, phase := .close .finish, script := [] }) := by
  obtain ⟨hb, he⟩ := ha
  have hstart := (step_commandWritten (i := .decode) hb (.inl he)).trans (execDecode_accept hb)
  rw [decodeStart_tree (s := accept (opcodeOf .decode) { s with script := [] }) hv] at hstart
  obtain ⟨c, hmid, hrun⟩ := decodeRun_bits
    (s := { accept (opcodeOf .decode) s with script := [], midpath := false, cur := s.rootIdx, phase := .take })
    hT .root ⟨rfl, rfl, rfl⟩ rfl hr hi
  have hend := decodeRun_end (s := { accept (opcodeOf .decode) s with
      bitIn := endOfInput 1 :: rest, symOut := s.symOut ++ symData (T.decodeFrom none bs).1, script := [],
      midpath := false, cur := c, phase := .take }) ⟨rfl, rfl, rfl⟩ rfl hr rfl
  refine ⟨c, .head hstart (hrun.trans ?_)⟩
  rw [← hmid]
  exact hend

/-- Settles O50: a single leaf is a tree whose decoder emits its symbol for every bit (`decodeFrom_leaf`). -/
theorem decodeSingleLeaf : Obligations.DecodeSingleLeaf := by
  intro s n bs rest ha hr hv hn hleaf hl hright hi
  have held := tree_of_leafRoot hv hn hleaf
  rw [tree_of_root hv] at held
  have hnull : ∀ m, slotAt s.node s.rootIdx = some m → m.leaf = true → m.l = Config.nil ∧ m.r = Config.nil := by
    intro m hm _
    obtain rfl := Option.some.inj (hn.symm.trans hm)
    exact ⟨hl, hright⟩
  obtain ⟨c, hrun⟩ := decode_reaches_end ha hr hv ⟨held, hnull⟩ hi
  rw [Tree.decodeFrom_leaf] at hrun
  exact ⟨_, ⟨hrun, rfl, rfl⟩, ⟨rfl, rfl, rfl⟩, ha.2, rfl, rfl, rfl⟩

/-- Settles O51: the run of DECODE (`decode_reaches_end`), which the relation `CursorAt` between cursors and positions
ties to the tree's decoder. -/
theorem decodeRefinesTreeWalk : Obligations.DecodeRefinesTreeWalk := by
  intro s T bs rest hinv ha hr hT hi
  have hv := rootValid_of_tree hT
  rw [tree_of_root hv] at hT
  obtain ⟨c, hrun⟩ := decode_reaches_end ha hr hv ((hinv.store hv).holdsTree hT) hi
  exact ⟨_, ⟨hrun, rfl, rfl⟩, ⟨rfl, rfl, rfl⟩, ha.2, rfl, rfl, rfl, ⟨rfl, rfl, rfl, rfl⟩, rfl, rfl⟩

end Sys2Proof

namespace Sys2Proof

open Sys2Proof.Machine

/-! Decoding what the codes of a tree say (42_code_table.md R126, 44_decoder.md R148). -/

namespace Tree

section
variable {T : Tree} {x : Sym}

/-- In a tree of two leaves or more a path begins with a step to the child the leaf is in. -/
theorem exists_step_of_mem_paths {t : Tree} {p : Bits} (ht : t.isLeaf = false) (hp : (x, p) ∈ t.paths) :
    ∃ b q, p = b :: q ∧ (x, q) ∈ (t.child b).paths := by
  cases t with
  | leaf w y => cases ht
  | node w l r =>
    obtain ⟨b, q, h, hq⟩ := mem_paths_node.mp hp
    exact ⟨b, q, (Prod.mk.inj h).2, hq⟩

/-- From an inner position, the path to a leaf below it gives the leaf's symbol and leads back to the root. -/
theorem decodeFrom_path {pos : Option Tree} {p : Bits} (hT : T.isLeaf = false) (hpos : (pos.getD T).isLeaf = false)
    (hp : (x, p) ∈ (pos.getD T).paths) (bs : Bits) :
    T.decodeFrom pos (p ++ bs) = (x :: (T.decodeFrom none bs).1, (T.decodeFrom none bs).2) := by
  have hroot {pos : Option Tree} (hleaf : T.isLeaf = true) : pos = none := by cases hT.symm.trans hleaf
  induction p generalizing pos with
  | nil =>
    obtain ⟨b, q, h, -⟩ := exists_step_of_mem_paths hpos hp
    cases h
  | cons b p ih =>
    obtain ⟨b', q, h, hq⟩ := exists_step_of_mem_paths hpos hp
    obtain ⟨rfl, rfl⟩ := List.cons.inj h
    cases hb : (pos.getD T).child b with
    | leaf w y =>
      rw [hb] at hq
      cases List.mem_singleton.mp hq
      exact decodeFrom_symbol hroot hb bs
    | node w l r =>
      rw [hb] at hq
      rw [List.cons_append, decodeFrom_inner hroot hb]
      exact ih rfl hq

theorem decodeFrom_codeOf (hd : T.distinct) (hx : x ∈ T.leaves.map (·.1)) (bs : Bits) :
    T.decodeFrom none (T.codeOf x ++ bs) = (x :: (T.decodeFrom none bs).1, (T.decodeFrom none bs).2) := by
  cases T with
  | leaf w y =>
    obtain rfl := List.mem_singleton.mp hx
    rw [codeOf, if_pos rfl]
    exact decodeFrom_symbol (fun _ => rfl) rfl bs
  | node w l r =>
    rw [← paths_symbols] at hx
    obtain ⟨e, he, rfl⟩ := List.mem_map.mp hx
    rw [codeOf_path rfl hd he]
    exact decodeFrom_path rfl rfl he bs

/-- A leaf's symbol has a code: decoding it gives the symbol. -/
theorem codeOf_ne_nil (hd : T.distinct) (hx : x ∈ T.leaves.map (·.1)) : T.codeOf x ≠ [] := by
  intro h
  have hdec := decodeFrom_codeOf hd hx []
  rw [h] at hdec
  cases hdec

/-- The codes of symbols of the tree, one after the other, give the symbols back and end at the root. -/
theorem decodeFrom_codes {xs : List Sym} (hd : T.distinct) (h : ∀ x ∈ xs, x ∈ T.leaves.map (·.1)) :
    T.decodeFrom none (xs.flatMap T.codeOf) = (xs, false) := by
  induction xs with
  | nil => rfl
  | cons y ys ih =>
    obtain ⟨hy, hys⟩ := List.forall_mem_cons.mp h
    rw [List.flatMap_cons, decodeFrom_codeOf hd hy, ih hys]

end

end Tree

/-! Runs of CLR, BUILD and DERIVE, whatever their busy period (45_job_control.md R153). -/

section
variable {i : Instr} {s : State}

theorem exec_atomic (hi : i = .clr ∨ i = .build ∨ i = .derive) :
    ∃ effect, ∀ u, exec i u = atomicMove (opcodeOf i) effect u := by
  rcases hi with rfl | rfl | rfl
  · exact ⟨_, exec_clr⟩
  · exact ⟨_, exec_build⟩
  · exact ⟨_, exec_derive⟩

/-- The busy period passes. -/
theorem atomicRun_working (hi : i = .clr ∨ i = .build ∨ i = .derive) {n : Nat} (hb : s.busy = true)
    (ho : s.op = opcodeOf i) (hp : s.phase = .working n) (hs : s.script = []) :
    Reaches s { s with phase := .working 0 } := by
  obtain ⟨effect, hexec⟩ := exec_atomic hi
  induction n generalizing s with
  | zero =>
    rw [← hp]
    exact .refl s
  | succ n ih =>
    have hstep := (step_running hb ho hs).trans ((hexec s).trans (atomicMove_working hb hp))
    exact .head hstep (ih (s := { s with phase := .working n }) hb ho rfl hs)

/-- The written word of an atomic command leads to the move of its effect, in a state that differs in the sequencer
only. -/
theorem reaches_effect (hi : i = .clr ∨ i = .build ∨ i = .derive) (hb : s.busy = false)
    (he : s.errcode = 0 ∨ i = .clr) :
    ∃ u, effectDue i u ∧
      u = { s with busy := u.busy, done := u.done, op := u.op, phase := u.phase, script := [] } ∧
      ∀ t, exec i u = .next t → Reaches { s with script := [.hWrite 0 (encode i)] } t := by
  have hwritten := step_commandWritten hb he
  by_cases hperiod : s.busyPeriod = 0
  · exact ⟨{ s with script := [] }, .inl ⟨hb, hperiod⟩, rfl, fun t h => .head (hwritten.trans h) (.refl t)⟩
  · obtain ⟨n, hperiod⟩ := Nat.exists_eq_add_one_of_ne_zero hperiod
    obtain ⟨effect, hexec⟩ := exec_atomic hi
    have hstart := hwritten.trans
      ((hexec _).trans (atomicMove_acceptWorking (s := { s with script := [] }) hb hperiod))
    have hrun := atomicRun_working (s := { accept (opcodeOf i) { s with script := [] } with phase := .working n })
      hi rfl rfl rfl rfl
    refine ⟨{ accept (opcodeOf i) s with phase := .working 0, script := [] }, .inr ⟨rfl, rfl, rfl⟩, rfl,
      fun t h => .head hstart (hrun.trans (.head ?_ (.refl t)))⟩
    exact (step_running rfl rfl rfl).trans h

end

/-! The state between two commands of a round trip. -/

theorem Inv.reaches {s t : State} (h : Inv s) (hr : Reaches s t) : Inv t := by
  obtain ⟨k, hk⟩ := hr
  induction k generalizing s with
  | zero =>
    obtain rfl : s = t := Host.Outcome.next.inj hk
    exact h
  | succ k ih =>
    obtain ⟨u, hu, hk⟩ := step_of_run hk
    obtain ⟨u', hu', hinv⟩ := everyStepKeepsInv s h
    obtain rfl := Host.Outcome.next.inj (hu.symm.trans hu')
    exact ih hinv hk

theorem Inv.withScript {s : State} (h : Inv s) (l : List Move) : Inv { s with script := l } :=
  h.congr ⟨rfl, rfl, rfl, rfl⟩ rfl ⟨rfl, rfl⟩ rfl rfl rfl rfl rfl ⟨rfl, rfl⟩

theorem Inv.completes {s t : State} {w : Word} (h : Inv s) (hc : Completes w s t) : Inv t :=
  (h.withScript _).reaches hc.1

theorem Inv.distinct {s : State} {T : Tree} (h : Inv s) (hT : s.tree = some T) : T.distinct := by
  obtain ⟨T', hT', ⟨-, hd, -⟩, -⟩ := h.tree (rootValid_of_tree hT)
  obtain rfl := Option.some.inj (hT.symm.trans hT')
  exact hd

/-- The next command is accepted and its items are taken. -/
structure Ready (s : State) : Prop where
  inv : Inv s
  accepts : acceptsCommand s
  sinks : sinksReady s

theorem Ready.withSymIn {s : State} (h : Ready s) (l : List (RawItem 8)) : Ready { s with symIn := l } :=
  ⟨h.inv.withSymIn l, h.accepts, h.sinks⟩

theorem Ready.withBitIn {s : State} (h : Ready s) (l : List (RawItem 1)) : Ready { s with bitIn := l } :=
  ⟨h.inv.withBitIn l, h.accepts, h.sinks⟩

/-- The tree of the state has a leaf for every symbol of the input; there is none for the empty input only. -/
def TreeCovers (s : State) (xs : List Sym) : Prop :=
  (s.rootValid = false ∧ xs = []) ∨ ∃ T, s.tree = some T ∧ ∀ x ∈ xs, x ∈ T.leaves.map (·.1)

theorem TreeCovers.congr {s t : State} {xs : List Sym} (h : TreeCovers s xs) (hs : sameTree s t) :
    TreeCovers t xs := by
  rw [TreeCovers, tree_of_sameTree hs]
  obtain ⟨-, hv, -⟩ := hs
  rwa [hv]

theorem sameTree_trans {s t u : State} (h : sameTree s t) (h' : sameTree t u) : sameTree s u := by
  obtain ⟨hnode, hvalid, hroot, hleaves⟩ := h
  obtain ⟨hnode', hvalid', hroot', hleaves'⟩ := h'
  exact ⟨hnode'.trans hnode, hvalid'.trans hvalid, hroot'.trans hroot, hleaves'.trans hleaves⟩

/-! The six commands of a round trip (44_decoder.md R148). -/

theorem clr_completes {s : State} (hb : s.busy = false) (hsinks : sinksReady s) :
    ∃ t, Completes (encode .clr) s t ∧ Ready t := by
  obtain ⟨u, hdue, hu, hrun⟩ := reaches_effect (i := .clr) (.inl rfl) hb (.inr rfl)
  obtain ⟨b, d, hexec⟩ := atomicMove_effectDue (effect := fun t => .next (clrEffect t)) hdue
  refine ⟨_, ⟨hrun _ hexec, rfl, congrArg State.script hu⟩, clrEffect_inv _, ⟨rfl, rfl⟩, ?_⟩
  rw [hu]
  exact hsinks

theorem count_completes {s : State} {xs : List Sym} (h : Ready s) (hlen : xs.length < 2 ^ 32)
    (hi : s.symIn = xs.map symItem ++ [endOfInput 8]) : ∃ t, Completes (encode .count) s t ∧ Ready t ∧
      ∀ x, (symEntry t.freq x).toNat = xs.count x := by
  obtain ⟨f, hrun, hf⟩ := count_reaches_finish h.accepts (fun _ => List.count_le_length.trans_lt hlen) hi
  have hc : Completes (encode .count) s _ := ⟨hrun, rfl, rfl⟩
  exact ⟨_, hc, ⟨h.inv.completes hc, ⟨rfl, h.accepts.2⟩, h.sinks⟩, hf⟩

/-- BUILD and DERIVE complete when their effect ends the command without a fault. -/
theorem Ready.atomic {i : Instr} {s : State} (h : Ready s) (hi : i = .build ∨ i = .derive) :
    ∃ u, effectDue i u ∧ u.freq = s.freq ∧ sameTree s u ∧
      ∀ t, exec i u = .next t → ended i t → sameRecord u t → Completes (encode i) s t ∧ Ready t := by
  obtain ⟨u, hdue, hu, hrun⟩ := reaches_effect (.inr hi) h.accepts.1 (.inl h.accepts.2)
  refine ⟨u, hdue, by rw [hu], by rw [hu]; exact ⟨rfl, rfl, rfl, rfl⟩, fun t hexec hended hrecord => ?_⟩
  have houtside : sameOutside u t := by
    rcases hi with rfl | rfl
    · rw [execBuild_changes hexec]
      exact ⟨rfl, rfl, rfl, rfl, rfl, rfl⟩
    · rw [execDerive_changes hexec]
      exact ⟨rfl, rfl, rfl, rfl, rfl, rfl⟩
  obtain ⟨hidle, -⟩ := hended
  obtain ⟨herr, -⟩ := hrecord
  obtain ⟨hbo, hso, hscript, -⟩ := houtside
  rw [hu] at herr hbo hso hscript
  have hc : Completes (encode i) s t := ⟨hrun t hexec, hidle, hscript⟩
  exact ⟨hc, h.inv.completes hc, ⟨hidle, herr.trans h.accepts.2⟩, hbo.trans h.sinks.1, hso.trans h.sinks.2⟩

/-- Every symbol counted is a leaf of the tree BUILD makes; with none counted there is no tree. -/
theorem build_completes {s : State} {xs : List Sym} (h : Ready s) (hlen : xs.length < 2 ^ 32)
    (hcount : ∀ x, (symEntry s.freq x).toNat = xs.count x) :
    ∃ t, Completes (encode .build) s t ∧ Ready t ∧ TreeCovers t xs := by
  obtain ⟨u, hdue, hfreq, -, hdone⟩ := h.atomic (i := .build) (.inl rfl)
  rw [← hfreq] at hcount
  cases xs with
  | nil =>
    have hzero : ∀ x, symEntry u.freq x = 0 := fun x => BitVec.eq_of_toNat_eq (hcount x)
    obtain ⟨t, hexec, hended, hrecord, hv, -⟩ := buildOfEmptyMapping u hdue hzero
    obtain ⟨hc, hready⟩ := hdone t hexec hended hrecord
    exact ⟨t, hc, hready, .inl ⟨hv, rfl⟩⟩
  | cons y ys =>
    have hmapped : ∀ x ∈ y :: ys, (x, (symEntry u.freq x).toNat) ∈ mapping u.freq := by
      intro x hx
      refine mem_mapping.mpr ⟨fun hz => ?_, rfl⟩
      have hpos := List.count_pos_iff.mpr hx
      rw [← hcount x, hz] at hpos
      exact Nat.lt_irrefl 0 hpos
    have hk : 0 < leafCount u.freq := by
      rw [← mapping_length]
      exact List.length_pos_of_mem (hmapped y List.mem_cons_self)
    have hsum : freqSum u.freq < 2 ^ 32 := by rwa [freqSum_eq_length hcount]
    obtain ⟨t, T, hexec, hended, hrecord, -, hT, -, hperm, -⟩ := buildMakesTheTree u hdue hk hsum
    obtain ⟨hc, hready⟩ := hdone t hexec hended hrecord
    exact ⟨t, hc, hready, .inr ⟨T, hT, fun x hx => List.mem_map_of_mem (hperm.mem_iff.mpr (hmapped x hx))⟩⟩

theorem derive_completes {s : State} (h : Ready s) : ∃ t, Completes (encode .derive) s t ∧ Ready t ∧ sameTree s t ∧
    ∀ T, s.tree = some T → ∀ x, symEntry t.code x = T.codeOf x := by
  obtain ⟨u, hdue, -, hsame, hdone⟩ := h.atomic (i := .derive) (.inr rfl)
  have hframe : ∀ t, exec .derive u = .next t → sameTree s t := by
    intro t hexec
    obtain ⟨-, htree, -⟩ := deriveFrame u t hexec
    exact sameTree_trans hsame htree
  cases hv : s.rootValid with
  | false =>
    obtain ⟨-, hvalid, -⟩ := hsame
    obtain ⟨t, hexec, hended, hrecord, -⟩ := execDerive_noTree hdue (hvalid.trans hv)
    obtain ⟨hc, hready⟩ := hdone t hexec hended hrecord
    exact ⟨t, hc, hready, hframe t hexec, fun T hT => by cases hv.symm.trans (rootValid_of_tree hT)⟩
  | true =>
    obtain ⟨T, hT, -⟩ := h.inv.tree hv
    obtain ⟨t, hexec, hended, hrecord, hcode⟩ :=
      execDerive_tree hdue ((tree_of_sameTree hsame).trans hT) (h.inv.distinct hT)
    obtain ⟨hc, hready⟩ := hdone t hexec hended hrecord
    refine ⟨t, hc, hready, hframe t hexec, fun T' hT' => ?_⟩
    obtain rfl := Option.some.inj (hT.symm.trans hT')
    exact hcode

theorem encode_completes {s : State} {xs : List Sym} (h : Ready s) (hcov : TreeCovers s xs)
    (hcode : ∀ T, s.tree = some T → ∀ x, symEntry s.code x = T.codeOf x)
    (hi : s.symIn = xs.map symItem ++ [endOfInput 8]) : ∃ t, Completes (encode .encode) s t ∧ Ready t ∧
      sameTree s t ∧ t.bitOut = s.bitOut ++ bitData (xs.flatMap (symEntry s.code)) ++ [.endItem] := by
  have hcodes : ∀ x ∈ xs, symEntry s.code x ≠ [] ∧ (symEntry s.code x).length ≤ 255 := by
    intro x hx
    refine ⟨?_, h.inv.codeLen x⟩
    rcases hcov with ⟨-, rfl⟩ | ⟨T, hT, hmem⟩
    · cases hx
    · rw [hcode T hT]
      exact Tree.codeOf_ne_nil (h.inv.distinct hT) (hmem x hx)
  obtain ⟨x, n, hrun⟩ := encode_reaches_end h.accepts h.sinks.1 hcodes hi .finish
  have hc : Completes (encode .encode) s _ := ⟨hrun, rfl, rfl⟩
  exact ⟨_, hc, ⟨h.inv.completes hc, ⟨rfl, h.accepts.2⟩, h.sinks⟩, ⟨rfl, rfl, rfl, rfl⟩, rfl⟩

/-- Decoding the codes of an input gives it back; with no tree, and the empty input, no bit is taken. -/
theorem decode_completes {s : State} {xs : List Sym} {bs : Bits} (h : Ready s) (hcov : TreeCovers s xs)
    (hbs : ∀ T, s.tree = some T → bs = xs.flatMap T.codeOf) (hi : s.bitIn = bs.map bitItem ++ [endOfInput 1]) :
    ∃ t, Completes (encode .decode) s t ∧ t.symOut = s.symOut ++ symData xs ++ [.endItem] ∧ t.midpath = false ∧
      t.errcode = 0 := by
  rcases hcov with ⟨hv, rfl⟩ | ⟨T, hT, hmem⟩
  · obtain ⟨t, hc, -, herr, hmid, -, hout⟩ := decodeWithoutTree s h.accepts h.sinks.2 hv
    rw [symData, List.map_nil, List.append_nil]
    exact ⟨t, hc, hout, hmid, herr⟩
  · obtain ⟨t, hc, -, herr, -, hout, hmid, -⟩ := decodeRefinesTreeWalk s T bs [] h.inv h.accepts h.sinks.2 hT hi
    rw [hbs T hT, Tree.decodeFrom_codes (h.inv.distinct hT) hmem] at hout hmid
    exact ⟨t, hc, hout, hmid, herr⟩

/-- Settles O53: the six runs one after the other; BUILD's tree has a leaf for every symbol counted, and its decoder
inverts its codes (`Tree.decodeFrom_codes`). -/
theorem roundTrip : Obligations.RoundTrip := by
  intro s xs hb hsinks hlen
  obtain ⟨s₁, hclr, ready₁⟩ := clr_completes hb hsinks
  obtain ⟨s₂, hcount, ready₂, hcounts⟩ := count_completes (ready₁.withSymIn _) hlen rfl
  obtain ⟨s₃, hbuild, ready₃, covers₃⟩ := build_completes ready₂ hlen hcounts
  obtain ⟨s₄, hderive, ready₄, same₄, hcode⟩ := derive_completes ready₃
  rw [← tree_of_sameTree same₄] at hcode
  have covers₄ := covers₃.congr same₄
  obtain ⟨s₅, hencode, ready₅, same₅, hbits⟩ :=
    encode_completes (ready₄.withSymIn (xs.map symItem ++ [endOfInput 8])) covers₄ hcode rfl
  have hbs : ∀ T, s₅.tree = some T → xs.flatMap (symEntry s₄.code) = xs.flatMap T.codeOf := by
    intro T hT
    rw [funext (hcode T ((tree_of_sameTree same₅).symm.trans hT))]
  obtain ⟨s₆, hdecode, hout, hmid, herr⟩ :=
    decode_completes (ready₅.withBitIn ((xs.flatMap (symEntry s₄.code)).map bitItem ++ [endOfInput 1]))
      (covers₄.congr same₅) hbs rfl
  exact ⟨s₁, s₂, s₃, s₄, s₅, s₆, _, hclr, hcount, hbuild, hderive, hencode, hbits, hdecode, hout, hmid, herr⟩

end Sys2Proof

namespace Sys2Proof

open Sys2Proof.Machine

/-! Job control: a word written to CMD, and a move of the core (45_job_control.md R151 to R153). -/

/-- A word written to CMD is offered to the sequencer. -/
theorem step_wordWritten {s : State} {w : Word} {rest : List Move} (hs : s.script = .hWrite 0 w :: rest) :
    step s = offerCommand w { s with script := rest } := step_scheduled hs

theorem offerCommand_legal {s : State} {w : Word} {i : Instr} (hb : s.busy = false)
    (he : s.errcode = 0 ∨ w = encode .clr) (hd : decode w = .ok i) : offerCommand w s = exec i s := by
  rw [offerCommand_accepted hb he, hd]

theorem offerCommand_illegal {s : State} {w : Word} {e : Illegal} (hb : s.busy = false)
    (he : s.errcode = 0 ∨ w = encode .clr) (hd : decode w = .error e) :
    offerCommand w s = .next (raiseFault eIllCmd w (accept (splitWord w).opc s)) := by
  rw [offerCommand_accepted hb he, hd]

/-- Settles O15: the word is offered to the sequencer, which drops it in the first two cases and accepts it, legal or
illegal, in the third. -/
theorem commandWordOffered : Obligations.CommandWordOffered := by
  intro s w rest hs
  rw [step_wordWritten hs]
  refine ⟨fun hb => ?_, fun hb he hw => ?_, fun hb he => ⟨fun i hd => ?_, fun e hd => ?_⟩⟩
  · exact offerCommand_busy hb
  · exact offerCommand_faulted hb he hw
  · exact offerCommand_legal hb he hd
  · exact offerCommand_illegal hb he hd

/-- Settles O17: the word is accepted as illegal (`offerCommand_illegal`); the code recorded is not 0, so that every
word but CLR is dropped from there (`offerCommand_faulted`). -/
theorem illegalCommandFaults : Obligations.IllegalCommandFaults := by
  rintro s w rest e ⟨hb, he⟩ hs hd
  have hstep := (step_wordWritten hs).trans (offerCommand_illegal hb (.inl he) hd)
  have hcode : eIllCmd ≠ 0 := by decide
  exact ⟨_, hstep, rfl, rfl, rfl, rfl, rfl, rfl, rfl, rfl, ⟨rfl, rfl, rfl, rfl⟩, rfl, rfl, rfl, ⟨rfl, rfl⟩, rfl,
    ⟨rfl, rfl⟩, ⟨rfl, rfl, rfl, rfl⟩, rfl, rfl, fun _ hw' => offerCommand_faulted rfl hcode hw'⟩

/-- Settles O16: scheduled or not, the step is `coreMove` in a state with the same BUSY and OP, which decide. -/
theorem coreMoveRunsCommand : Obligations.CoreMoveRunsCommand := by
  intro s u hu
  obtain ⟨hstep, hbusy, hop⟩ : step s = coreMove u ∧ u.busy = s.busy ∧ u.op = s.op := by
    rcases hu with ⟨hs, rfl⟩ | ⟨rest, hs, rfl⟩
    · exact ⟨step_core hs, rfl, rfl⟩
    · exact ⟨step_scheduled hs, rfl, rfl⟩
  rw [hstep]
  exact ⟨fun i hb ho => coreMove_runs (hbusy.trans hb) (hop.trans ho), fun hb => coreMove_idle (hbusy.trans hb)⟩

/-- Settles O18: each of the three operations is defined as that update of the state. -/
theorem startEndAndFault : Obligations.StartEndAndFault := fun _ _ _ _ => ⟨rfl, rfl, rfl⟩

/-- Settles O19: the three commands move by `atomicMove`, whose move is not yet the effect in these two cases. -/
theorem busyPeriod : Obligations.BusyPeriod := by
  intro i s n hi
  obtain ⟨effect, hexec⟩ := exec_atomic hi
  rw [hexec]
  exact ⟨fun hb hp => atomicMove_acceptWorking hb hp, fun hb hp => atomicMove_working hb hp⟩

/-! CLR (45_job_control.md R156). -/

/-- STATUS after CLR: OP, DONE and no other field (10_state.md R27). -/
theorem statusWord_clrEffect {s : State} (ho : s.op = opcodeOf .clr) : statusWord (clrEffect s) = 0x00001002#32 := by
  simp [statusWord, State.err, clrEffect, ho, opcodeOf]

/-- Settles O21: the move is `clrEffect`, with OP naming CLR. -/
theorem clrEmptiesTheJob : Obligations.ClrEmptiesTheJob := by
  intro s hdue
  obtain ⟨b, d, hexec⟩ := atomicMove_effectDue (effect := fun t => .next (clrEffect t)) hdue
  exact ⟨_, hexec, ⟨rfl, rfl, rfl⟩, rfl, rfl, rfl, rfl, rfl, rfl, rfl, rfl, rfl, rfl,
    congrArg some (statusWord_clrEffect rfl), readRegister_treeinfo_noTree rfl rfl rfl rfl, rfl,
    rfl, rfl, ⟨rfl, rfl⟩, rfl, ⟨rfl, rfl⟩, ⟨rfl, rfl, rfl, rfl⟩, ⟨rfl, rfl, rfl, rfl, rfl, rfl⟩⟩

end Sys2Proof

namespace Sys2Proof

open Sys2Proof.Machine

/-! The end of a running command (60_exceptions.md R165; 20_memory.md R57). -/

theorem nextRuns.op_eq {i : Instr} {s : State} (now : nextRuns i s) (hb : s.busy = true) : s.op = opcodeOf i := by
  rcases now with ⟨hidle, -⟩ | ⟨-, ho, -⟩
  · exact absurd (hidle.symm.trans hb) Bool.false_ne_true
  · exact ho

/-- Reset apart, only a move of the running command ends it (45_job_control.md R153). -/
theorem step_runs_or_staysBusy {s t : State} (h : step s = .next t) (hreset : ¬ nextIsReset s) :
    (∃ i, nextRuns i s ∧ exec i s.popped = .next t) ∨ (s.busy = true → t.busy = true) := by
  cases step_kind s with
  | runs i now _ is => exact .inl ⟨i, now, is.symm.trans h⟩
  | lost _ _ is => cases is.symm.trans h
  | illegal w _ idle _ => exact .inr fun hb => absurd (idle.symm.trans hb) Bool.false_ne_true
  | ignored a v _ is =>
    cases is.symm.trans h
    exact .inr id
  | freqWrite a v x _ _ is =>
    cases is.symm.trans h
    exact .inr id
  | reset now _ => exact absurd now hreset
  | outside u is only =>
    cases is.symm.trans h
    rw [only.same]
    exact .inr id

/-- A step is a move of command `i`, or it neither ends `i` nor puts an item on the output of `i`. -/
theorem step_runs_or_keepsOutput (i : Instr) {s t : State} (h : step s = .next t) (hreset : ¬ nextIsReset s) :
    (nextRuns i s ∧ exec i s.popped = .next t) ∨
      (¬ (s.busy = true ∧ s.op = opcodeOf i ∧ t.busy = false) ∧
        (i = .encode → t.bitOut = s.bitOut) ∧ (i = .decode → t.symOut = s.symOut)) := by
  obtain ⟨j, now, he⟩ | ⟨hbusy, hbit, hsym⟩ : (∃ j, nextRuns j s ∧ exec j s.popped = .next t) ∨
      ((s.busy = true → t.busy = true) ∧ t.bitOut = s.bitOut ∧ t.symOut = s.symOut) := by
    rcases step_runs_or_keepsStreams h with hrun | ⟨-, -, hbit, hsym⟩
    · exact .inl hrun
    · exact (step_runs_or_staysBusy h hreset).imp_right fun hbusy => ⟨hbusy, hbit, hsym⟩
  · by_cases hj : j = i
    · exact .inl (hj ▸ ⟨now, he⟩)
    · obtain ⟨-, hdecode, hencode⟩ := exec_keepsStreams he
      exact .inr ⟨fun ⟨hb, ho, _⟩ => hj (opcodeOf_injective ((now.op_eq hb).symm.trans ho)),
        fun hi => hencode (hi ▸ hj), fun hi => (hdecode (hi ▸ hj)).2⟩
  · exact .inr ⟨fun ⟨hb, _, ht⟩ => Bool.false_ne_true (ht.symm.trans (hbusy hb)), fun _ => hbit, fun _ => hsym⟩

@[simp] theorem encodeItem_busy (it : InItem 8) (s : State) : (encodeItem it s).busy = s.busy := by
  obtain ⟨x, n, p, e⟩ := encodeItem_changes it s
  rw [e]

@[simp] theorem encodeAdvance_busy (s : State) : (encodeAdvance s).busy = s.busy := by
  obtain ⟨n, p, e⟩ := encodeAdvance_changes s
  rw [e]

@[simp] theorem endCommand_busy (e : Ending) (s : State) : (endCommand e s).busy = false := by
  cases e <;> rfl

/-- A move of ENCODE ends it exactly when it puts END: only the position `close` does either. -/
theorem execEncode_ends_iff {s t : State} (h : exec .encode s = .next t) :
    (s.busy = true ∧ t.busy = false) ↔ t.bitOut = s.bitOut ++ [.endItem] := by
  rcases streamMove_cases h with ⟨hb, rfl⟩ | ⟨hb, h⟩
  · simp [hb, encodeStart]
  rcases encodeTransfer_cases h with rfl | ⟨it, rest, -, -, rfl⟩ | ⟨-, -, rfl⟩ | ⟨e, -, -, rfl⟩
  · simp [hb]
  · simp [hb]
  · simp [hb]
  · simp [hb]

/-- A move of DECODE ends it exactly when it puts END: only the position `close` does either. -/
theorem execDecode_ends_iff {s t : State} (h : exec .decode s = .next t) :
    (s.busy = true ∧ t.busy = false) ↔ t.symOut = s.symOut ++ [.endItem] := by
  rcases streamMove_cases h with ⟨hb, rfl⟩ | ⟨hb, h⟩
  · obtain ⟨c, p, hstart⟩ := decodeStart_changes (accept (opcodeOf .decode) s)
    simp [hstart, hb]
  rcases decodeTransfer_cases h with rfl | ⟨it, rest, -, -, h⟩ | ⟨v, -, -, rfl⟩ | ⟨e, -, -, rfl⟩
  · simp [hb]
  · obtain ⟨c, p, m, rfl⟩ := decodeItem_changes h
    simp [hb]
  · simp [decodeAdvance, hb]
  · simp [hb]

/-- Settles O59: a step that is no move of the command does neither (`step_runs_or_keepsOutput`); a move of it by
`execEncode_ends_iff` and `execDecode_ends_iff`. -/
theorem oneEndOnEveryExit : Obligations.OneEndOnEveryExit := by
  intro s t h hreset
  constructor
  · rcases step_runs_or_keepsOutput .encode h hreset with ⟨now, he⟩ | ⟨hstays, hkept, -⟩
    · exact (and_congr_right fun hb => and_iff_right (now.op_eq hb)).trans (execEncode_ends_iff (s := s.popped) he)
    · exact iff_of_false hstays (by simp [hkept rfl])
  · rcases step_runs_or_keepsOutput .decode h hreset with ⟨now, he⟩ | ⟨hstays, -, hkept⟩
    · exact (and_congr_right fun hb => and_iff_right (now.op_eq hb)).trans (execDecode_ends_iff (s := s.popped) he)
    · exact iff_of_false hstays (by simp [hkept rfl])

/-! The fault record (60_exceptions.md R167, R168). -/

/-- While a fault is recorded CLR is the only command that may move. -/
theorem MayRun.eq_clr {i : Instr} {s : State} (hr : MayRun i s) (h : Inv s) (he : s.errcode ≠ 0) : i = .clr := by
  rcases hr with ⟨-, hf⟩ | ⟨hb, ho⟩
  · exact hf.resolve_left he
  · exact opcodeOf_injective (ho.symm.trans ((h.noFaultRuns hb).resolve_left he))

/-- While a fault is recorded a word other than CLR's, legal or not, is dropped (45_job_control.md R151). -/
theorem step_wordDropped {s : State} {w : Word} (hb : s.busy = false) (he : s.errcode ≠ 0)
    (hw : nextWrites 0 w s) (hne : w ≠ encode .clr) : step s = .next (ignoreWrite s.popped) := by
  obtain ⟨rest, hs⟩ := List.head?_eq_some_iff.mp hw
  rw [popped_of_cons hs]
  exact (step_wordWritten hs).trans (offerCommand_faulted hb he hne)

/-- Settles O20: CLR apart no command moves (`MayRun.eq_clr`) and no word is accepted (`step_wordDropped`); the other
moves of `step_kind` write none of these elements. -/
theorem faultRecordIsSticky : Obligations.FaultRecordIsSticky := by
  intro s t hinv he h hclr hreset
  cases step_kind s with
  | runs i now allowed _ => exact absurd ((now.mayRun allowed).eq_clr hinv he ▸ now) hclr
  | lost _ _ is => cases is.symm.trans h
  | illegal w now idle _ =>
    have hne : w ≠ encode .clr := fun hw => hclr (.inl ⟨idle, hw ▸ now⟩)
    cases (step_wordDropped idle he now hne).symm.trans h
    exact ⟨⟨rfl, rfl⟩, rfl, rfl, ⟨rfl, rfl, rfl, rfl⟩, rfl⟩
  | ignored a v _ is =>
    cases is.symm.trans h
    exact ⟨⟨rfl, rfl⟩, rfl, rfl, ⟨rfl, rfl, rfl, rfl⟩, rfl⟩
  | freqWrite a v x _ _ is =>
    cases is.symm.trans h
    exact ⟨⟨rfl, rfl⟩, rfl, rfl, ⟨rfl, rfl, rfl, rfl⟩, rfl⟩
  | reset now _ => exact absurd now hreset
  | outside u is only =>
    cases is.symm.trans h
    rw [only.same]
    exact ⟨⟨rfl, rfl⟩, rfl, rfl, ⟨rfl, rfl, rfl, rfl⟩, rfl⟩

end Sys2Proof

namespace Sys2Proof

open Sys2Proof.Machine

/-! Waiting (20_memory.md R52, R53; 70_reset_and_hazards.md R201). -/

/-- A machine whose next step leaves it where it is never moves again. -/
theorem run_of_step_self {s : State} (h : step s = .next s) (k : Nat) : Host.Core.run core k s = .next s := by
  induction k with
  | zero => rfl
  | succ k ih => rw [run_next h, ih]

/-! A command that waits in `take` with no item on offer keeps waiting (20_memory.md R52). -/

theorem execCount_noItem {s : State} (hw : waitsToTake .count s) (hi : s.symIn = []) : exec .count s = .next s := by
  obtain ⟨hb, -, hp⟩ := hw
  rw [exec_count, streamMove_running hb, countTransfer_take hp, takeSym_nil hi]

theorem execEncode_noItem {s : State} (hw : waitsToTake .encode s) (hi : s.symIn = []) :
    exec .encode s = .next s := by
  obtain ⟨hb, -, hp⟩ := hw
  rw [exec_encode, streamMove_running hb, encodeTransfer_take hp, takeSym_nil hi]

theorem execDecode_noItem {s : State} (hw : waitsToTake .decode s) (hi : s.bitIn = []) :
    exec .decode s = .next s := by
  obtain ⟨hb, -, hp⟩ := hw
  rw [exec_decode, streamMove_running hb, decodeTransfer_take hp, takeBit_nil hi]

/-- Settles O54: in each of the five waits the step is a move of the running command, which changes nothing; so no run
leaves the state (`run_of_step_self`). -/
theorem stalledStreamHangs : Obligations.StalledStreamHangs := by
  intro s hs hstall
  apply run_of_step_self
  rcases hstall with ⟨hw, hi⟩ | ⟨hw, hi⟩ | ⟨hw, hi⟩ | ⟨hb, ho, hr, hp⟩ | ⟨hb, ho, hr, hp⟩
  · exact (step_waitsToTake hw hs).trans (execCount_noItem hw hi)
  · exact (step_waitsToTake hw hs).trans (execEncode_noItem hw hi)
  · exact (step_waitsToTake hw hs).trans (execDecode_noItem hw hi)
  · exact (step_running hb ho hs).trans (execEncode_waits hb hp hr)
  · exact (step_running hb ho hs).trans (execDecode_waits hb hp hr)

/-! Reset (70_reset_and_hazards.md R190, R192). -/

theorem step_reset {s : State} {rest : List Move} (hs : s.script = .reset :: rest) :
    step s = .next (resetCore { s with script := rest }) := step_scheduled hs

/-- With BUSY = 0 the core offers nothing and asks for nothing (20_memory.md R55). -/
theorem streamsIdle_of_notBusy {s : State} (hb : s.busy = false) :
    s.boOffer = none ∧ s.soOffer = none ∧ s.siReady = false ∧ s.biReady = false := by
  simp [State.boOffer, State.soOffer, State.siReady, State.biReady, hb]

/-- Settles O2: the step is `resetCore`, which takes each element of the core from `State.reset` and each of the outside
from `s`; with BUSY = 0 the streams are idle (`streamsIdle_of_notBusy`). -/
theorem resetFromAnyState : Obligations.ResetFromAnyState := by
  intro s rest hs
  obtain ⟨hbo, hso, hsi, hbi⟩ := streamsIdle_of_notBusy (s := resetCore { s with script := rest }) rfl
  exact ⟨_, step_reset hs, rfl, rfl, rfl, rfl, rfl, rfl, rfl, rfl, rfl, rfl, rfl, rfl, hbo, hso, hsi, hbi,
    ⟨rfl, rfl, rfl, rfl⟩, rfl⟩

end Sys2Proof
